-- ==== Sys2Proof/Word.lean ====
section
/-! DEFINITION. The word types of IMPLODE_DEC: a host register is 32 bits (00_scope.md R8, R28), a byte of IN or OUT is 8
bits (20_memory.md R38, R39). All numbers are unsigned (00_scope.md R11). -/

namespace Sys2Proof

/-- A byte of the input buffer IN or of the output buffer OUT. -/
abbrev Byte := BitVec 8

/-- A host register as the host sees it (10_state.md R28). -/
abbrev Word := BitVec 32

end Sys2Proof
end

