-- ==== Sys2Proof/Config.lean ====
section
/-! DEFINITION. What an instance of the block fixes (00_scope.md R7) and the free values the spec leaves open
(70_reset_and_hazards.md R118). -/

namespace Sys2Proof

/-- The two open parameters of 00_scope.md R7. They are plain data of the state (log 4), so a statement about every state
is a statement about every choice of them; no step changes them. -/
structure Config where
  /-- `IN_CAP`, the capacity of IN in bytes. -/
  inCap : Nat
  /-- `OUT_CAP`, the capacity of OUT in bytes. -/
  outCap : Nat
  deriving DecidableEq, Repr

/-- The legal values of the parameters: 2 <= `IN_CAP` <= 2^32 - 1 and 1 <= `OUT_CAP` <= 2^32 - 1 (00_scope.md R7). -/
abbrev Config.legal (c : Config) : Prop :=
  2 ≤ c.inCap ∧ c.inCap ≤ 4294967295 ∧ 1 ≤ c.outCap ∧ c.outCap ≤ 4294967295

/-- DESIGN CHOICE (log 4; unsafe for a claim that leans on the numbers): the parameters of `State.reset`, both at the
maximum of R7, the choice R7 names for the document's unbounded output. -/
def Config.largest : Config := { inCap := 4294967295, outCap := 4294967295 }

/-- FREE VALUE (70_reset_and_hazards.md R118, 93_implementation_defined.md U3; log 5): what byte `a` of IN holds since the
`epoch`-th reset, until the host writes it. No body: nothing can be proved of it. -/
opaque Config.inResetByte (epoch a : Nat) : Byte

/-- FREE VALUE (70_reset_and_hazards.md R118, 93_implementation_defined.md U4; log 5): what byte `a` of OUT holds since the
`epoch`-th reset, until the engine writes it. No body: nothing can be proved of it. -/
opaque Config.outResetByte (epoch a : Nat) : Byte

end Sys2Proof
end

