-- ==== Sys2Proof/Syntax.lean ====
section
/-! DEFINITION. The instructions of IMPLODE_DEC, one constructor per row of spec/opcode_table.json: the preamble forms, the
stream tokens (30_encoding.md R50 to R55) and the host operations (43_host_commands.md R91), and the raw requests the host
interface may be given. -/

namespace Sys2Proof

/-- One constructor per row of spec/opcode_table.json. In a COPY token `x` is the value of the length extra bits, `h` the
distance symbol and `l` the distance low bits (30_encoding.md R54, R56); the length symbol is the constructor's number. -/
inductive Instr where
  /-- PRE.D4: dictionary byte 4, 1024 bytes; `flag` is the legal flag byte 0 or 1 (R50). -/
  | preD4 (flag : BitVec 1)
  /-- PRE.D5: dictionary byte 5, 2048 bytes (R50). -/
  | preD5 (flag : BitVec 1)
  /-- PRE.D6: dictionary byte 6, 4096 bytes (R50). -/
  | preD6 (flag : BitVec 1)
  /-- LIT.RAW: a raw literal byte (R52). -/
  | litRaw (v : Byte)
  /-- LIT.CODED: a Huffman-coded literal byte (R53). -/
  | litCoded (v : Byte)
  /-- COPY.S0: length 3. -/
  | copyS0 (h : BitVec 6) (l : BitVec 6)
  /-- COPY.S1: length 2 (two low bits at every dictionary size). -/
  | copyS1 (h : BitVec 6) (l : BitVec 2)
  /-- COPY.S2: length 4. -/
  | copyS2 (h : BitVec 6) (l : BitVec 6)
  /-- COPY.S3: length 5. -/
  | copyS3 (h : BitVec 6) (l : BitVec 6)
  /-- COPY.S4: length 6. -/
  | copyS4 (h : BitVec 6) (l : BitVec 6)
  /-- COPY.S5: length 7. -/
  | copyS5 (h : BitVec 6) (l : BitVec 6)
  /-- COPY.S6: length 8. -/
  | copyS6 (h : BitVec 6) (l : BitVec 6)
  /-- COPY.S7: length 9. -/
  | copyS7 (h : BitVec 6) (l : BitVec 6)
  /-- COPY.S8: lengths 10 to 11. -/
  | copyS8 (x : BitVec 1) (h : BitVec 6) (l : BitVec 6)
  /-- COPY.S9: lengths 12 to 15. -/
  | copyS9 (x : BitVec 2) (h : BitVec 6) (l : BitVec 6)
  /-- COPY.S10: lengths 16 to 23. -/
  | copyS10 (x : BitVec 3) (h : BitVec 6) (l : BitVec 6)
  /-- COPY.S11: lengths 24 to 39. -/
  | copyS11 (x : BitVec 4) (h : BitVec 6) (l : BitVec 6)
  /-- COPY.S12: lengths 40 to 71. -/
  | copyS12 (x : BitVec 5) (h : BitVec 6) (l : BitVec 6)
  /-- COPY.S13: lengths 72 to 135. -/
  | copyS13 (x : BitVec 6) (h : BitVec 6) (l : BitVec 6)
  /-- COPY.S14: lengths 136 to 263. -/
  | copyS14 (x : BitVec 7) (h : BitVec 6) (l : BitVec 6)
  /-- COPY.S15: lengths 264 to 518 (x is not 255: that is END, R55). -/
  | copyS15 (x : BitVec 8) (h : BitVec 6) (l : BitVec 6)
  /-- END: the end marker, length value 519 (R55). -/
  | endMark
  /-- START: a write of `v` to CTRL with bit 0 set (43_host_commands.md R94). -/
  | start (v : Word)
  /-- REG_READ: RegRead(off) (R92). -/
  | regRead (off : Nat)
  /-- REG_WRITE: RegWrite(off, v) (R93). -/
  | regWrite (off : Nat) (v : Word)
  /-- IN_WRITE: InWrite(a, b) (R95). -/
  | inWrite (a : Nat) (b : Byte)
  /-- IN_READ: InRead(a) (R96). -/
  | inRead (a : Nat)
  /-- OUT_READ: OutRead(a) (R97). -/
  | outRead (a : Nat)
  deriving DecidableEq, Repr

/-- The four address spaces of 20_memory.md R38 to R41. -/
inductive Space where
  | reg | input | output | rom
  deriving DecidableEq, Repr

/-- One access the host asks for, before it is known to be an operation of the block (43_host_commands.md R91, R98; log 10):
a space, a direction, a width in bytes, an address, and the data of a write (a byte write carries its byte in bits 7:0). -/
structure HostRequest where
  space : Space
  write : Bool
  bytes : Nat
  addr : Nat
  data : Word
  deriving DecidableEq, Repr

end Sys2Proof
end

