-- ==== Sys2Proof/Machine/State.lean ====
section
/-! DEFINITION. The state of IMPLODE_DEC (10_state.md R14), its state after reset (R37, 70_reset_and_hazards.md R116), and
the names for how a run or a step can stop. -/

namespace Sys2Proof.Machine

open Sys2Proof

/-- The run state `STATE` (10_state.md R16). -/
inductive RunState where
  | idle | busy | done | error
  deriving DecidableEq, Repr

/-- The engine phase `PHASE` (10_state.md R17); its value 3 is never held and cannot be written here. -/
inductive Phase where
  | pre | token | copy
  deriving DecidableEq, Repr

/-- The error kinds the block raises (60_exceptions.md R100); R107's other kinds are never raised. -/
inductive ErrKind where
  | truncatedInput | invalidCode | distanceOutOfRange | outputOverflow
  deriving DecidableEq, Repr

/-- The detection sites 1 to 11 (60_exceptions.md R105), in that order. -/
inductive Site where
  | preambleFlag | preambleDict | controlBit | literal | lengthCode | lengthExtra | distanceCode | distanceLow
  | distanceCheck | literalEmit | copyEmit
  deriving DecidableEq, Repr

/-- Why the model stops. None is an error of the block (60_exceptions.md R109): a statement says that no state meeting
the invariant reaches one. -/
inductive Fault where
  /-- Raised by the bit cursor asked for an input bit at or beyond `8 * IN_LEN` (40_bit_cursor.md R66). Safe: the model stops. -/
  | unmodelledRead
  /-- Raised by the bit cursor asked for 0 or more than 16 bits (40_bit_cursor.md R69), which a run with `DICT_BITS` = 0
  in the token phase would do. Safe: the model stops. -/
  | badWidth
  /-- Raised by a register write of a value that does not fit the register (00_scope.md R12). Safe: the model stops. -/
  | widthOverflow
  /-- Raised by an engine access to an address IN or OUT does not have (20_memory.md R38, R39; log 8). Safe: the model stops. -/
  | noSuchAddress
  deriving DecidableEq, Repr

/-- A host access that is not an operation of the block (43_host_commands.md R98, 92_eei_decisions.md D27), refused as the
spec says; safe, since nothing is proved about a host that makes one. -/
inductive Refusal where
  /-- An instruction with no meaning yet; raised by exec's arm alone. Safe: nothing is claimed of it. -/
  | notModelled (mnemonic : String)
  /-- A register access that is not a whole 32-bit access; raised by the host decoder (R98). Safe. -/
  | regNotWholeWord
  /-- A register access at an offset that is no multiple of 4; raised by the host decoder and by RegRead, RegWrite (R98). Safe. -/
  | regMisaligned
  /-- An IN or OUT access that is not of one byte; raised by the host decoder (R91, R44; log 10). Safe. -/
  | bufferNotOneByte
  /-- An IN access at or beyond `IN_CAP`; raised by InWrite and InRead (R98). Safe. -/
  | inOutOfRange
  /-- An OUT access at or beyond `OUT_CAP`; raised by OutRead (R98). Safe. -/
  | outOutOfRange
  /-- A host write to OUT; raised by the host decoder (R98). Safe. -/
  | outNotWritable
  /-- A host access to the ROM; raised by the host decoder (R91, R98, 20_memory.md R40). Safe. -/
  | romNotReachable
  deriving DecidableEq, Repr

/-- The bytes of a buffer written since reset, by address, addresses strictly rising; an unlisted byte is one nothing has
written since reset (Machine/Memory.lean, log 5). -/
abbrev Memory := List Host.Cell

/-- What the last host operation returned (43_host_commands.md R91, the results column; log 3). -/
inductive HostResult where
  | nothing
  | word (v : Word)
  | byte (b : Byte)
  deriving DecidableEq, Repr

/-- One atomic action of the interleaving of 00_scope.md R9 (log 1): an engine step, a host request, or the reset event of
70_reset_and_hazards.md R116. -/
inductive Turn where
  | engine
  | host (r : HostRequest)
  | reset
  deriving DecidableEq, Repr

/-- The state: every register of 10_state.md R14 at its width, the buffers IN and OUT (20_memory.md R38, R39), the
parameters (00_scope.md R7), and three fields of the model's own. The ROM is a constant (Machine/Rom.lean, log 12). -/
structure State where
  /-- `STATE` (R16). -/
  runState : RunState
  /-- `PHASE` (R17). -/
  phase : Phase
  /-- `LIT_MODE` (R18). -/
  litMode : BitVec 1
  /-- `PRE_VALID` (R20). -/
  preValid : BitVec 1
  /-- `DICT_BITS` (R19). -/
  dictBits : BitVec 3
  /-- `ERR_CODE` (R25). -/
  errCode : BitVec 4
  /-- `ERR_DETAIL` (R25). -/
  errDetail : BitVec 4
  /-- `IN_LEN` (R24). -/
  inLen : BitVec 32
  /-- `CUR_BYTE` (R15). -/
  curByte : BitVec 32
  /-- `CUR_BIT` (R15). -/
  curBit : BitVec 3
  /-- `OUT_LEN` (R23). -/
  outLen : BitVec 32
  /-- `ERR_POS` (R26). -/
  errPos : BitVec 32
  /-- `ERR_BIT` (R26). -/
  errBit : BitVec 3
  /-- `PRE_FLAG` (R20). -/
  preFlag : BitVec 8
  /-- `PRE_DICT` (R20). -/
  preDict : BitVec 8
  /-- `COPY_REM` (R21). -/
  copyRem : BitVec 10
  /-- `COPY_DIST` (R22). -/
  copyDist : BitVec 13
  /-- `DICT_HINT` (R27). -/
  dictHint : BitVec 8
  /-- The bytes of IN the host wrote since reset (R38). -/
  inMem : Memory
  /-- The bytes of OUT the engine wrote since reset (R39). -/
  outMem : Memory
  /-- `IN_CAP` and `OUT_CAP` (R7, log 4). -/
  cfg : Config
  /-- The model's own: the turns still to come, in order (R9, log 1). -/
  agenda : List Turn
  /-- The model's own: what the last host operation returned (R91, log 3). -/
  hostResult : HostResult
  /-- The model's own: how many reset events have happened, which selects the free bytes of R118 (log 5). -/
  resetEpoch : Nat
  deriving DecidableEq, Repr

/-- The machine with parameters `c` right after reset: every register 0, so IDLE and PRE (10_state.md R37,
70_reset_and_hazards.md R116), nothing written in IN or OUT (R118). The model's own fields are DESIGN CHOICE: no turn to
come (log 2), nothing returned (log 3), epoch 0 (log 5). -/
def State.resetWith (c : Config) : State where
  runState := .idle
  phase := .pre
  litMode := 0
  preValid := 0
  dictBits := 0
  errCode := 0
  errDetail := 0
  inLen := 0
  curByte := 0
  curBit := 0
  outLen := 0
  errPos := 0
  errBit := 0
  preFlag := 0
  preDict := 0
  copyRem := 0
  copyDist := 0
  dictHint := 0
  inMem := []
  outMem := []
  cfg := c
  agenda := []
  hostResult := .nothing
  resetEpoch := 0

/-- The machine right after reset, with the parameters of log 4. -/
def State.reset : State := State.resetWith Config.largest

end Sys2Proof.Machine
end

