-- ==== Sys2Proof/Machine/Memory.lean ====
section
/-! DEFINITION. The buffers as data: the bytes written since reset, by address (20_memory.md R38, R39). The one canonical
form has its addresses strictly rising; an unlisted byte reads as no value here (nothing has written it), and the
accessors of State give it the free value of 70_reset_and_hazards.md R118 (log 5). -/

namespace Sys2Proof.Machine

open Sys2Proof

/-- The byte last written at address `a` since reset, none if nothing has written it. -/
def Memory.written? : Memory → Nat → Option Byte
  | [], _ => none
  | (k, b) :: rest, a => if a = k then some b else Memory.written? rest a

/-- Write byte `b` at address `a`, keeping the addresses strictly rising. -/
def Memory.store : Memory → Nat → Byte → Memory
  | [], a, b => [(a, b)]
  | (k, v) :: rest, a, b =>
    if a < k then (a, b) :: (k, v) :: rest
    else if a = k then (a, b) :: rest
    else (k, v) :: Memory.store rest a b

/-- The canonical form: the addresses rise strictly. -/
abbrev Memory.wf (m : Memory) : Prop := m.Pairwise fun x y => x.1 < y.1

/-- Every listed address is below `cap`, the buffer's capacity. -/
abbrev Memory.below (m : Memory) (cap : Nat) : Prop := ∀ c ∈ m, c.1 < cap

/-- Byte `a` of IN (20_memory.md R38): what the host wrote there since reset, else the free value of R118, the same for
InRead and for the engine. -/
def State.inByte (s : State) (a : Nat) : Byte :=
  (Memory.written? s.inMem a).getD (Config.inResetByte s.resetEpoch a)

/-- Byte `a` of OUT (20_memory.md R39): what the engine last wrote there since reset, in this run or an earlier one, else
the free value of R118. -/
def State.outByte (s : State) (a : Nat) : Byte :=
  (Memory.written? s.outMem a).getD (Config.outResetByte s.resetEpoch a)

end Sys2Proof.Machine
end

