-- ==== Sys2Proof/Machine/Rom.lean ====
section
/-! DEFINITION. The code-table ROM (10_state.md R34): the counts and symbols that Decode reads (41_code_tables.md R72 to R74)
and, for the encoder, the code lengths in the compact form of 30_encoding.md R62 with the canonical rule R57 and the stream
form R58. -/

namespace Sys2Proof.Machine

open Sys2Proof

/-- One code table of the ROM. -/
structure CodeTable where
  /-- `COUNT_T[1 ..]`: how many symbols have code length 1, 2, ... (R71). -/
  counts : List Nat
  /-- `SYMBOL_T`: the symbols by code length, then by value (R71). -/
  symbols : List Nat
  /-- The code length of symbol 0, 1, ... (R57). -/
  lens : List Nat
  deriving DecidableEq, Repr

/-- `MAXLEN_T`, the longest code length (R71). -/
def CodeTable.maxLen (t : CodeTable) : Nat := t.counts.length

/-- The compact form of R62: byte b gives (b >> 4) + 1 consecutive symbols the code length b & 15. -/
def expandLens (compact : List Nat) : List Nat :=
  compact.flatMap fun b => List.replicate ((b >>> 4) + 1) (b &&& 15)

/-- The length table (R72; lengths R62). -/
def lenTable : CodeTable where
  counts := [0, 1, 3, 3, 4, 3, 2]
  symbols := List.range 16
  lens := expandLens [2, 35, 36, 53, 38, 23]

/-- The distance table (R73; lengths R62). -/
def distTable : CodeTable where
  counts := [0, 1, 0, 2, 4, 15, 26, 16]
  symbols := List.range 64
  lens := expandLens [2, 20, 53, 230, 247, 151, 248]

/-- `SYMBOL_LIT` (R74), code lengths 4 to 9. -/
def litSymbolsShort : List Nat :=
  [0x20] ++
  [0x45, 0x61, 0x65, 0x69, 0x6C, 0x6E, 0x6F, 0x72, 0x73, 0x74, 0x75] ++
  [0x2D, 0x31, 0x41, 0x43, 0x44, 0x49, 0x4C, 0x4E, 0x4F, 0x52, 0x53, 0x54, 0x62, 0x63, 0x64, 0x66, 0x67, 0x68, 0x6D,
   0x70] ++
  [0x0A, 0x0D, 0x28, 0x29, 0x2C, 0x2E, 0x30, 0x32, 0x33, 0x34, 0x35, 0x37, 0x38, 0x3D, 0x42, 0x46, 0x4D, 0x50, 0x55,
   0x6B, 0x77] ++
  [0x09, 0x22, 0x27, 0x2A, 0x2F, 0x36, 0x39, 0x3A, 0x47, 0x48, 0x57, 0x5B, 0x5F, 0x76, 0x78, 0x79] ++
  [0x2B, 0x3E, 0x4B, 0x56, 0x58, 0x59, 0x5D]

/-- `SYMBOL_LIT` (R74), code lengths 10 to 13. -/
def litSymbolsLong : List Nat :=
  [0x21, 0x24, 0x26, 0x71, 0x7A] ++
  [0x00, 0x3C, 0x3F, 0x4A, 0x51, 0x5A, 0x5C, 0x6A, 0x7B, 0x7C] ++
  ([0x01, 0x02, 0x03, 0x04, 0x05, 0x06, 0x07, 0x08, 0x0B, 0x0C, 0x0E, 0x0F, 0x10, 0x11, 0x12, 0x13, 0x14, 0x15, 0x16,
    0x17, 0x18, 0x19, 0x1B, 0x1C, 0x1D, 0x1E, 0x1F, 0x23, 0x25, 0x3B, 0x40, 0x5E, 0x60, 0x7D, 0x7E, 0x7F] ++
   [0xB0, 0xB1, 0xB2, 0xB3, 0xB4, 0xB5, 0xB6, 0xB7, 0xB8, 0xB9, 0xBA, 0xBB, 0xBC, 0xBD, 0xBE, 0xBF, 0xC0, 0xC1, 0xC2,
    0xC3, 0xC4, 0xC5, 0xC6, 0xC7, 0xC8, 0xC9, 0xCA, 0xCB, 0xCC, 0xCD, 0xCE, 0xCF, 0xD0, 0xD1, 0xD2, 0xD3, 0xD4, 0xD5,
    0xD6, 0xD7, 0xD8, 0xD9, 0xDA, 0xDB, 0xDC, 0xDD, 0xDE, 0xDF, 0xE1, 0xE5, 0xE9, 0xEE, 0xF2, 0xF3, 0xF4]) ++
  ([0x1A, 0x80, 0x81, 0x82, 0x83, 0x84, 0x85, 0x86, 0x87, 0x88, 0x89, 0x8A, 0x8B, 0x8C, 0x8D, 0x8E, 0x8F, 0x90, 0x91,
    0x92, 0x93, 0x94, 0x95, 0x96, 0x97, 0x98, 0x99, 0x9A, 0x9B, 0x9C, 0x9D, 0x9E, 0x9F, 0xA0, 0xA1, 0xA2, 0xA3, 0xA4,
    0xA5, 0xA6, 0xA7, 0xA8, 0xA9, 0xAA, 0xAB, 0xAC, 0xAD, 0xAE, 0xAF] ++
   [0xE0, 0xE2, 0xE3, 0xE4, 0xE6, 0xE7, 0xE8, 0xEA, 0xEB, 0xEC, 0xED, 0xEF, 0xF0, 0xF1, 0xF5, 0xF6, 0xF7, 0xF8, 0xF9,
    0xFA, 0xFB, 0xFC, 0xFD, 0xFE, 0xFF])

/-- The compact code lengths of the literal table (R62), 98 bytes. -/
def litCompact : List Nat :=
  [11, 124, 8, 7, 28, 7, 188, 13, 76, 4, 10, 8, 12, 10, 12, 10, 8, 23, 8] ++
  [9, 7, 6, 7, 8, 7, 6, 55, 8, 23, 24, 12, 11, 7, 9, 11, 12, 6, 7, 22, 5] ++
  [7, 24, 6, 11, 9, 6, 7, 22, 7, 11, 38, 7, 9, 8, 25, 11, 8, 11, 9, 12] ++
  [8, 12, 5, 38, 5, 38, 5, 11, 7, 5, 6, 21, 6, 10, 53, 8, 7, 24, 10, 27] ++
  [44, 253, 253, 253, 252, 252, 252, 13, 12, 45, 12, 45, 12, 61, 12, 45] ++
  [44, 173]

/-- The literal table (R74; lengths R62). -/
def litTable : CodeTable where
  counts := [0, 0, 0, 1, 11, 20, 21, 16, 7, 5, 10, 91, 74]
  symbols := litSymbolsShort ++ litSymbolsLong
  lens := expandLens litCompact

/-- The code length of symbol `sym` (R57). -/
def CodeTable.codeLen (t : CodeTable) (sym : Nat) : Nat := t.lens.getD sym 0

/-- `first[n]` of the canonical rule (R57), for n >= 1. -/
def firstCode (lens : List Nat) : Nat → Nat
  | 0 => 0
  | 1 => 0
  | n + 2 => (firstCode lens (n + 1) + lens.count (n + 1)) <<< 1

/-- `code[sym]` of the canonical rule (R57). -/
def CodeTable.codeOf (t : CodeTable) (sym : Nat) : Nat :=
  firstCode t.lens (t.codeLen sym) + (t.lens.take sym).count (t.codeLen sym)

/-- The stream bits of the code of `sym`, first-read bit first: the code's bits from the most significant down, each
inverted (R58). -/
def CodeTable.streamCode (t : CodeTable) (sym : Nat) : List Bool :=
  (List.range (t.codeLen sym)).map fun i => !(t.codeOf sym).testBit (t.codeLen sym - 1 - i)

end Sys2Proof.Machine
end

