-- ==== Sys2Proof/Machine/Operands.lean ====
section
/-! DEFINITION. The operand forms of the stream: how a copy's length and distance are assembled (30_encoding.md R56), how
many low bits a distance has (R54, R56), and how wide each token is (R50 to R55, R64). -/

namespace Sys2Proof.Machine

open Sys2Proof

/-- `BASE[s]` (R56). -/
def lenBase (s : Nat) : Nat :=
  [3, 2, 4, 5, 6, 7, 8, 9, 10, 12, 16, 24, 40, 72, 136, 264].getD s 0

/-- `EXTRA[s]` (R56). -/
def lenExtra (s : Nat) : Nat :=
  [0, 0, 0, 0, 0, 0, 0, 0, 1, 2, 3, 4, 5, 6, 7, 8].getD s 0

/-- The length value of length symbol `s` with extra value `x` (R56): 2 to 519, 519 being the end marker (R55). -/
def copyLength (s x : Nat) : Nat := lenBase s + x

/-- The length value reserved for END (R55). -/
def endLength : Nat := 519

/-- k, the number of distance low bits: 2 when the length is 2, else `DICT_BITS` (R56). -/
def lowBitCount (len dictBits : Nat) : Nat := if len = 2 then 2 else dictBits

/-- The distance of distance symbol `h` with k low bits of value `l` (R56). -/
def copyDistance (k h l : Nat) : Nat := (h <<< k) + l + 1

/-- The number of stream bits of a copy token with length symbol `s`, distance symbol `h` and k low bits (R54). -/
def copyWidth (s h k : Nat) : Nat :=
  1 + lenTable.codeLen s + lenExtra s + distTable.codeLen h + k

/-- The number of stream bits of the preamble (R50). -/
def preambleWidth : Nat := 16

/-- The number of stream bits of a raw literal (R52). -/
def litRawWidth : Nat := 9

/-- The number of stream bits of a coded literal of byte `v` (R53). -/
def litCodedWidth (v : Byte) : Nat := 1 + litTable.codeLen v.toNat

/-- The number of stream bits of END (R55): control bit, length symbol 15, 8 extra bits. -/
def endWidth : Nat := 1 + lenTable.codeLen 15 + lenExtra 15

/-- The fields of a COPY row: length symbol, extra value, distance symbol, low bits (30_encoding.md R54); none for any other
instruction. -/
def copyParts : Instr → Option (Nat × Nat × Nat × Nat)
  | .copyS0 h l => some (0, 0, h.toNat, l.toNat)
  | .copyS1 h l => some (1, 0, h.toNat, l.toNat)
  | .copyS2 h l => some (2, 0, h.toNat, l.toNat)
  | .copyS3 h l => some (3, 0, h.toNat, l.toNat)
  | .copyS4 h l => some (4, 0, h.toNat, l.toNat)
  | .copyS5 h l => some (5, 0, h.toNat, l.toNat)
  | .copyS6 h l => some (6, 0, h.toNat, l.toNat)
  | .copyS7 h l => some (7, 0, h.toNat, l.toNat)
  | .copyS8 x h l => some (8, x.toNat, h.toNat, l.toNat)
  | .copyS9 x h l => some (9, x.toNat, h.toNat, l.toNat)
  | .copyS10 x h l => some (10, x.toNat, h.toNat, l.toNat)
  | .copyS11 x h l => some (11, x.toNat, h.toNat, l.toNat)
  | .copyS12 x h l => some (12, x.toNat, h.toNat, l.toNat)
  | .copyS13 x h l => some (13, x.toNat, h.toNat, l.toNat)
  | .copyS14 x h l => some (14, x.toNat, h.toNat, l.toNat)
  | .copyS15 x h l => some (15, x.toNat, h.toNat, l.toNat)
  | .preD4 _ => none
  | .preD5 _ => none
  | .preD6 _ => none
  | .litRaw _ => none
  | .litCoded _ => none
  | .endMark => none
  | .start _ => none
  | .regRead _ => none
  | .regWrite _ _ => none
  | .inWrite _ _ => none
  | .inRead _ => none
  | .outRead _ => none

/-- Where an instruction comes from: the preamble field, the token stream (30_encoding.md R49), or the host
(43_host_commands.md R91). -/
inductive InstrKind where
  | preamble | token | host
  deriving DecidableEq, Repr

/-- The kind of an instruction (30_encoding.md R49, R50; 43_host_commands.md R91). -/
def instrKind : Instr → InstrKind
  | .preD4 _ => .preamble
  | .preD5 _ => .preamble
  | .preD6 _ => .preamble
  | .litRaw _ => .token
  | .litCoded _ => .token
  | .copyS0 _ _ => .token
  | .copyS1 _ _ => .token
  | .copyS2 _ _ => .token
  | .copyS3 _ _ => .token
  | .copyS4 _ _ => .token
  | .copyS5 _ _ => .token
  | .copyS6 _ _ => .token
  | .copyS7 _ _ => .token
  | .copyS8 _ _ _ => .token
  | .copyS9 _ _ _ => .token
  | .copyS10 _ _ _ => .token
  | .copyS11 _ _ _ => .token
  | .copyS12 _ _ _ => .token
  | .copyS13 _ _ _ => .token
  | .copyS14 _ _ _ => .token
  | .copyS15 _ _ _ => .token
  | .endMark => .token
  | .start _ => .host
  | .regRead _ => .host
  | .regWrite _ _ => .host
  | .inWrite _ _ => .host
  | .inRead _ => .host
  | .outRead _ => .host

/-- The number of stream bits of an instruction when `DICT_BITS` is `k` (30_encoding.md R64); 0 for a host operation. -/
def instrWidth (k : Nat) : Instr → Nat
  | .preD4 _ => preambleWidth
  | .preD5 _ => preambleWidth
  | .preD6 _ => preambleWidth
  | .litRaw _ => litRawWidth
  | .litCoded v => litCodedWidth v
  | .copyS0 h _ => copyWidth 0 h.toNat k
  | .copyS1 h _ => copyWidth 1 h.toNat 2
  | .copyS2 h _ => copyWidth 2 h.toNat k
  | .copyS3 h _ => copyWidth 3 h.toNat k
  | .copyS4 h _ => copyWidth 4 h.toNat k
  | .copyS5 h _ => copyWidth 5 h.toNat k
  | .copyS6 h _ => copyWidth 6 h.toNat k
  | .copyS7 h _ => copyWidth 7 h.toNat k
  | .copyS8 _ h _ => copyWidth 8 h.toNat k
  | .copyS9 _ h _ => copyWidth 9 h.toNat k
  | .copyS10 _ h _ => copyWidth 10 h.toNat k
  | .copyS11 _ h _ => copyWidth 11 h.toNat k
  | .copyS12 _ h _ => copyWidth 12 h.toNat k
  | .copyS13 _ h _ => copyWidth 13 h.toNat k
  | .copyS14 _ h _ => copyWidth 14 h.toNat k
  | .copyS15 _ h _ => copyWidth 15 h.toNat k
  | .endMark => endWidth
  | .start _ => 0
  | .regRead _ => 0
  | .regWrite _ _ => 0
  | .inWrite _ _ => 0
  | .inRead _ => 0
  | .outRead _ => 0

end Sys2Proof.Machine
end

