-- ==== Sys2Proof/Machine/BitCursor.lean ====
section
/-! DEFINITION. The bit cursor operations of 40_bit_cursor.md and the code-table lookup of 41_code_tables.md, over any source
of bits read from a position: the input buffer of a state, or a word written out in full. A read either succeeds and
says where the cursor goes, or says which error it raises and where the cursor stays (R69, R71). -/

namespace Sys2Proof.Machine

open Sys2Proof

/-- What the cursor reads: bit p of the stream (none where the memory has no such byte) and how many bits there are. -/
structure BitSource where
  bit : Nat → Option Bool
  len : Nat

/-- The source holds `bits` from position `p` on, all of them before its end. -/
def BitSource.holds (src : BitSource) (p : Nat) (bits : List Bool) : Prop :=
  p + bits.length ≤ src.len ∧ ∀ j, (hj : j < bits.length) → src.bit (p + j) = some bits[j]

/-- The source has a byte for every bit below its length. -/
def BitSource.total (src : BitSource) : Prop := ∀ p, p < src.len → (src.bit p).isSome

/-- An error found while reading: its kind and site (60_exceptions.md R105), where the cursor then stands, and the preamble
bytes already read, which `PRE_FLAG` and `PRE_DICT` keep (10_state.md R20). -/
structure StreamError where
  kind : ErrKind
  site : Site
  pos : Nat
  preFlag : Option Byte := none
  preDict : Option Byte := none
  deriving DecidableEq, Repr

/-- The result of reading at a position: a value and the position after it, an error of the block, or a model fault. -/
inductive Read (α : Type) where
  | ok (a : α) (pos : Nat)
  | error (e : StreamError)
  | stuck (f : Fault)
  deriving DecidableEq, Repr

/-- Read on from where the first read ended; an error or a fault ends the reading (60_exceptions.md R106). -/
def Read.bind {α β : Type} (r : Read α) (k : α → Nat → Read β) : Read β :=
  match r with
  | .ok a pos => k a pos
  | .error e => .error e
  | .stuck f => .stuck f

/-- `bit(p)` (40_bit_cursor.md R66): UnmodelledRead at or beyond the end of the stream. -/
def bitAt (src : BitSource) (p : Nat) : Except Fault Bool :=
  if p < src.len then
    match src.bit p with
    | some b => .ok b
    | none => .error .noSuchAddress
  else .error .unmodelledRead

/-- The sum of bit(p + i) << i for i below n (40_bit_cursor.md R68): the first bit read is bit 0. -/
def gatherBits (src : BitSource) : Nat → Nat → Except Fault Nat
  | 0, _ => .ok 0
  | n + 1, p =>
    match bitAt src p with
    | .error f => .error f
    | .ok b =>
      match gatherBits src n (p + 1) with
      | .error f => .error f
      | .ok v => .ok (b.toNat + 2 * v)

/-- `Remaining()` with the cursor at `p` (40_bit_cursor.md R67). -/
def remainingAt (src : BitSource) (p : Nat) : Nat := src.len - p

/-- `PeekBits(n, site)` (40_bit_cursor.md R68): the cursor stays at `p`; BadWidth outside 1 to 16 bits (R69). -/
def peekBits (src : BitSource) (n : Nat) (site : Site) (p : Nat) : Read Nat :=
  if n = 0 ∨ 16 < n then .stuck .badWidth
  else if remainingAt src p < n then .error { kind := .truncatedInput, site := site, pos := p }
  else
    match gatherBits src n p with
    | .ok v => .ok v p
    | .error f => .stuck f

/-- `ReadBits(n, site)` (40_bit_cursor.md R69): as PeekBits, and the cursor moves past the n bits; a failed read leaves it. -/
def readBits (src : BitSource) (n : Nat) (site : Site) (p : Nat) : Read Nat :=
  (peekBits src n site p).bind fun v p => .ok v (p + n)

/-- What matching the peeked bits against a code table finds. -/
inductive CodeMatch where
  /-- Symbol `sym`, whose code is the first `n` bits. -/
  | found (sym n : Nat)
  /-- The bits end inside a code. -/
  | short
  /-- No entry of the table matches. -/
  | miss
  deriving DecidableEq, Repr

/-- The loop of `Decode` (41_code_tables.md R71) over the peeked bits `w` (m of them), at code length `n`, with the counts
of the code lengths from `n` up. -/
def matchCode (symbols : List Nat) (m w : Nat) : List Nat → (n code first index : Nat) → CodeMatch
  | [], _, _, _, _ => .miss
  | count :: counts, n, code, first, index =>
    if m < n then .short
    else
      let code := code ||| (1 ^^^ (w.testBit (n - 1)).toNat)
      if code < first + count then
        match symbols[index + code - first]? with
        | some sym => .found sym n
        | none => .miss
      else matchCode symbols m w counts (n + 1) (code <<< 1) ((first + count) <<< 1) (index + count)

/-- `Decode(T, site)` (41_code_tables.md R71): one symbol of table `t`, the cursor moved past exactly its code. -/
def decodeSymbol (src : BitSource) (t : CodeTable) (site : Site) (p : Nat) : Read Nat :=
  if remainingAt src p = 0 then .error { kind := .truncatedInput, site := site, pos := p }
  else
    let m := min t.maxLen (remainingAt src p)
    (peekBits src m site p).bind fun w _ =>
      match matchCode t.symbols m w t.counts 1 0 0 0 with
      | .found sym n => .ok sym (p + n)
      | .short => .error { kind := .truncatedInput, site := site, pos := p }
      | .miss => .error { kind := .invalidCode, site := site, pos := p }

/-- The input buffer of a state as the cursor reads it: bit p is bit p & 7 of byte p >> 3 (20_memory.md R42), there are
`8 * IN_LEN` of them (40_bit_cursor.md R67), and IN has `IN_CAP` bytes (20_memory.md R38). -/
def State.stream (s : State) : BitSource where
  bit p := if p / 8 < s.cfg.inCap then some ((s.inByte (p / 8)).getLsbD (p % 8)) else none
  len := 8 * s.inLen.toNat

/-- P, the bit position of the cursor (10_state.md R15). -/
def State.cursor (s : State) : Nat := 8 * s.curByte.toNat + s.curBit.toNat

/-- `Remaining()` of a state (40_bit_cursor.md R67). -/
def State.remaining (s : State) : Nat := remainingAt s.stream s.cursor

end Sys2Proof.Machine
end

