-- ==== Sys2Proof/WellFormed.lean ====
section
/-! DEFINITION. When an instruction is one the block can be given: the checks that its constructor's types do not make
(30_encoding.md R52 to R55; 43_host_commands.md R91 to R98). -/

namespace Sys2Proof

/-- What the meaning of a bit string depends on beside the bits: the two choices the preamble fixes for the run
(30_encoding.md R64) and the capacities that bound host addresses (43_host_commands.md R95 to R97). -/
structure Context where
  litMode : BitVec 1
  dictBits : BitVec 3
  cfg : Config
  deriving DecidableEq, Repr

/-- The values `DICT_BITS` holds once a preamble was accepted (10_state.md R19). -/
def Context.dictAccepted (c : Context) : Bool :=
  c.dictBits == 4 || c.dictBits == 5 || c.dictBits == 6

/-- The low bits of a distance fit the `DICT_BITS` bits the token has for them (30_encoding.md R54, R56). -/
def Context.lowFits (c : Context) (l : BitVec 6) : Bool :=
  c.dictAccepted && decide (l.toNat < 2 ^ c.dictBits.toNat)

/-- The instruction is one that the block can be given in context `c`. -/
def wellFormed (c : Context) : Instr → Bool
  | .preD4 _ => true
  | .preD5 _ => true
  | .preD6 _ => true
  | .litRaw _ => c.litMode == 0
  | .litCoded _ => c.litMode == 1
  | .copyS0 _ l => c.lowFits l
  | .copyS1 _ _ => true
  | .copyS2 _ l => c.lowFits l
  | .copyS3 _ l => c.lowFits l
  | .copyS4 _ l => c.lowFits l
  | .copyS5 _ l => c.lowFits l
  | .copyS6 _ l => c.lowFits l
  | .copyS7 _ l => c.lowFits l
  | .copyS8 _ _ l => c.lowFits l
  | .copyS9 _ _ l => c.lowFits l
  | .copyS10 _ _ l => c.lowFits l
  | .copyS11 _ _ l => c.lowFits l
  | .copyS12 _ _ l => c.lowFits l
  | .copyS13 _ _ l => c.lowFits l
  | .copyS14 _ _ l => c.lowFits l
  | .copyS15 x _ l => x != 255 && c.lowFits l
  | .endMark => true
  | .start v => v.getLsbD 0
  | .regRead off => off % 4 == 0
  | .regWrite off v => off % 4 == 0 && !(off == 0 && v.getLsbD 0)
  | .inWrite a _ => decide (a < c.cfg.inCap)
  | .inRead a => decide (a < c.cfg.inCap)
  | .outRead a => decide (a < c.cfg.outCap)

end Sys2Proof
end

