-- ==== Sys2Proof/Decode.lean ====
section
/-! DEFINITION. The decoder, total on any stream of bits and on any host request, and after it the encoder, written from the
same formats (30_encoding.md R50 to R58; 43_host_commands.md R91, R98). -/

namespace Sys2Proof

open Machine

/-- The COPY row of length symbol `s` with its fields (30_encoding.md R54); none when `s` is no length symbol. -/
def copyInstr (s x : Nat) (h l : BitVec 6) : Option Instr :=
  match s with
  | 0 => some (.copyS0 h l)
  | 1 => some (.copyS1 h (l.setWidth 2))
  | 2 => some (.copyS2 h l)
  | 3 => some (.copyS3 h l)
  | 4 => some (.copyS4 h l)
  | 5 => some (.copyS5 h l)
  | 6 => some (.copyS6 h l)
  | 7 => some (.copyS7 h l)
  | 8 => some (.copyS8 (BitVec.ofNat 1 x) h l)
  | 9 => some (.copyS9 (BitVec.ofNat 2 x) h l)
  | 10 => some (.copyS10 (BitVec.ofNat 3 x) h l)
  | 11 => some (.copyS11 (BitVec.ofNat 4 x) h l)
  | 12 => some (.copyS12 (BitVec.ofNat 5 x) h l)
  | 13 => some (.copyS13 (BitVec.ofNat 6 x) h l)
  | 14 => some (.copyS14 (BitVec.ofNat 7 x) h l)
  | 15 => some (.copyS15 (BitVec.ofNat 8 x) h l)
  | _ => none

/-- The length extra bits of symbol `s`: 0 without a read when the symbol has none (42_tokens.md R82). -/
def readExtra (src : BitSource) (s p : Nat) : Read Nat :=
  if lenExtra s = 0 then .ok 0 p else readBits src (lenExtra s) .lengthExtra p

/-- The distance fields of a copy of length symbol `s` and extra value `x` (42_tokens.md R83). A low field that exceeds six
bits (`DICT_BITS` = 7, never held, 10_state.md R19) is a model fault (00_scope.md R12, log 8). -/
def decodeDistance (c : Context) (src : BitSource) (s x p : Nat) : Read Instr :=
  (decodeSymbol src distTable .distanceCode p).bind fun h p =>
    (readBits src (lowBitCount (copyLength s x) c.dictBits.toNat) .distanceLow p).bind fun l p =>
      if 64 ≤ l then .stuck .widthOverflow
      else
        match copyInstr s x (BitVec.ofNat 6 h) (BitVec.ofNat 6 l) with
        | some i => .ok i p
        | none => .error { kind := .invalidCode, site := .lengthCode, pos := p }

/-- The copy path after the control bit (42_tokens.md R82): length symbol, extra bits, END or the distance. -/
def decodeCopyPath (c : Context) (src : BitSource) (p : Nat) : Read Instr :=
  (decodeSymbol src lenTable .lengthCode p).bind fun s p =>
    (readExtra src s p).bind fun x p =>
      if copyLength s x = endLength then .ok .endMark p else decodeDistance c src s x p

/-- The literal path after the control bit: raw or coded by `LIT_MODE` (42_tokens.md R79 to R81). -/
def decodeLiteral (c : Context) (src : BitSource) (p : Nat) : Read Instr :=
  if c.litMode = 0 then
    (readBits src 8 .literal p).bind fun v p => .ok (.litRaw (BitVec.ofNat 8 v)) p
  else
    (decodeSymbol src litTable .literal p).bind fun v p => .ok (.litCoded (BitVec.ofNat 8 v)) p

/-- One token at position `p` (42_tokens.md R79): its instruction and the position after it, or the error it raises. -/
def decodeToken (c : Context) (src : BitSource) (p : Nat) : Read Instr :=
  (readBits src 1 .controlBit p).bind fun ctl p =>
    if ctl = 0 then decodeLiteral c src p else decodeCopyPath c src p

/-- The PRE row of dictionary byte `d` with legal flag byte `f` (30_encoding.md R50); none when `d` is not 4, 5 or 6. -/
def preambleInstr (f d : Nat) : Option Instr :=
  match d with
  | 4 => some (.preD4 (BitVec.ofNat 1 f))
  | 5 => some (.preD5 (BitVec.ofNat 1 f))
  | 6 => some (.preD6 (BitVec.ofNat 1 f))
  | _ => none

/-- The preamble at position `p` (42_tokens.md R78): the flag byte is checked before the dictionary byte is read, and an
error says which bytes were read before it. -/
def decodePreamble (src : BitSource) (p : Nat) : Read Instr :=
  match readBits src 8 .preambleFlag p with
  | .stuck e => .stuck e
  | .error e => .error e
  | .ok f p =>
    if 1 < f then
      .error { kind := .invalidCode, site := .preambleFlag, pos := p, preFlag := some (BitVec.ofNat 8 f) }
    else
      match readBits src 8 .preambleDict p with
      | .stuck e => .stuck e
      | .error e => .error { e with preFlag := some (BitVec.ofNat 8 f) }
      | .ok d p =>
        match preambleInstr f d with
        | some i => .ok i p
        | none =>
          .error { kind := .invalidCode, site := .preambleDict, pos := p, preFlag := some (BitVec.ofNat 8 f),
                   preDict := some (BitVec.ofNat 8 d) }

/-- A register request (43_host_commands.md R91, R98): whole 32-bit accesses at multiples of 4; a write to offset 0 with bit
0 set is the START row (R94, log 19). -/
def decodeRegRequest (r : HostRequest) : Except Refusal Instr :=
  if r.bytes ≠ 4 then .error .regNotWholeWord
  else if r.addr % 4 ≠ 0 then .error .regMisaligned
  else if r.write then
    if r.addr = 0 ∧ r.data.getLsbD 0 = true then .ok (.start r.data) else .ok (.regWrite r.addr r.data)
  else .ok (.regRead r.addr)

/-- Which operation a host request is, or the name of its refusal (43_host_commands.md R91, R98; log 10). -/
def decodeHost (r : HostRequest) : Except Refusal Instr :=
  match r.space with
  | .reg => decodeRegRequest r
  | .input =>
    if r.bytes ≠ 1 then .error .bufferNotOneByte
    else if r.write then .ok (.inWrite r.addr (r.data.setWidth 8)) else .ok (.inRead r.addr)
  | .output =>
    if r.write then .error .outNotWritable
    else if r.bytes ≠ 1 then .error .bufferNotOneByte
    else .ok (.outRead r.addr)
  | .rom => .error .romNotReachable

/-- A word as a stream of bits from position 0, bit 0 first, zero from its own top up to 32 bits (no token is longer than
30 bits, 30_encoding.md R64). -/
def wordSource (w : Nat) : BitSource where
  bit p := some (w.testBit p)
  len := 32

/-- The word is a legal preamble of 16 bits (30_encoding.md R50); the table's word interface then reads it as one, since the
bits alone do not say whether a preamble or a token stands there (log 11). -/
def tableWordIsPreamble (nbits w : Nat) : Bool :=
  nbits == 16 && (w == 0x400 || w == 0x401 || w == 0x500 || w == 0x501 || w == 0x600 || w == 0x601)

/-- The choices of the preamble under which the table's word interface reads a token (log 11): dictionary byte 4; raw
literals where the row's bits can hold a 9-bit raw literal, coded ones where they cannot. -/
def tableContext (nbits : Nat) : Context where
  litMode := if nbits < litRawWidth then 1 else 0
  dictBits := 4
  cfg := Config.largest

/-- The instruction the decoder reads from the stream bits `w` of an opcode-table row (log 11). -/
def decodeTableWord (nbits w : Nat) : Option Instr :=
  match (if tableWordIsPreamble nbits w then decodePreamble (wordSource w) 0
         else decodeToken (tableContext nbits) (wordSource w) 0) with
  | .ok i _ => some i
  | .error _ => none
  | .stuck _ => none

/-- A raw field of `n` bits in stream order, bit 0 first (20_memory.md R42). -/
def fieldBits (n v : Nat) : List Bool := (List.range n).map v.testBit

/-- The stream bits of a COPY token: control bit, length code, extra bits, distance code, k low bits (30_encoding.md R54). -/
def copyBits (s x h k l : Nat) : List Bool :=
  true :: (lenTable.streamCode s ++ fieldBits (lenExtra s) x ++ distTable.streamCode h ++ fieldBits k l)

/-- The stream bits of the preamble (30_encoding.md R50). -/
def preambleBits (f d : Nat) : List Bool := fieldBits 8 f ++ fieldBits 8 d

/-- An instruction as the block is given it: bits of the stream, or a host request. -/
inductive Encoded where
  | stream (bits : List Bool)
  | host (r : HostRequest)
  deriving DecidableEq, Repr

/-- The encoding of a well-formed instruction in context `c` (30_encoding.md R50 to R56; 43_host_commands.md R91). -/
def encode (c : Context) : Instr → Encoded
  | .preD4 f => .stream (preambleBits f.toNat 4)
  | .preD5 f => .stream (preambleBits f.toNat 5)
  | .preD6 f => .stream (preambleBits f.toNat 6)
  | .litRaw v => .stream (false :: fieldBits 8 v.toNat)
  | .litCoded v => .stream (false :: litTable.streamCode v.toNat)
  | .copyS0 h l => .stream (copyBits 0 0 h.toNat c.dictBits.toNat l.toNat)
  | .copyS1 h l => .stream (copyBits 1 0 h.toNat 2 l.toNat)
  | .copyS2 h l => .stream (copyBits 2 0 h.toNat c.dictBits.toNat l.toNat)
  | .copyS3 h l => .stream (copyBits 3 0 h.toNat c.dictBits.toNat l.toNat)
  | .copyS4 h l => .stream (copyBits 4 0 h.toNat c.dictBits.toNat l.toNat)
  | .copyS5 h l => .stream (copyBits 5 0 h.toNat c.dictBits.toNat l.toNat)
  | .copyS6 h l => .stream (copyBits 6 0 h.toNat c.dictBits.toNat l.toNat)
  | .copyS7 h l => .stream (copyBits 7 0 h.toNat c.dictBits.toNat l.toNat)
  | .copyS8 x h l => .stream (copyBits 8 x.toNat h.toNat c.dictBits.toNat l.toNat)
  | .copyS9 x h l => .stream (copyBits 9 x.toNat h.toNat c.dictBits.toNat l.toNat)
  | .copyS10 x h l => .stream (copyBits 10 x.toNat h.toNat c.dictBits.toNat l.toNat)
  | .copyS11 x h l => .stream (copyBits 11 x.toNat h.toNat c.dictBits.toNat l.toNat)
  | .copyS12 x h l => .stream (copyBits 12 x.toNat h.toNat c.dictBits.toNat l.toNat)
  | .copyS13 x h l => .stream (copyBits 13 x.toNat h.toNat c.dictBits.toNat l.toNat)
  | .copyS14 x h l => .stream (copyBits 14 x.toNat h.toNat c.dictBits.toNat l.toNat)
  | .copyS15 x h l => .stream (copyBits 15 x.toNat h.toNat c.dictBits.toNat l.toNat)
  | .endMark => .stream (true :: (lenTable.streamCode 15 ++ fieldBits 8 255))
  | .start v => .host { space := .reg, write := true, bytes := 4, addr := 0, data := v }
  | .regRead off => .host { space := .reg, write := false, bytes := 4, addr := off, data := 0 }
  | .regWrite off v => .host { space := .reg, write := true, bytes := 4, addr := off, data := v }
  | .inWrite a b => .host { space := .input, write := true, bytes := 1, addr := a, data := b.setWidth 32 }
  | .inRead a => .host { space := .input, write := false, bytes := 1, addr := a, data := 0 }
  | .outRead a => .host { space := .output, write := false, bytes := 1, addr := a, data := 0 }

/-- The stream bits of an instruction, none for a host operation. -/
def Encoded.bits : Encoded → List Bool
  | .stream bits => bits
  | .host _ => []

end Sys2Proof
end

