-- ==== Sys2Proof/Machine/Flags.lean ====
section
/-! DEFINITION. How the flags and fields of the engine are coded for the host: the codes of STATE, PHASE, the error kinds and
the sites, the STATUS and PREAMBLE words (10_state.md R16, R17, R28 to R33; 60_exceptions.md R100, R105). The block has no
condition codes (R33). -/

namespace Sys2Proof.Machine

open Sys2Proof

/-- The two bits of `STATE` (10_state.md R16). -/
def RunState.code : RunState → BitVec 2
  | .idle => 0
  | .busy => 1
  | .done => 2
  | .error => 3

/-- The two bits of `PHASE` (10_state.md R17). -/
def Phase.code : Phase → BitVec 2
  | .pre => 0
  | .token => 1
  | .copy => 2

/-- The error code `ERR_CODE` holds (60_exceptions.md R100). -/
def ErrKind.code : ErrKind → BitVec 4
  | .truncatedInput => 1
  | .invalidCode => 2
  | .distanceOutOfRange => 3
  | .outputOverflow => 4

/-- The site code `ERR_DETAIL` holds (60_exceptions.md R105). -/
def Site.code : Site → BitVec 4
  | .preambleFlag => 1
  | .preambleDict => 2
  | .controlBit => 3
  | .literal => 4
  | .lengthCode => 5
  | .lengthExtra => 6
  | .distanceCode => 7
  | .distanceLow => 8
  | .distanceCheck => 9
  | .literalEmit => 10
  | .copyEmit => 11

/-- What a read of STATUS returns (10_state.md R30). -/
def State.statusWord (s : State) : Word :=
  s.runState.code.setWidth 32 ||| (s.phase.code.setWidth 32 <<< 2) ||| (s.litMode.setWidth 32 <<< 4)
    ||| (s.preValid.setWidth 32 <<< 5) ||| (s.dictBits.setWidth 32 <<< 8) ||| (s.errCode.setWidth 32 <<< 12)
    ||| (s.errDetail.setWidth 32 <<< 16)

/-- What a read of PREAMBLE returns (10_state.md R31). -/
def State.preambleWord (s : State) : Word :=
  s.preFlag.setWidth 32 ||| (s.preDict.setWidth 32 <<< 8)

/-- What a read of the register at offset `off` returns (43_host_commands.md R92): CTRL and every unlisted multiple of 4
read as 0 (10_state.md R29, R32), narrow registers are zero-extended (R31). -/
def State.regValue (s : State) (off : Nat) : Word :=
  match off with
  | 0x04 => s.statusWord
  | 0x08 => s.inLen
  | 0x0C => s.curByte
  | 0x10 => s.curBit.setWidth 32
  | 0x14 => s.outLen
  | 0x18 => s.errPos
  | 0x1C => s.errBit.setWidth 32
  | 0x20 => s.preambleWord
  | 0x24 => s.copyRem.setWidth 32
  | 0x28 => s.copyDist.setWidth 32
  | 0x2C => s.dictHint.setWidth 32
  | _ => 0

/-- Byte `i` of a register on a byte-addressed bus: byte 0 is bits 7:0 (20_memory.md R42). -/
def registerByte (v : Word) (i : Nat) : Byte := (v >>> (8 * i)).setWidth 8

end Sys2Proof.Machine
end

