-- ==== Sys2Proof/Machine/Ops.lean ====
section
/-! DEFINITION. The named operations the meanings share: the updates of the state's registers, the checked register write of
00_scope.md R12, the cursor move, error entry (60_exceptions.md R106, the block's whole trap mechanism; there is no return,
R110), Emit, the copy of a back-reference, and START. -/

namespace Sys2Proof.Machine

open Sys2Proof

/-- The result of a step of the block. -/
abbrev StepResult := Host.Outcome State Fault Refusal

/-- The result of a piece of an engine step: it went on, it raised an error (the rest of the step is not done,
60_exceptions.md R106), or the model is stuck (R109). -/
inductive Micro where
  | ok (s : State)
  | raised (s : State)
  | stuck (f : Fault)
  deriving DecidableEq, Repr

/-- Go on with the next piece of the step unless it has ended. -/
def Micro.bind (m : Micro) (k : State → Micro) : Micro :=
  match m with
  | .ok s => k s
  | .raised s => .raised s
  | .stuck f => .stuck f

/-- The end of an engine step: an error of the block is a state like any other. -/
def Micro.toOutcome : Micro → StepResult
  | .ok s => .next s
  | .raised s => .next s
  | .stuck f => .fault f

/-! The register updates, each written out once. -/

/-- The cursor at bit position `p`: `CUR_BYTE <- p >> 3; CUR_BIT <- p & 7` (10_state.md R15). -/
def State.movedTo (s : State) (p : Nat) : State :=
  { s with curByte := BitVec.ofNat 32 (p / 8), curBit := BitVec.ofNat 3 (p % 8) }

/-- Error entry, `raise E(site)` (60_exceptions.md R106): `STATE`, the kind, the site and the cursor; nothing else changes. -/
def State.errored (s : State) (kind : ErrKind) (site : Site) : State :=
  { s with runState := .error, errCode := kind.code, errDetail := site.code, errPos := s.curByte, errBit := s.curBit }

/-- `PRE_FLAG` as read (10_state.md R20). -/
def State.withPreFlag (s : State) (f : Byte) : State := { s with preFlag := f }

/-- `PRE_DICT` as read (10_state.md R20). -/
def State.withPreDict (s : State) (d : Byte) : State := { s with preDict := d }

/-- The registers an accepted preamble writes (42_tokens.md R78). -/
def State.accepted (s : State) (flag : BitVec 1) (dict : BitVec 3) : State :=
  { s with preFlag := flag.setWidth 8, preDict := dict.setWidth 8, litMode := flag, dictBits := dict, preValid := 1,
           phase := .token }

/-- Byte `v` stands at address `a` of OUT and `OUT_LEN` is `n` (42_tokens.md R77). -/
def State.appended (s : State) (a : Nat) (v : Byte) (n : BitVec 32) : State :=
  { s with outMem := Memory.store s.outMem a v, outLen := n }

/-- A copy is in progress (42_tokens.md R84). -/
def State.copying (s : State) (rem : BitVec 10) (dist : BitVec 13) : State :=
  { s with copyRem := rem, copyDist := dist, phase := .copy }

/-- One copy byte was emitted and `rem` are left; at 0 the copy ends (42_tokens.md R85). -/
def State.copyLeft (s : State) (rem : BitVec 10) : State :=
  { s with copyRem := rem, phase := if rem = 0 then .token else s.phase }

/-- The end marker was read (42_tokens.md R86). -/
def State.finished (s : State) : State := { s with runState := .done }

/-- What START writes (43_host_commands.md R94): every register but `IN_LEN` and `DICT_HINT`. -/
def State.started (s : State) : State :=
  { s with curByte := 0, curBit := 0, outLen := 0, litMode := 0, dictBits := 0, preValid := 0, preFlag := 0, preDict := 0,
           copyRem := 0, copyDist := 0, errCode := 0, errDetail := 0, errPos := 0, errBit := 0, phase := .pre,
           runState := .busy }

/-- The host operation returned `r` (43_host_commands.md R91). -/
def State.answered (s : State) (r : HostResult) : State := { s with hostResult := r }

/-- `IN_LEN` (43_host_commands.md R93). -/
def State.withInLen (s : State) (n : BitVec 32) : State := { s with inLen := n }

/-- `DICT_HINT` (43_host_commands.md R93). -/
def State.withDictHint (s : State) (v : Byte) : State := { s with dictHint := v }

/-- Byte `b` stands at address `a` of IN (43_host_commands.md R95). -/
def State.withInByte (s : State) (a : Nat) (b : Byte) : State := { s with inMem := Memory.store s.inMem a b }

/-- The turns still to come (log 1). -/
def State.withAgenda (s : State) (turns : List Turn) : State := { s with agenda := turns }

/-- The reset event (70_reset_and_hazards.md R116, R118): every register at its reset value, new unspecified contents of IN
and OUT; the parameters and the turns to come stay (log 13). -/
def State.afterReset (s : State) : State :=
  { State.resetWith s.cfg with agenda := s.agenda, resetEpoch := s.resetEpoch + 1 }

/-! The operations. -/

/-- A register write of value `v` at width `w`: WidthOverflow where it does not fit (00_scope.md R12). -/
def fitting (w v : Nat) (k : BitVec w → Micro) : Micro :=
  if v < 2 ^ w then k (BitVec.ofNat w v) else .stuck .widthOverflow

/-- `CUR <- p` (10_state.md R15); the cursor is 35 bits wide (00_scope.md R8, R12). -/
def setCursor (p : Nat) (s : State) : Micro :=
  if p < 2 ^ 35 then .ok (s.movedTo p) else .stuck .widthOverflow

/-- Move the cursor past `n` bits (10_state.md R15). -/
def advance (n : Nat) (s : State) : Micro := setCursor (s.cursor + n) s

/-- `MemWrite(OUT, OUT_LEN, 1, v); OUT_LEN <- OUT_LEN + 1`, the body of Emit (42_tokens.md R77, 20_memory.md R39). -/
def append (v : Byte) (s : State) : Micro :=
  if s.outLen.toNat < s.cfg.outCap then
    fitting 32 (s.outLen.toNat + 1) fun n => .ok (s.appended s.outLen.toNat v n)
  else .stuck .noSuchAddress

/-- `Emit(v, site)` (42_tokens.md R77): OutputOverflow when OUT is full. -/
def emit (v : Byte) (site : Site) (s : State) : Micro :=
  if s.outLen.toNat = s.cfg.outCap then .raised (s.errored .outputOverflow site) else append v s

/-- `CopyStart(len, dist)` (42_tokens.md R84). -/
def copyStart (len dist : Nat) (s : State) : Micro :=
  if s.outLen.toNat < dist then .raised (s.errored .distanceOutOfRange .distanceCheck)
  else fitting 10 len fun rem => fitting 13 dist fun d => .ok (s.copying rem d)

/-- The decrease of `COPY_REM` that ends a copy step (42_tokens.md R85); below 0 it does not fit (00_scope.md R12). -/
def copyCountDown (s : State) : Micro :=
  if s.copyRem.toNat = 0 then .stuck .widthOverflow
  else .ok (s.copyLeft (BitVec.ofNat 10 (s.copyRem.toNat - 1)))

/-- `MemRead(OUT, OUT_LEN - COPY_DIST, 1)` (42_tokens.md R85) given to the rest of the step; an address OUT does not have is
a model fault (log 8). -/
def readBack (s : State) (k : Byte → Micro) : Micro :=
  if s.outLen.toNat < s.copyDist.toNat ∨ s.cfg.outCap ≤ s.outLen.toNat - s.copyDist.toNat then .stuck .noSuchAddress
  else k (s.outByte (s.outLen.toNat - s.copyDist.toNat))

/-- `CopyByteStep` (42_tokens.md R85): one byte of the current copy, read after every earlier byte was written. -/
def copyByteStep (s : State) : Micro :=
  readBack s fun v => (emit v .copyEmit s).bind copyCountDown

/-- A literal token of `n` bits: the cursor moves past it, then the byte is emitted (42_tokens.md R80, R81). -/
def literalToken (n : Nat) (v : Byte) (s : State) : Micro :=
  (advance n s).bind (emit v .literalEmit)

/-- END (42_tokens.md R86): the cursor moves past it and the run is DONE. -/
def endToken (s : State) : Micro :=
  (advance endWidth s).bind fun s => .ok s.finished

/-- The copy path with its fields read (42_tokens.md R82 to R84); length 519 is END whatever the other fields (R82), and a
low field of 0 bits is a read the cursor does not have (40_bit_cursor.md R69). -/
def copyToken (sym x h l : Nat) (s : State) : Micro :=
  if copyLength sym x = endLength then endToken s
  else
    let k := lowBitCount (copyLength sym x) s.dictBits.toNat
    if k = 0 then .stuck .badWidth
    else (advance (copyWidth sym h k) s).bind (copyStart (copyLength sym x) (copyDistance k h l))

/-- An accepted preamble (42_tokens.md R78). -/
def preambleToken (flag : BitVec 1) (dict : BitVec 3) (s : State) : Micro :=
  (advance preambleWidth s).bind fun s => .ok (s.accepted flag dict)

/-- What an error found in the stream leaves (42_tokens.md R76, R78; 60_exceptions.md R106): the preamble bytes that were
read, the cursor where the failed read left it, and error entry. -/
def streamError (e : StreamError) (s : State) : Micro :=
  let s := match e.preFlag with
    | some f => s.withPreFlag f
    | none => s
  let s := match e.preDict with
    | some d => s.withPreDict d
    | none => s
  (setCursor e.pos s).bind fun s => .raised (s.errored e.kind e.site)

/-- `Start()` (43_host_commands.md R94): dropped during a run. -/
def startRun (s : State) : State := if s.runState = .busy then s else s.started

/-- The effect of RegWrite (43_host_commands.md R93) at an offset that is a multiple of 4. -/
def writeRegister (off : Nat) (v : Word) (s : State) : State :=
  match off with
  | 0x00 => if v.getLsbD 0 then startRun s else s
  | 0x08 => if s.runState = .busy then s else s.withInLen (BitVec.ofNat 32 (min v.toNat s.cfg.inCap))
  | 0x2C => if s.runState = .busy then s else s.withDictHint (v.setWidth 8)
  | _ => s

end Sys2Proof.Machine
end

