-- ==== Sys2Proof/Machine/Copy.lean ====
section
/-! DEFINITION. The meanings of the COPY tokens and of END (42_tokens.md R82 to R84, R86). A COPY token starts its copy; the
bytes follow one engine step each (R85, `copyByteStep`). -/

namespace Sys2Proof.Machine

open Sys2Proof

/-- COPY.S0 (42_tokens.md R82 to R84): start a copy of length 3. -/
def execCopyS0 (h : BitVec 6) (l : BitVec 6) (s : State) : StepResult :=
  (copyToken 0 0 h.toNat l.toNat s).toOutcome

/-- COPY.S1 (42_tokens.md R82 to R84): start a copy of length 2. -/
def execCopyS1 (h : BitVec 6) (l : BitVec 2) (s : State) : StepResult :=
  (copyToken 1 0 h.toNat l.toNat s).toOutcome

/-- COPY.S2 (42_tokens.md R82 to R84): start a copy of length 4. -/
def execCopyS2 (h : BitVec 6) (l : BitVec 6) (s : State) : StepResult :=
  (copyToken 2 0 h.toNat l.toNat s).toOutcome

/-- COPY.S3 (42_tokens.md R82 to R84): start a copy of length 5. -/
def execCopyS3 (h : BitVec 6) (l : BitVec 6) (s : State) : StepResult :=
  (copyToken 3 0 h.toNat l.toNat s).toOutcome

/-- COPY.S4 (42_tokens.md R82 to R84): start a copy of length 6. -/
def execCopyS4 (h : BitVec 6) (l : BitVec 6) (s : State) : StepResult :=
  (copyToken 4 0 h.toNat l.toNat s).toOutcome

/-- COPY.S5 (42_tokens.md R82 to R84): start a copy of length 7. -/
def execCopyS5 (h : BitVec 6) (l : BitVec 6) (s : State) : StepResult :=
  (copyToken 5 0 h.toNat l.toNat s).toOutcome

/-- COPY.S6 (42_tokens.md R82 to R84): start a copy of length 8. -/
def execCopyS6 (h : BitVec 6) (l : BitVec 6) (s : State) : StepResult :=
  (copyToken 6 0 h.toNat l.toNat s).toOutcome

/-- COPY.S7 (42_tokens.md R82 to R84): start a copy of length 9. -/
def execCopyS7 (h : BitVec 6) (l : BitVec 6) (s : State) : StepResult :=
  (copyToken 7 0 h.toNat l.toNat s).toOutcome

/-- COPY.S8 (42_tokens.md R82 to R84): start a copy of length 10 to 11. -/
def execCopyS8 (x : BitVec 1) (h : BitVec 6) (l : BitVec 6) (s : State) : StepResult :=
  (copyToken 8 x.toNat h.toNat l.toNat s).toOutcome

/-- COPY.S9 (42_tokens.md R82 to R84): start a copy of length 12 to 15. -/
def execCopyS9 (x : BitVec 2) (h : BitVec 6) (l : BitVec 6) (s : State) : StepResult :=
  (copyToken 9 x.toNat h.toNat l.toNat s).toOutcome

/-- COPY.S10 (42_tokens.md R82 to R84): start a copy of length 16 to 23. -/
def execCopyS10 (x : BitVec 3) (h : BitVec 6) (l : BitVec 6) (s : State) : StepResult :=
  (copyToken 10 x.toNat h.toNat l.toNat s).toOutcome

/-- COPY.S11 (42_tokens.md R82 to R84): start a copy of length 24 to 39. -/
def execCopyS11 (x : BitVec 4) (h : BitVec 6) (l : BitVec 6) (s : State) : StepResult :=
  (copyToken 11 x.toNat h.toNat l.toNat s).toOutcome

/-- COPY.S12 (42_tokens.md R82 to R84): start a copy of length 40 to 71. -/
def execCopyS12 (x : BitVec 5) (h : BitVec 6) (l : BitVec 6) (s : State) : StepResult :=
  (copyToken 12 x.toNat h.toNat l.toNat s).toOutcome

/-- COPY.S13 (42_tokens.md R82 to R84): start a copy of length 72 to 135. -/
def execCopyS13 (x : BitVec 6) (h : BitVec 6) (l : BitVec 6) (s : State) : StepResult :=
  (copyToken 13 x.toNat h.toNat l.toNat s).toOutcome

/-- COPY.S14 (42_tokens.md R82 to R84): start a copy of length 136 to 263. -/
def execCopyS14 (x : BitVec 7) (h : BitVec 6) (l : BitVec 6) (s : State) : StepResult :=
  (copyToken 14 x.toNat h.toNat l.toNat s).toOutcome

/-- COPY.S15 (42_tokens.md R82 to R84): start a copy of length 264 to 518. -/
def execCopyS15 (x : BitVec 8) (h : BitVec 6) (l : BitVec 6) (s : State) : StepResult :=
  (copyToken 15 x.toNat h.toNat l.toNat s).toOutcome

/-- END (42_tokens.md R86): the run is DONE. -/
def execEndMark (s : State) : StepResult := (endToken s).toOutcome

end Sys2Proof.Machine
end

