-- ==== Sys2Proof/Machine/HostOps.lean ====
section
/-! DEFINITION. The meanings of the host operations (43_host_commands.md R92 to R98). Each is atomic, raises no error of the
block, and leaves its result for the host (R91); an access that is no operation of the block is refused by name (R98). -/

namespace Sys2Proof.Machine

open Sys2Proof

/-- START (43_host_commands.md R94): a write of `v` to CTRL, which starts a run when bit 0 is set and no run is in progress. -/
def execStart (v : Word) (s : State) : StepResult :=
  .next ((if v.getLsbD 0 then startRun s else s).answered .nothing)

/-- REG_READ (43_host_commands.md R92). -/
def execRegRead (off : Nat) (s : State) : StepResult :=
  if off % 4 = 0 then .next (s.answered (.word (s.regValue off))) else .refused .regMisaligned

/-- REG_WRITE (43_host_commands.md R93). -/
def execRegWrite (off : Nat) (v : Word) (s : State) : StepResult :=
  if off % 4 = 0 then .next ((writeRegister off v s).answered .nothing) else .refused .regMisaligned

/-- IN_WRITE (43_host_commands.md R95): dropped during a run. -/
def execInWrite (a : Nat) (b : Byte) (s : State) : StepResult :=
  if a < s.cfg.inCap then .next ((if s.runState = .busy then s else s.withInByte a b).answered .nothing)
  else .refused .inOutOfRange

/-- IN_READ (43_host_commands.md R96). -/
def execInRead (a : Nat) (s : State) : StepResult :=
  if a < s.cfg.inCap then .next (s.answered (.byte (s.inByte a))) else .refused .inOutOfRange

/-- OUT_READ (43_host_commands.md R97). -/
def execOutRead (a : Nat) (s : State) : StepResult :=
  if a < s.cfg.outCap then .next (s.answered (.byte (s.outByte a))) else .refused .outOutOfRange

end Sys2Proof.Machine
end

