-- ==== Sys2Proof/Machine/Literal.lean ====
section
/-! DEFINITION. The meanings of the literal tokens (42_tokens.md R80, R81). -/

namespace Sys2Proof.Machine

open Sys2Proof

/-- LIT.RAW (42_tokens.md R80): emit byte `v`. -/
def execLitRaw (v : Byte) (s : State) : StepResult := (literalToken litRawWidth v s).toOutcome

/-- LIT.CODED (42_tokens.md R81): emit the decoded byte `v`. -/
def execLitCoded (v : Byte) (s : State) : StepResult := (literalToken (litCodedWidth v) v s).toOutcome

end Sys2Proof.Machine
end

