-- ==== Sys2Proof/Machine/Preamble.lean ====
section
/-! DEFINITION. The meanings of the accepted preamble forms (42_tokens.md R78). A refused preamble is no instruction: its
error comes from the decoder (Decode.lean, decodePreamble). -/

namespace Sys2Proof.Machine

open Sys2Proof

/-- PRE.D4 (42_tokens.md R78): dictionary of 1024 bytes. -/
def execPreD4 (flag : BitVec 1) (s : State) : StepResult := (preambleToken flag 4 s).toOutcome

/-- PRE.D5 (42_tokens.md R78): dictionary of 2048 bytes. -/
def execPreD5 (flag : BitVec 1) (s : State) : StepResult := (preambleToken flag 5 s).toOutcome

/-- PRE.D6 (42_tokens.md R78): dictionary of 4096 bytes. -/
def execPreD6 (flag : BitVec 1) (s : State) : StepResult := (preambleToken flag 6 s).toOutcome

end Sys2Proof.Machine
end

