-- ==== Sys2Proof/Machine/Dispatch.lean ====
section
/-! DEFINITION. One arm per constructor of Instr, each one direct call of the instruction's meaning. -/

namespace Sys2Proof.Machine

open Sys2Proof

def exec (i : Instr) (s : State) : Host.Outcome State Fault Refusal :=
  match i with
  | .preD4 flag => Sys2Proof.Machine.execPreD4 flag s
  | .preD5 flag => Sys2Proof.Machine.execPreD5 flag s
  | .preD6 flag => Sys2Proof.Machine.execPreD6 flag s
  | .litRaw v => Sys2Proof.Machine.execLitRaw v s
  | .litCoded v => Sys2Proof.Machine.execLitCoded v s
  | .copyS0 h l => Sys2Proof.Machine.execCopyS0 h l s
  | .copyS1 h l => Sys2Proof.Machine.execCopyS1 h l s
  | .copyS2 h l => Sys2Proof.Machine.execCopyS2 h l s
  | .copyS3 h l => Sys2Proof.Machine.execCopyS3 h l s
  | .copyS4 h l => Sys2Proof.Machine.execCopyS4 h l s
  | .copyS5 h l => Sys2Proof.Machine.execCopyS5 h l s
  | .copyS6 h l => Sys2Proof.Machine.execCopyS6 h l s
  | .copyS7 h l => Sys2Proof.Machine.execCopyS7 h l s
  | .copyS8 x h l => Sys2Proof.Machine.execCopyS8 x h l s
  | .copyS9 x h l => Sys2Proof.Machine.execCopyS9 x h l s
  | .copyS10 x h l => Sys2Proof.Machine.execCopyS10 x h l s
  | .copyS11 x h l => Sys2Proof.Machine.execCopyS11 x h l s
  | .copyS12 x h l => Sys2Proof.Machine.execCopyS12 x h l s
  | .copyS13 x h l => Sys2Proof.Machine.execCopyS13 x h l s
  | .copyS14 x h l => Sys2Proof.Machine.execCopyS14 x h l s
  | .copyS15 x h l => Sys2Proof.Machine.execCopyS15 x h l s
  | .endMark => Sys2Proof.Machine.execEndMark s
  | .start v => Sys2Proof.Machine.execStart v s
  | .regRead off => Sys2Proof.Machine.execRegRead off s
  | .regWrite off v => Sys2Proof.Machine.execRegWrite off v s
  | .inWrite a b => Sys2Proof.Machine.execInWrite a b s
  | .inRead a => Sys2Proof.Machine.execInRead a s
  | .outRead a => Sys2Proof.Machine.execOutRead a s

end Sys2Proof.Machine
end

