-- ==== Sys2Proof/Machine/Engine.lean ====
section
/-! DEFINITION. Who moves next and what a move does: the engine step (42_tokens.md R76), a host request (43_host_commands.md
R91), the reset event (70_reset_and_hazards.md R116), in the order the agenda gives (00_scope.md R9); and how a word is
placed where the next step fetches it. -/

namespace Sys2Proof.Machine

open Sys2Proof

/-- What the bits at the cursor are decoded under (30_encoding.md R64). -/
def State.context (s : State) : Context where
  litMode := s.litMode
  dictBits := s.dictBits
  cfg := s.cfg

/-- Run what was read from the stream: the decoded instruction, or the error the reading raised. -/
def runDecoded (s : State) : Read Instr → StepResult
  | .ok i _ => exec i s
  | .error e => (streamError e s).toOutcome
  | .stuck f => .fault f

/-- The engine's part of a step (42_tokens.md R76): by `PHASE` while BUSY; quiescent otherwise, every register keeping its
value (R88, 60_exceptions.md R115). -/
def engineStep (s : State) : StepResult :=
  match s.runState with
  | .busy =>
    match s.phase with
    | .pre => runDecoded s (decodePreamble s.stream s.cursor)
    | .token => runDecoded s (decodeToken s.context s.stream s.cursor)
    | .copy => (copyByteStep s).toOutcome
  | .idle => .next s
  | .done => .next s
  | .error => .next s

/-- A host request: the operation it is, or its refusal (43_host_commands.md R91, R98). -/
def hostTurn (r : HostRequest) (s : State) : StepResult :=
  match decodeHost r with
  | .ok i => exec i s
  | .error e => .refused e

/-- One atomic action of the interleaving (00_scope.md R9): the first turn of the agenda, or the engine's when the agenda is
empty (log 1, log 2). -/
def takeTurn (s : State) : StepResult :=
  match s.agenda with
  | [] => engineStep s
  | .engine :: rest => engineStep (s.withAgenda rest)
  | .host r :: rest => hostTurn r (s.withAgenda rest)
  | .reset :: rest => .next (s.withAgenda rest).afterReset

/-- Byte `i` of the stream word `w` shifted up by `shift` bits (20_memory.md R42). -/
def placedByte (w shift i : Nat) : Byte := BitVec.ofNat 8 ((w <<< shift) >>> (8 * i))

/-- The 32 bits of `w` stand in IN from the cursor on, zero beyond the row's own bits; the bits of the first byte below the
cursor, which are already read, are 0 (log 11). -/
def placeBits (w : Nat) (s : State) : State :=
  let a := s.curByte.toNat
  let b := s.curBit.toNat
  ((((s.withInByte a (placedByte w b 0)).withInByte (a + 1) (placedByte w b 1)).withInByte (a + 2)
    (placedByte w b 2)).withInByte (a + 3) (placedByte w b 3)).withInByte (a + 4) (placedByte w b 4)

/-- A run in progress whose next engine step reads the word `w` at the cursor (log 11): a preamble in the PRE phase, a token
in the TOKEN phase after an accepted preamble that selects `tableContext`. -/
def placeWord (s : State) (nbits w : Nat) : State :=
  let s := (placeBits w s).withInLen (BitVec.ofNat 32 (max s.inLen.toNat (s.curByte.toNat + 5)))
  let s := { s with runState := .busy, agenda := .engine :: s.agenda }
  if tableWordIsPreamble nbits w then { s with phase := .pre }
  else s.accepted (tableContext nbits).litMode (tableContext nbits).dictBits

end Sys2Proof.Machine
end

