-- ==== Sys2Proof/Machine/Step.lean ====
section
/-! DEFINITION. The step, and a word stored where the next step fetches. -/

namespace Sys2Proof.Machine

open Sys2Proof

/-- One atomic action of the machine (00_scope.md R9; Machine/Engine.lean). -/
def step (s : State) : Host.Outcome State Fault Refusal := takeTurn s

/-- The state with the bits `w` of an opcode-table row where the very next step fetches them (log 11). -/
def State.withFetchWord (s : State) (nbits w : Nat) : State := placeWord s nbits w

end Sys2Proof.Machine
end

