-- ==== Sys2Proof/Machine/Boot.lean ====
section
/-! DEFINITION. The host's sequence for one decompression (70_reset_and_hazards.md R119) as turns of the agenda: the bytes to
IN from address 0, `IN_LEN`, START. Polling and reading the result are requests like any other. -/

namespace Sys2Proof.Machine

open Sys2Proof

/-- The request of a RegWrite (43_host_commands.md R93). -/
def regWriteRequest (off : Nat) (v : Word) : HostRequest :=
  { space := .reg, write := true, bytes := 4, addr := off, data := v }

/-- The request of an InWrite (43_host_commands.md R95). -/
def inWriteRequest (a : Nat) (b : Byte) : HostRequest :=
  { space := .input, write := true, bytes := 1, addr := a, data := b.setWidth 32 }

/-- Step 1 of R119: the bytes, the first one to address `a`. -/
def loadTurns (a : Nat) : List Byte → List Turn
  | [] => []
  | b :: rest => .host (inWriteRequest a b) :: loadTurns (a + 1) rest

/-- Steps 1, 2 and 4 of R119 (step 3 is optional and has no effect on the run). -/
def bootTurns (block : List Byte) : List Turn :=
  loadTurns 0 block ++
    [.host (regWriteRequest 0x08 (BitVec.ofNat 32 block.length)), .host (regWriteRequest 0x00 1)]

end Sys2Proof.Machine
end

