-- ==== Sys2Proof/Machine/Notation.lean ====
section
/-! DEFINITION. The spec's notation for streams (30_encoding.md R65): its forms, the tokens each stands for, and the bytes of
a whole stream. -/

namespace Sys2Proof.Machine

open Sys2Proof

/-- A form of R65 after the preamble: `LIT v`, `COPY len, dist`, the shorthand `FILL v, n`, and `END`. -/
inductive StreamForm where
  | lit (v : Byte)
  | copy (len dist : Nat)
  | fill (v : Byte) (n : Nat)
  | finish
  deriving DecidableEq, Repr

/-- The length symbol of a length from 2 to 519, the unique one of R56. -/
def lenSymbol (len : Nat) : Nat :=
  ((List.range 16).find? fun s => lenBase s ≤ len && len < lenBase s + 2 ^ lenExtra s).getD 0

/-- The COPY token of `COPY len, dist` (R65): the unique s and x of R56, then h = (dist-1) >> k and l = (dist-1) & (2^k - 1). -/
def copyForm (c : Context) (len dist : Nat) : Option Instr :=
  let s := lenSymbol len
  let k := lowBitCount len c.dictBits.toNat
  copyInstr s (len - lenBase s) (BitVec.ofNat 6 ((dist - 1) >>> k)) (BitVec.ofNat 6 ((dist - 1) &&& (2 ^ k - 1)))

/-- `LIT v`, raw or coded by the preamble's flag byte (R65). -/
def litForm (c : Context) (v : Byte) : Instr := if c.litMode = 0 then .litRaw v else .litCoded v

/-- The tokens a form stands for (R65); `FILL v, n` is `LIT v` and `COPY n-1, 1`. -/
def StreamForm.tokens (c : Context) : StreamForm → List Instr
  | .lit v => [litForm c v]
  | .copy len dist => (copyForm c len dist).toList
  | .fill v n => litForm c v :: (copyForm c (n - 1) 1).toList
  | .finish => [.endMark]

/-- `PRE f, d` (R65). -/
def preambleForm (f d : Nat) : List Instr := (preambleInstr f d).toList

/-- Byte `i` of a bit string, its missing bits being `pad` (20_memory.md R42; `.pad` of R65). -/
def packedByte (pad : Bool) (bits : List Bool) (i : Nat) : Byte :=
  BitVec.ofNat 8 ((List.range 8).foldr (fun j acc => (bits.getD (8 * i + j) pad).toNat + 2 * acc) 0)

/-- A bit string as input bytes, IN[0] first (20_memory.md R42). -/
def packBytes (pad : Bool) (bits : List Bool) : List Byte :=
  (List.range ((bits.length + 7) / 8)).map (packedByte pad bits)

/-- The bytes of the stream `PRE f, d` followed by `forms` (R65). -/
def streamBytes (pad : Bool) (f d : Nat) (forms : List StreamForm) : List Byte :=
  let c : Context := { litMode := BitVec.ofNat 1 f, dictBits := BitVec.ofNat 3 d, cfg := Config.largest }
  packBytes pad ((preambleForm f d ++ forms.flatMap (StreamForm.tokens c)).flatMap fun i => (encode c i).bits)

/-- Copy `n` bytes from `dist` back, one at a time, each read after the ones before it were written (70_reset_and_hazards.md
R121). -/
def copyOut (dist : Nat) : Nat → List Byte → List Byte
  | 0, out => out
  | n + 1, out => copyOut dist n (out ++ [out.getD (out.length - dist) 0])

/-- The form may stand after the bytes `out` (30_encoding.md R65, R56; 42_tokens.md R84): lengths and distances in range, no
distance beyond the output. END ends a stream and is not one of its forms here. -/
def StreamForm.legal (c : Context) (out : List Byte) : StreamForm → Bool
  | .lit _ => true
  | .copy len dist =>
    decide (2 ≤ len ∧ len ≤ 518 ∧ 1 ≤ dist ∧ dist ≤ 2 ^ (6 + lowBitCount len c.dictBits.toNat) ∧ dist ≤ out.length)
  | .fill _ n => decide (3 ≤ n ∧ n ≤ 519)
  | .finish => false

/-- The bytes after the form, from the bytes `out` before it (30_encoding.md R65; 42_tokens.md R80, R81, R85). -/
def StreamForm.apply (out : List Byte) : StreamForm → List Byte
  | .lit v => out ++ [v]
  | .copy len dist => copyOut dist len out
  | .fill v n => out ++ List.replicate n v
  | .finish => out

/-- The bytes that forms denote after the bytes `out`; none when one of them may not stand where it does. -/
def denote (c : Context) : List StreamForm → List Byte → Option (List Byte)
  | [], out => some out
  | form :: rest, out => if form.legal c out then denote c rest (form.apply out) else none

end Sys2Proof.Machine
end

