-- ==== Sys2Proof/Machine/Pseudocode.lean ====
section
/-! DEFINITION. The engine step a second time, as the spec's own pseudocode writes it (40_bit_cursor.md R69, 41_code_tables.md
R71, 42_tokens.md R76 to R86): the cursor moves at every read. The machine runs the decoder and one meaning instead
(Machine/Engine.lean, log 20); a statement says that the two agree. -/

namespace Sys2Proof.Machine

open Sys2Proof

/-- `ReadBits(n, site)` on the state (R69), its value given to the rest of the step. -/
def pseudoReadBits (n : Nat) (site : Site) (s : State) (k : Nat → State → Micro) : Micro :=
  if n = 0 ∨ 16 < n then .stuck .badWidth
  else if s.remaining < n then .raised (s.errored .truncatedInput site)
  else
    match gatherBits s.stream n s.cursor with
    | .error f => .stuck f
    | .ok v => (setCursor (s.cursor + n) s).bind (k v)

/-- `Decode(T, site)` on the state (R71), its symbol given to the rest of the step. -/
def pseudoDecode (t : CodeTable) (site : Site) (s : State) (k : Nat → State → Micro) : Micro :=
  if s.remaining = 0 then .raised (s.errored .truncatedInput site)
  else
    match gatherBits s.stream (min t.maxLen s.remaining) s.cursor with
    | .error f => .stuck f
    | .ok w =>
      match matchCode t.symbols (min t.maxLen s.remaining) w t.counts 1 0 0 0 with
      | .found sym n => (setCursor (s.cursor + n) s).bind (k sym)
      | .short => .raised (s.errored .truncatedInput site)
      | .miss => .raised (s.errored .invalidCode site)

/-- `PreambleStep()` (R78). -/
def pseudoPreambleStep (s : State) : Micro :=
  pseudoReadBits 8 .preambleFlag s fun f s =>
    let s := s.withPreFlag (BitVec.ofNat 8 f)
    if 1 < f then .raised (s.errored .invalidCode .preambleFlag)
    else
      pseudoReadBits 8 .preambleDict s fun d s =>
        let s := s.withPreDict (BitVec.ofNat 8 d)
        if d < 4 ∨ 6 < d then .raised (s.errored .invalidCode .preambleDict)
        else .ok { s with litMode := BitVec.ofNat 1 f, dictBits := BitVec.ofNat 3 d, preValid := 1, phase := .token }

/-- `LitRaw()` (R80). -/
def pseudoLitRaw (s : State) : Micro :=
  pseudoReadBits 8 .literal s fun v s => emit (BitVec.ofNat 8 v) .literalEmit s

/-- `LitCoded()` (R81). -/
def pseudoLitCoded (s : State) : Micro :=
  pseudoDecode litTable .literal s fun v s => emit (BitVec.ofNat 8 v) .literalEmit s

/-- `CopyDistance(len)` (R83), then `CopyStart(len, dist)` (R84). -/
def pseudoCopyDistance (len : Nat) (s : State) : Micro :=
  let k := if len = 2 then 2 else s.dictBits.toNat
  pseudoDecode distTable .distanceCode s fun h s =>
    pseudoReadBits k .distanceLow s fun l s => copyStart len ((h <<< k) + l + 1) s

/-- The part of `CopyPath()` after its length field: END at 519 (R82, R86). -/
def pseudoLengthKnown (len : Nat) (s : State) : Micro :=
  if len = 519 then .ok { s with runState := .done } else pseudoCopyDistance len s

/-- `CopyPath()` (R82). -/
def pseudoCopyPath (s : State) : Micro :=
  pseudoDecode lenTable .lengthCode s fun sym s =>
    if lenExtra sym = 0 then pseudoLengthKnown (lenBase sym) s
    else pseudoReadBits (lenExtra sym) .lengthExtra s fun x s => pseudoLengthKnown (lenBase sym + x) s

/-- `TokenStep()` (R79). -/
def pseudoTokenStep (s : State) : Micro :=
  pseudoReadBits 1 .controlBit s fun c s =>
    if c = 0 then if s.litMode = 0 then pseudoLitRaw s else pseudoLitCoded s else pseudoCopyPath s

/-- `EngineStep()` (R76), for a state that is BUSY. -/
def pseudoEngineStep (s : State) : Micro :=
  match s.phase with
  | .pre => pseudoPreambleStep s
  | .token => pseudoTokenStep s
  | .copy => copyByteStep s

end Sys2Proof.Machine
end

