-- ==== Sys2Proof/Safety.lean ====
section
/-! DEFINITION. What the statements call a good state, a run and what a run shows: the invariant of 10_state.md R36 (with the
correction of log 7), the observation of 00_scope.md R10, and the runs of the engine left alone. -/

namespace Sys2Proof.Machine

open Sys2Proof

/-- The bounds of the parameters, cursor and lengths (00_scope.md R7; 10_state.md R36 (a) while a run is in progress, log 7,
and R36 (b)), and the buffers' canonical form inside their capacities. -/
structure InvBounds (s : State) : Prop where
  legal : s.cfg.legal
  inLen_le : s.inLen.toNat ≤ s.cfg.inCap
  outLen_le : s.outLen.toNat ≤ s.cfg.outCap
  cursor_le : s.runState = .busy → s.cursor ≤ 8 * s.inLen.toNat
  inMem_wf : Memory.wf s.inMem
  outMem_wf : Memory.wf s.outMem
  inMem_below : Memory.below s.inMem s.cfg.inCap
  outMem_below : Memory.below s.outMem s.cfg.outCap

/-- The preamble registers (10_state.md R36 (c)) and where a run begins (43_host_commands.md R94). -/
structure InvPreamble (s : State) : Prop where
  valid_iff : s.preValid = 1 ↔ s.phase ≠ .pre
  accepted : s.preValid = 1 →
    (s.dictBits = 4 ∨ s.dictBits = 5 ∨ s.dictBits = 6) ∧ s.preDict = s.dictBits.setWidth 8 ∧ s.preFlag = s.litMode.setWidth 8
  notYet : s.preValid = 0 → s.litMode = 0 ∧ s.dictBits = 0
  beginsAtZero : s.runState = .busy → s.phase = .pre → s.cursor = 0

/-- The copy registers (10_state.md R36 (d), (e), R22) and the phase a run ends in (42_tokens.md R86). -/
structure InvCopy (s : State) : Prop where
  inCopy : s.phase = .copy → (s.runState = .busy ∨ s.runState = .error) ∧ 1 ≤ s.copyRem.toNat ∧ s.copyRem.toNat ≤ 518 ∧
    1 ≤ s.copyDist.toNat ∧ s.copyDist.toNat ≤ s.outLen.toNat
  noCopy : s.phase ≠ .copy → s.copyRem = 0
  dist_le : s.copyDist.toNat ≤ 4096
  idle_pre : s.runState = .idle → s.phase = .pre
  done_token : s.runState = .done → s.phase = .token

/-- The error registers (10_state.md R36 (f), R25, R26; 60_exceptions.md R106, R107). -/
structure InvError (s : State) : Prop where
  error_iff : s.runState = .error ↔ s.errCode ≠ 0
  code_le : s.errCode.toNat ≤ 4
  detail_le : s.errDetail.toNat ≤ 11
  atError : s.runState = .error → s.errDetail ≠ 0 ∧ s.errPos = s.curByte ∧ s.errBit = s.curBit
  noError : s.runState ≠ .error → s.errDetail = 0 ∧ s.errPos = 0 ∧ s.errBit = 0

/-- The invariant of the block. -/
structure Inv (s : State) : Prop where
  bounds : InvBounds s
  preamble : InvPreamble s
  copy : InvCopy s
  error : InvError s

/-- What a run shows (00_scope.md R10). -/
structure Observation where
  runState : RunState
  errCode : BitVec 4
  errDetail : BitVec 4
  errPos : BitVec 32
  errBit : BitVec 3
  outLen : BitVec 32
  out : List Byte
  curByte : BitVec 32
  curBit : BitVec 3
  deriving DecidableEq, Repr

/-- The observation of a state (00_scope.md R10). -/
def State.observe (s : State) : Observation where
  runState := s.runState
  errCode := s.errCode
  errDetail := s.errDetail
  errPos := s.errPos
  errBit := s.errBit
  outLen := s.outLen
  out := (List.range s.outLen.toNat).map s.outByte
  curByte := s.curByte
  curBit := s.curBit

/-- The engine makes the next move: the agenda is empty or its first turn is the engine's (log 1, log 2). -/
def State.engineMoves (s : State) : Prop := s.agenda = [] ∨ ∃ rest, s.agenda = .engine :: rest

/-- `n` steps from `s` that all go on lead to `t`. -/
def runsTo (n : Nat) (s t : State) : Prop := Host.Core.run Sys2Proof.core n s = .next t

/-- Two states that no step of their runs may tell apart (42_tokens.md R89): the same registers but `DICT_HINT`, the same
`OUT_CAP`, the same input bytes below `IN_LEN` and output bytes below `OUT_LEN`; nothing is said of other bytes. -/
structure SameRun (s t : State) : Prop where
  runState : s.runState = t.runState
  phase : s.phase = t.phase
  litMode : s.litMode = t.litMode
  preValid : s.preValid = t.preValid
  dictBits : s.dictBits = t.dictBits
  errCode : s.errCode = t.errCode
  errDetail : s.errDetail = t.errDetail
  inLen : s.inLen = t.inLen
  curByte : s.curByte = t.curByte
  curBit : s.curBit = t.curBit
  outLen : s.outLen = t.outLen
  errPos : s.errPos = t.errPos
  errBit : s.errBit = t.errBit
  preFlag : s.preFlag = t.preFlag
  preDict : s.preDict = t.preDict
  copyRem : s.copyRem = t.copyRem
  copyDist : s.copyDist = t.copyDist
  outCap : s.cfg.outCap = t.cfg.outCap
  input : ∀ a, a < s.inLen.toNat → s.inByte a = t.inByte a
  output : ∀ a, a < s.outLen.toNat → s.outByte a = t.outByte a

end Sys2Proof.Machine
end

