-- ==== Sys2Proof/Certificates/Slice0/Obligations.lean ====
section
/-! DEFINITION. The statements for the provers. Each docstring names the rules of spec/ it formalises; OBLIGATIONS.json says the
rest. A result is written as the state before with the registers that change, so that every other register, IN, OUT, the
parameters and the turns to come are said to be unchanged. -/

open Sys2Proof Sys2Proof.Machine

/-! ## Encoding and decoding -/

/-- Decode and encode agree on tokens: where the stream holds the encoding of a well-formed token, the decoder reads that
token and stops right after it, whatever follows (R51 to R58). -/
def Obligations.TokenDecodesFromItsEncoding : Prop :=
  ∀ (c : Context) (i : Instr) (src : BitSource) (p : Nat), instrKind i = .token → wellFormed c i = true → src.total →
    src.holds p (encode c i).bits → decodeToken c src p = .ok i (p + (encode c i).bits.length)

/-- What the decoder reads as a token is a well-formed token whose encoding the stream holds there, and the position after it
is the position after those bits (R51 to R58). -/
def Obligations.DecodedTokenIsInTheStream : Prop :=
  ∀ (c : Context) (i : Instr) (src : BitSource) (p q : Nat), c.dictAccepted = true → src.total →
    decodeToken c src p = .ok i q →
      instrKind i = .token ∧ wellFormed c i = true ∧ src.holds p (encode c i).bits ∧ q = p + (encode c i).bits.length

/-- Decode and encode agree on the preamble forms (R50). -/
def Obligations.PreambleDecodesFromItsEncoding : Prop :=
  ∀ (c : Context) (i : Instr) (src : BitSource) (p : Nat), instrKind i = .preamble → src.total →
    src.holds p (encode c i).bits → decodePreamble src p = .ok i (p + 16)

/-- Decode and encode agree on host operations (R91). -/
def Obligations.HostOperationDecodesFromItsRequest : Prop :=
  ∀ (c : Context) (i : Instr), instrKind i = .host → wellFormed c i = true →
    ∃ r, encode c i = .host r ∧ decodeHost r = .ok i

/-- The code tables are complete prefix codes: any MAXLEN bits begin with exactly one code of the table, and Decode returns
its symbol and moves the cursor past exactly that code (R75). -/
def Obligations.ExactlyOneCodeMatches : Prop :=
  ∀ (t : CodeTable) (n : Nat), (t = lenTable ∧ n = 16 ∨ t = distTable ∧ n = 64 ∨ t = litTable ∧ n = 256) →
    ∀ (src : BitSource) (site : Site) (p : Nat), src.total → p + t.maxLen ≤ src.len →
      ∃ sym, sym < n ∧ decodeSymbol src t site p = .ok sym (p + t.codeLen sym) ∧ src.holds p (t.streamCode sym) ∧
        ∀ other, other < n → src.holds p (t.streamCode other) → other = sym

/-- There is no illegal token after a valid preamble: reading one gives a token, or TruncatedInput (R63 c). -/
def Obligations.TokenReadingOnlyRunsOutOfInput : Prop :=
  ∀ (c : Context) (src : BitSource) (p : Nat), c.dictAccepted = true → src.total → p ≤ src.len →
    (∃ i q, decodeToken c src p = .ok i q ∧ q ≤ src.len) ∨
      ∃ site q, decodeToken c src p = .error { kind := .truncatedInput, site := site, pos := q } ∧ p ≤ q ∧ q ≤ src.len ∧
        src.len < p + 30

/-- Token lengths (R64): LIT.RAW 9, LIT.CODED 5 to 14 and 5 only for byte 0x20, COPY 8 to 30, END 16. -/
def Obligations.TokenLengths : Prop :=
  ∀ c : Context, c.dictAccepted = true →
    (∀ v, (encode c (.litRaw v)).bits.length = 9) ∧
    (∀ v, 5 ≤ (encode c (.litCoded v)).bits.length ∧ (encode c (.litCoded v)).bits.length ≤ 14 ∧
      ((encode c (.litCoded v)).bits.length = 5 ↔ v = 0x20)) ∧
    (∀ i, (copyParts i).isSome → 8 ≤ (encode c i).bits.length ∧ (encode c i).bits.length ≤ 30) ∧
    (encode c .endMark).bits.length = 16

/-- Each length from 2 to 519 has exactly one length symbol and extra value (R56). -/
def Obligations.LengthsTileOnce : Prop :=
  ∀ len, 2 ≤ len → len ≤ 519 →
    ∃ s x, s < 16 ∧ x < 2 ^ lenExtra s ∧ copyLength s x = len ∧
      ∀ s' x', s' < 16 → x' < 2 ^ lenExtra s' → copyLength s' x' = len → s' = s ∧ x' = x

/-- The token of the notation `COPY len, dist` is a well-formed COPY whose assembled operands are len and dist (R56, R65). -/
def Obligations.CopyNotationDenotesItsOperands : Prop :=
  ∀ (c : Context) (len dist : Nat), c.dictAccepted = true → 2 ≤ len → len ≤ 518 → 1 ≤ dist →
    dist ≤ 2 ^ (6 + lowBitCount len c.dictBits.toNat) →
      ∃ i s x h l, copyForm c len dist = some i ∧ wellFormed c i = true ∧ copyParts i = some (s, x, h, l) ∧
        copyLength s x = len ∧ copyDistance (lowBitCount len c.dictBits.toNat) h l = dist

/-- A few words written out from the spec's encodings decode to what they stand for (R50 to R55; the token bits are those of
V-L2-14, V-L2-15, V-L2-16 and V-L2-25). A sanity statement. -/
def Obligations.SpecWordsDecode : Prop :=
  decodeTableWord 16 0x0400 = some (.preD4 0) ∧ decodeTableWord 16 0x0601 = some (.preD6 1) ∧
    decodeTableWord 16 0x0082 = some (.litRaw 0x41) ∧ decodeTableWord 8 0x1E = some (.litCoded 0x20) ∧
    decodeTableWord 16 0x003B = some (.copyS1 0 0) ∧ decodeTableWord 16 0x01FF = some (.copyS0 0 15) ∧
    decodeTableWord 16 0x03C9 = some (.copyS8 1 0 1) ∧ decodeTableWord 16 0xFF01 = some .endMark

/-! ## Reading bits -/

/-- ReadBits and PeekBits (R68, R69): the n bits at the cursor, the first one read being bit 0; TruncatedInput with the cursor
unmoved when fewer remain; ReadBits moves the cursor by n, PeekBits does not; BadWidth outside 1 to 16. -/
def Obligations.ReadBitsReadsTheNextBits : Prop :=
  ∀ (src : BitSource) (n : Nat) (site : Site) (p : Nat), src.total →
    (n = 0 ∨ 16 < n → readBits src n site p = .stuck .badWidth ∧ peekBits src n site p = .stuck .badWidth) ∧
    (1 ≤ n → n ≤ 16 → src.len < p + n →
      readBits src n site p = .error { kind := .truncatedInput, site := site, pos := p } ∧
      peekBits src n site p = .error { kind := .truncatedInput, site := site, pos := p }) ∧
    (1 ≤ n → n ≤ 16 → p + n ≤ src.len →
      ∃ v, readBits src n site p = .ok v (p + n) ∧ peekBits src n site p = .ok v p ∧ v < 2 ^ n ∧
        ∀ i, i < n → src.bit (p + i) = some (v.testBit i))

/-- `Remaining()` (R67): `8 * IN_LEN - (8 * CUR_BYTE + CUR_BIT)`, never negative during a run. -/
def Obligations.RemainingIsTheUnreadBits : Prop :=
  ∀ s : State, Inv s → s.runState = .busy →
    s.remaining + (8 * s.curByte.toNat + s.curBit.toNat) = 8 * s.inLen.toNat

/-- A byte of IN that nothing has written since reset has one unspecified value, the same for InRead and for the engine (R118). -/
def Obligations.UnwrittenInputReadsTheSame : Prop :=
  ∀ (s : State) (a : Nat), a < s.cfg.inCap → Memory.written? s.inMem a = none →
    exec (.inRead a) s = .next { s with hostResult := .byte (Config.inResetByte s.resetEpoch a) } ∧
      ∀ j, j < 8 → s.stream.bit (8 * a + j) = some ((Config.inResetByte s.resetEpoch a).getLsbD j)

/-- `Emit(v, site)` (R77): OutputOverflow when OUT is full; else the byte stands at `OUT_LEN` and `OUT_LEN` grows by one. -/
def Obligations.EmitAppendsOrOverflows : Prop :=
  ∀ (v : Byte) (site : Site) (s : State), s.outLen.toNat ≤ s.cfg.outCap → s.cfg.legal →
    (s.outLen.toNat = s.cfg.outCap →
      emit v site s = .raised { s with runState := .error, errCode := 4, errDetail := site.code, errPos := s.curByte,
                                       errBit := s.curBit }) ∧
    (s.outLen.toNat ≠ s.cfg.outCap →
      ∃ t, emit v site s = .ok t ∧ t.outLen.toNat = s.outLen.toNat + 1 ∧
        (∀ a, t.outByte a = if a = s.outLen.toNat then v else s.outByte a) ∧
        t = { s with outLen := t.outLen, outMem := t.outMem })

/-! ## The meanings of the stream's instructions -/

/-- PRE.D4, PRE.D5, PRE.D6 (R78): both bytes are kept, the run's choices are made, tokens follow. -/
def Obligations.PreambleIsAccepted : Prop :=
  ∀ (i : Instr) (f : BitVec 1) (d : Nat) (s : State),
    (i = .preD4 f ∧ d = 4 ∨ i = .preD5 f ∧ d = 5 ∨ i = .preD6 f ∧ d = 6) → s.cursor + 16 < 2 ^ 35 →
      ∃ t, exec i s = .next t ∧ t.cursor = s.cursor + 16 ∧
        t = { s with curByte := t.curByte, curBit := t.curBit, preFlag := f.setWidth 8, preDict := BitVec.ofNat 8 d,
                     litMode := f, dictBits := BitVec.ofNat 3 d, preValid := 1, phase := .token }

/-- LIT.RAW and LIT.CODED (R77, R80, R81): the byte stands at `OUT_LEN`, `OUT_LEN` grows by one, the cursor is past the token,
and nothing else changes, when OUT has room. -/
def Obligations.LiteralAppendsItsByte : Prop :=
  ∀ (i : Instr) (v : Byte) (n : Nat) (s : State),
    (i = .litRaw v ∧ n = 9 ∨ i = .litCoded v ∧ n = 1 + litTable.codeLen v.toNat) → s.cursor + n < 2 ^ 35 →
    s.outLen.toNat < s.cfg.outCap → s.cfg.outCap ≤ 4294967295 →
      ∃ t, exec i s = .next t ∧ t.cursor = s.cursor + n ∧ t.outLen.toNat = s.outLen.toNat + 1 ∧
        (∀ a, t.outByte a = if a = s.outLen.toNat then v else s.outByte a) ∧
        t = { s with curByte := t.curByte, curBit := t.curBit, outLen := t.outLen, outMem := t.outMem }

/-- A literal into a full OUT (R77, R104): OutputOverflow at site 10, the cursor past the token, no byte written. -/
def Obligations.LiteralIntoFullOutputIsAnError : Prop :=
  ∀ (i : Instr) (v : Byte) (n : Nat) (s : State),
    (i = .litRaw v ∧ n = 9 ∨ i = .litCoded v ∧ n = 1 + litTable.codeLen v.toNat) → s.cursor + n < 2 ^ 35 →
    s.outLen.toNat = s.cfg.outCap →
      ∃ t, exec i s = .next t ∧ t.cursor = s.cursor + n ∧
        t = { s with curByte := t.curByte, curBit := t.curBit, runState := .error, errCode := 4, errDetail := 10,
                     errPos := t.curByte, errBit := t.curBit }

/-- COPY.S0 to COPY.S15 (R82 to R84): a copy whose distance is not beyond the output starts, with the length and the distance
of R56; the cursor is past the token and nothing else changes. The length value 519 and a low field of no bits are the
two statements below. -/
def Obligations.CopyStartsWithItsOperands : Prop :=
  ∀ (i : Instr) (sym x h l k : Nat) (s : State), copyParts i = some (sym, x, h, l) → copyLength sym x ≠ 519 →
    k = lowBitCount (copyLength sym x) s.dictBits.toNat → 1 ≤ k → s.cursor + copyWidth sym h k < 2 ^ 35 →
    copyDistance k h l ≤ s.outLen.toNat →
      ∃ t, exec i s = .next t ∧ t.cursor = s.cursor + copyWidth sym h k ∧ t.copyRem.toNat = copyLength sym x ∧
        t.copyDist.toNat = copyDistance k h l ∧
        t = { s with curByte := t.curByte, curBit := t.curBit, copyRem := t.copyRem, copyDist := t.copyDist,
                     phase := .copy }

/-- COPY.S0 to COPY.S15 with a distance beyond the output (R84, R103): DistanceOutOfRange at site 9, the cursor past the token,
`COPY_REM`, `COPY_DIST` and `PHASE` as they were. -/
def Obligations.CopyBeyondTheOutputIsAnError : Prop :=
  ∀ (i : Instr) (sym x h l k : Nat) (s : State), copyParts i = some (sym, x, h, l) → copyLength sym x ≠ 519 →
    k = lowBitCount (copyLength sym x) s.dictBits.toNat → 1 ≤ k → s.cursor + copyWidth sym h k < 2 ^ 35 →
    s.outLen.toNat < copyDistance k h l →
      ∃ t, exec i s = .next t ∧ t.cursor = s.cursor + copyWidth sym h k ∧
        t = { s with curByte := t.curByte, curBit := t.curBit, runState := .error, errCode := 3, errDetail := 9,
                     errPos := t.curByte, errBit := t.curBit }

/-- The remaining COPY forms: length value 519 is the end marker whatever the distance fields (R55, R82), and a distance with
no low bits, which only `DICT_BITS` = 0 gives, is a read of no bits: BadWidth (R69). -/
def Obligations.CopyFormsThatStartNoCopy : Prop :=
  ∀ (i : Instr) (sym x h l : Nat) (s : State), copyParts i = some (sym, x, h, l) →
    (copyLength sym x = 519 → exec i s = exec .endMark s) ∧
      (copyLength sym x ≠ 519 → lowBitCount (copyLength sym x) s.dictBits.toNat = 0 → exec i s = .fault .badWidth)

/-- END (R86): the run is DONE, the cursor just after the 16 bits, nothing else changes. -/
def Obligations.EndFinishesTheRun : Prop :=
  ∀ s : State, s.cursor + 16 < 2 ^ 35 →
    ∃ t, exec .endMark s = .next t ∧ t.cursor = s.cursor + 16 ∧
      t = { s with curByte := t.curByte, curBit := t.curBit, runState := .done }

/-- A stream instruction that would move the cursor past its 35 bits is a write that does not fit: WidthOverflow (R12). -/
def Obligations.CursorBeyondItsWidthStops : Prop :=
  ∀ (i : Instr) (s : State), instrKind i ≠ .host → wellFormed s.context i = true →
    2 ^ 35 ≤ s.cursor + instrWidth s.dictBits.toNat i → exec i s = .fault .widthOverflow

/-! ## The copy in progress -/

/-- CopyByteStep (R85): the byte `COPY_DIST` back is appended, `COPY_REM` falls by one, the phase becomes TOKEN at the last
byte, and nothing else changes; into a full OUT it is OutputOverflow at site 11, `COPY_REM` and `PHASE` as they were. -/
def Obligations.CopyByteStepAppendsOrOverflows : Prop :=
  ∀ s : State, Inv s → s.runState = .busy → s.phase = .copy →
    (s.outLen.toNat < s.cfg.outCap →
      ∃ t, engineStep s = .next t ∧ t.outLen.toNat = s.outLen.toNat + 1 ∧ t.copyRem.toNat = s.copyRem.toNat - 1 ∧
        (∀ a, t.outByte a = if a = s.outLen.toNat then s.outByte (s.outLen.toNat - s.copyDist.toNat) else s.outByte a) ∧
        t = { s with outLen := t.outLen, outMem := t.outMem, copyRem := t.copyRem,
                     phase := if s.copyRem = 1 then .token else .copy }) ∧
    (s.outLen.toNat = s.cfg.outCap →
      engineStep s = .next { s with runState := .error, errCode := 4, errDetail := 11, errPos := s.curByte,
                                    errBit := s.curBit })

/-- Overlapping copy (R121, R85): left alone with room in OUT, a copy takes one step per byte, and byte i of it equals the
output byte `COPY_DIST` before it as that byte stands after the copy; the bytes before it are as they were. -/
def Obligations.CopyRepeatsWhatItWrites : Prop :=
  ∀ s : State, Inv s → s.runState = .busy → s.phase = .copy → s.agenda = [] →
    s.outLen.toNat + s.copyRem.toNat ≤ s.cfg.outCap →
      ∃ t, runsTo s.copyRem.toNat s t ∧ t.outLen.toNat = s.outLen.toNat + s.copyRem.toNat ∧
        (∀ i, i < s.copyRem.toNat →
          t.outByte (s.outLen.toNat + i) = t.outByte (s.outLen.toNat + i - s.copyDist.toNat)) ∧
        (∀ a, a < s.outLen.toNat ∨ s.outLen.toNat + s.copyRem.toNat ≤ a → t.outByte a = s.outByte a) ∧
        t = { s with outLen := t.outLen, outMem := t.outMem, copyRem := 0, phase := .token }

/-! ## The host operations -/

/-- START (R94): a RegWrite of CTRL with bit 0 set; from IDLE, DONE or ERROR every register but `IN_LEN` and `DICT_HINT` is
cleared and the run begins, IN and OUT as they were; during a run it is dropped. A value with bit 0 clear is no START. -/
def Obligations.StartBeginsARun : Prop :=
  ∀ (v : Word) (s : State),
    (v.getLsbD 0 = true → exec (.regWrite 0x00 v) s = exec (.start v) s) ∧
    (v.getLsbD 0 = true → s.runState ≠ .busy →
      exec (.start v) s = .next
        { s with curByte := 0, curBit := 0, outLen := 0, litMode := 0, dictBits := 0, preValid := 0, preFlag := 0,
                 preDict := 0, copyRem := 0, copyDist := 0, errCode := 0, errDetail := 0, errPos := 0, errBit := 0,
                 phase := .pre, runState := .busy, hostResult := .nothing }) ∧
    (v.getLsbD 0 = true → s.runState = .busy → exec (.start v) s = .next { s with hostResult := .nothing }) ∧
    (v.getLsbD 0 = false → exec (.start v) s = .next { s with hostResult := .nothing })

/-- The three rules of CTRL (R29): a write with bit 0 set is the START request, one with bit 0 clear has no effect, a read
returns 0. -/
def Obligations.ControlRegister : Prop :=
  ∀ (v : Word) (s : State),
    (v.getLsbD 0 = true → exec (.regWrite 0x00 v) s = exec (.start v) s) ∧
    (v.getLsbD 0 = false → exec (.regWrite 0x00 v) s = .next { s with hostResult := .nothing }) ∧
    exec (.regRead 0x00) s = .next { s with hostResult := .word 0 }

/-- STATUS (R30): a read returns the fields at their places, a write is ignored. -/
def Obligations.StatusRegister : Prop :=
  ∀ (v : Word) (s : State),
    (∃ w : Word, exec (.regRead 0x04) s = .next { s with hostResult := .word w } ∧
      w.toNat = s.runState.code.toNat + s.phase.code.toNat * 2 ^ 2 + s.litMode.toNat * 2 ^ 4 + s.preValid.toNat * 2 ^ 5
        + s.dictBits.toNat * 2 ^ 8 + s.errCode.toNat * 2 ^ 12 + s.errDetail.toNat * 2 ^ 16) ∧
    exec (.regWrite 0x04 v) s = .next { s with hostResult := .nothing }

/-- RegRead (R92): the value a read returns at every multiple of 4; CTRL and offsets with no register read 0. At any other
offset it is refused (R98). -/
def Obligations.RegisterReads : Prop :=
  ∀ (off : Nat) (s : State),
    (off % 4 = 0 →
      ∃ w : Word, exec (.regRead off) s = .next { s with hostResult := .word w } ∧
        w.toNat =
          if off = 0x04 then s.runState.code.toNat + s.phase.code.toNat * 2 ^ 2 + s.litMode.toNat * 2 ^ 4
            + s.preValid.toNat * 2 ^ 5 + s.dictBits.toNat * 2 ^ 8 + s.errCode.toNat * 2 ^ 12 + s.errDetail.toNat * 2 ^ 16
          else if off = 0x08 then s.inLen.toNat else if off = 0x0C then s.curByte.toNat
          else if off = 0x10 then s.curBit.toNat else if off = 0x14 then s.outLen.toNat
          else if off = 0x18 then s.errPos.toNat else if off = 0x1C then s.errBit.toNat
          else if off = 0x20 then s.preFlag.toNat + s.preDict.toNat * 2 ^ 8 else if off = 0x24 then s.copyRem.toNat
          else if off = 0x28 then s.copyDist.toNat else if off = 0x2C then s.dictHint.toNat else 0) ∧
    (off % 4 ≠ 0 → exec (.regRead off) s = .refused .regMisaligned)

/-- RegWrite at every multiple of 4 (R93): CTRL with bit 0 set is START; `IN_LEN` takes min(v, `IN_CAP`) and `DICT_HINT` takes
v[7:0] when no run is in progress; every other write has no effect. At any other offset it is refused (R98). -/
def Obligations.RegisterWrites : Prop :=
  ∀ (off : Nat) (v : Word) (s : State),
    (off % 4 = 0 →
      if off = 0x00 ∧ v.getLsbD 0 = true then exec (.regWrite off v) s = exec (.start v) s
      else
        ∃ t, exec (.regWrite off v) s = .next t ∧
          t.inLen.toNat =
            (if off = 0x08 ∧ s.runState ≠ .busy then min v.toNat s.cfg.inCap else s.inLen.toNat) ∧
          t.dictHint.toNat = (if off = 0x2C ∧ s.runState ≠ .busy then v.toNat % 256 else s.dictHint.toNat) ∧
          t = { s with inLen := t.inLen, dictHint := t.dictHint, hostResult := .nothing }) ∧
    (off % 4 ≠ 0 → exec (.regWrite off v) s = .refused .regMisaligned)

/-- InWrite (R95): the byte is stored and no other byte of IN changes when no run is in progress; it is dropped during one; an
address at or beyond `IN_CAP` is refused (R98). -/
def Obligations.InWriteStoresOneByte : Prop :=
  ∀ (a : Nat) (b : Byte) (s : State),
    (a < s.cfg.inCap → s.runState ≠ .busy →
      ∃ t, exec (.inWrite a b) s = .next t ∧ (∀ x, t.inByte x = if x = a then b else s.inByte x) ∧
        t = { s with inMem := t.inMem, hostResult := .nothing }) ∧
    (a < s.cfg.inCap → s.runState = .busy → exec (.inWrite a b) s = .next { s with hostResult := .nothing }) ∧
    (s.cfg.inCap ≤ a → exec (.inWrite a b) s = .refused .inOutOfRange)

/-- InRead and OutRead (R96, R97): the byte is returned and nothing changes, in every state; beyond the capacity they are
refused (R98). -/
def Obligations.BufferReadsReturnTheByte : Prop :=
  ∀ (a : Nat) (s : State),
    (a < s.cfg.inCap → exec (.inRead a) s = .next { s with hostResult := .byte (s.inByte a) }) ∧
    (s.cfg.inCap ≤ a → exec (.inRead a) s = .refused .inOutOfRange) ∧
    (a < s.cfg.outCap → exec (.outRead a) s = .next { s with hostResult := .byte (s.outByte a) }) ∧
    (s.cfg.outCap ≤ a → exec (.outRead a) s = .refused .outOutOfRange)

/-- Exactly these host accesses are refused (R98, with the widths of R91 and the ROM of R40, log 10); every other one answers a
next state. -/
def Obligations.RefusedHostAccesses : Prop :=
  ∀ (r : HostRequest) (rest : List Turn) (s : State), s.agenda = .host r :: rest →
    ((∃ e, step s = .refused e) ↔
      (r.space = .reg ∧ (r.bytes ≠ 4 ∨ r.addr % 4 ≠ 0)) ∨ (r.space = .input ∧ (r.bytes ≠ 1 ∨ s.cfg.inCap ≤ r.addr)) ∨
        (r.space = .output ∧ (r.write = true ∨ r.bytes ≠ 1 ∨ s.cfg.outCap ≤ r.addr)) ∨ r.space = .rom) ∧
    ∀ f, step s ≠ .fault f

/-- Host writes during a run are dropped (R122, R93 to R95): any write that is an operation of the block changes nothing. -/
def Obligations.WritesDuringARunAreDropped : Prop :=
  ∀ (r : HostRequest) (rest : List Turn) (i : Instr) (s : State), s.runState = .busy → s.agenda = .host r :: rest →
    r.write = true → decodeHost r = .ok i → (r.space = .input → r.addr < s.cfg.inCap) →
      step s = .next { s with agenda := rest, hostResult := .nothing }

/-- A host read has no side effect (R44): only what it returned differs. -/
def Obligations.HostReadsChangeNothing : Prop :=
  ∀ (r : HostRequest) (rest : List Turn) (s t : State), s.agenda = .host r :: rest → r.write = false →
    step s = .next t → t = { s with agenda := rest, hostResult := t.hostResult }

/-- The host's sequence for one decompression (R119): from any state with no run in progress, its turns leave the block in IN,
`IN_LEN` at its length and a run about to read its preamble; OUT and `DICT_HINT` are as they were. -/
def Obligations.BootSequenceLoadsTheBlock : Prop :=
  ∀ (block : List Byte) (s : State), s.runState ≠ .busy → block.length ≤ s.cfg.inCap → s.cfg.legal →
    s.agenda = bootTurns block →
      ∃ t, runsTo (block.length + 2) s t ∧ t.agenda = [] ∧ t.runState = .busy ∧ t.phase = .pre ∧ t.cursor = 0 ∧
        t.outLen = 0 ∧ t.errCode = 0 ∧ t.copyRem = 0 ∧ t.preValid = 0 ∧ t.inLen.toNat = block.length ∧
        (∀ a, t.inByte a = (block[a]?).getD (s.inByte a)) ∧ t.outMem = s.outMem ∧ t.dictHint = s.dictHint ∧
        t.cfg = s.cfg ∧ t.resetEpoch = s.resetEpoch

/-! ## The step -/

/-- A step is the engine's step when the engine moves: with no turn to come, or with its turn first (R9, R76; log 1, log 2). -/
def Obligations.StepIsTheEnginesStep : Prop :=
  ∀ s : State, (s.agenda = [] → step s = engineStep s) ∧
    ∀ rest, s.agenda = .engine :: rest → step s = engineStep { s with agenda := rest }

/-- A step runs the token that the bits at the cursor decode to, when the engine moves (R76, R79; log 1, log 2). -/
def Obligations.StepRunsTheDecodedToken : Prop :=
  ∀ (s : State) (i : Instr) (q : Nat), s.runState = .busy → s.phase = .token →
    decodeToken s.context s.stream s.cursor = .ok i q →
      (s.agenda = [] → step s = exec i s) ∧
        ∀ rest, s.agenda = .engine :: rest → step s = exec i { s with agenda := rest }

/-- A step runs the preamble that the bits at the cursor decode to, when the engine moves (R76, R78; log 1, log 2). -/
def Obligations.StepRunsTheDecodedPreamble : Prop :=
  ∀ (s : State) (i : Instr) (q : Nat), s.runState = .busy → s.phase = .pre →
    decodePreamble s.stream s.cursor = .ok i q →
      (s.agenda = [] → step s = exec i s) ∧
        ∀ rest, s.agenda = .engine :: rest → step s = exec i { s with agenda := rest }

/-- A step runs the operation that the host's request is, when the host moves (R9, R91; log 1). -/
def Obligations.StepRunsTheHostOperation : Prop :=
  ∀ (s : State) (r : HostRequest) (rest : List Turn) (i : Instr), s.agenda = .host r :: rest → decodeHost r = .ok i →
    step s = exec i { s with agenda := rest }

/-- The reset event (R116, R37): every register is 0 in any state, the parameters stay; the new unspecified contents of IN and
OUT and the turns to come are the model's (log 5, log 13). -/
def Obligations.ResetEventClearsEveryRegister : Prop :=
  ∀ (s : State) (rest : List Turn), s.agenda = .reset :: rest →
    step s = .next
      { runState := .idle, phase := .pre, litMode := 0, preValid := 0, dictBits := 0, errCode := 0, errDetail := 0,
        inLen := 0, curByte := 0, curBit := 0, outLen := 0, errPos := 0, errBit := 0, preFlag := 0, preDict := 0,
        copyRem := 0, copyDist := 0, dictHint := 0, inMem := [], outMem := [], cfg := s.cfg, agenda := rest,
        hostResult := .nothing, resetEpoch := s.resetEpoch + 1 }

/-- When `STATE` is IDLE, DONE or ERROR the engine has no step, every register keeping its value, and only START or reset
changes the run state again (R88). -/
def Obligations.StoppedUntilStartOrReset : Prop :=
  ∀ s : State, s.runState ≠ .busy →
    (s.agenda = [] → step s = .next s) ∧
    (∀ rest, s.agenda = .engine :: rest → step s = .next { s with agenda := rest }) ∧
    ∀ t, step s = .next t → t.runState ≠ s.runState →
      (∃ rest, s.agenda = .reset :: rest ∧ t.runState = .idle) ∨
        ∃ r rest, s.agenda = .host r :: rest ∧ r.space = .reg ∧ r.write = true ∧ r.bytes = 4 ∧ r.addr = 0 ∧
          r.data.getLsbD 0 = true ∧ t.runState = .busy

/-- The preamble step, whole (R78, R108): with f and d the first two bytes, the checks in order; each error keeps the bytes read
so far, leaves the cursor where the failed read was and enters the error. -/
def Obligations.PreambleStepInOrder : Prop :=
  ∀ s : State, Inv s → s.runState = .busy → s.phase = .pre →
    engineStep s = .next (
      if s.inLen.toNat = 0 then
        { s with runState := .error, errCode := 1, errDetail := 1, errPos := 0, errBit := 0 }
      else if 1 < (s.inByte 0).toNat then
        { s with preFlag := s.inByte 0, curByte := 1, curBit := 0, runState := .error, errCode := 2, errDetail := 1,
                 errPos := 1, errBit := 0 }
      else if s.inLen.toNat = 1 then
        { s with preFlag := s.inByte 0, curByte := 1, curBit := 0, runState := .error, errCode := 1, errDetail := 2,
                 errPos := 1, errBit := 0 }
      else if (s.inByte 1).toNat < 4 ∨ 6 < (s.inByte 1).toNat then
        { s with preFlag := s.inByte 0, preDict := s.inByte 1, curByte := 2, curBit := 0, runState := .error,
                 errCode := 2, errDetail := 2, errPos := 2, errBit := 0 }
      else
        { s with preFlag := s.inByte 0, preDict := s.inByte 1, curByte := 2, curBit := 0,
                 litMode := (s.inByte 0).setWidth 1, dictBits := (s.inByte 1).setWidth 3, preValid := 1,
                 phase := .token })

/-- Where input runs out inside a token, and which site says so (R105 sites 3 to 8, R101): the control bit at the end of the
input; a literal or a length code just after the control bit; the length extra bits just after the length code; the distance
code just after the length field; the distance low bits just after the distance code. -/
def Obligations.TruncationSites : Prop :=
  ∀ (c : Context) (src : BitSource) (p : Nat) (e : StreamError), c.dictAccepted = true → src.total → p ≤ src.len →
    decodeToken c src p = .error e →
      e.kind = .truncatedInput ∧ e.preFlag = none ∧ e.preDict = none ∧
        (e.site = .controlBit ∧ e.pos = p ∧ p = src.len ∨
          e.site = .literal ∧ src.holds p [false] ∧ e.pos = p + 1 ∨
          e.site = .lengthCode ∧ src.holds p [true] ∧ e.pos = p + 1 ∨
          ∃ s, s < 16 ∧ src.holds p (true :: lenTable.streamCode s) ∧
            (e.site = .lengthExtra ∧ e.pos = p + 1 + lenTable.codeLen s ∧ src.len < e.pos + lenExtra s ∨
              e.site = .distanceCode ∧ e.pos = p + 1 + lenTable.codeLen s + lenExtra s ∨
              ∃ h, h < 64 ∧ src.holds (p + 1 + lenTable.codeLen s + lenExtra s) (distTable.streamCode h) ∧
                e.site = .distanceLow ∧ e.pos = p + 1 + lenTable.codeLen s + lenExtra s + distTable.codeLen h ∧
                src.len < e.pos + (if s = 1 then 2 else c.dictBits.toNat)))

/-- Input that runs out inside a token (R101, R106, R87): the error registers hold TruncatedInput, the site and the cursor, which
stands where the failed read was; everything else is as it was. -/
def Obligations.TruncatedTokenEntersTheError : Prop :=
  ∀ (s : State) (e : StreamError), Inv s → s.runState = .busy → s.phase = .token →
    decodeToken s.context s.stream s.cursor = .error e →
      ∃ t, engineStep s = .next t ∧ t.cursor = e.pos ∧
        t = { s with curByte := t.curByte, curBit := t.curBit, runState := .error, errCode := 1,
                     errDetail := e.site.code, errPos := t.curByte, errBit := t.curBit }

/-- The cursor never decreases and never passes the end of the input in an engine step, and a token moves it by 5 to 30 bits
(R15, R70, R64). -/
def Obligations.CursorOnlyMovesForward : Prop :=
  ∀ s t : State, Inv s → s.runState = .busy → engineStep s = .next t →
    s.cursor ≤ t.cursor ∧ t.cursor ≤ 8 * s.inLen.toNat ∧
      (s.phase = .token → t.runState ≠ .error → s.cursor + 5 ≤ t.cursor ∧ t.cursor ≤ s.cursor + 30)

/-- The engine's frame (R24, R27, R38, R39): a step of the engine changes no byte of IN, no host register, and no byte of OUT
but the one at `OUT_LEN`; output already emitted is never rewritten and `OUT_LEN` grows by at most one (R36 g). -/
def Obligations.EngineAppendsAndNothingElse : Prop :=
  ∀ s t : State, engineStep s = .next t →
    t.inMem = s.inMem ∧ t.inLen = s.inLen ∧ t.dictHint = s.dictHint ∧ t.cfg = s.cfg ∧ t.agenda = s.agenda ∧
      t.hostResult = s.hostResult ∧ t.resetEpoch = s.resetEpoch ∧
      (t.outLen.toNat = s.outLen.toNat ∨ t.outLen.toNat = s.outLen.toNat + 1) ∧
      ∀ a, a ≠ s.outLen.toNat → t.outByte a = s.outByte a

/-- The engine's step is the spec's pseudocode (R76 to R86 over R69 and R71): reading the whole token and then running its
meaning gives the state that the pseudocode reaches read by read. -/
def Obligations.EngineStepIsThePseudocode : Prop :=
  ∀ s : State, Inv s → s.runState = .busy → engineStep s = (pseudoEngineStep s).toOutcome

/-! ## Whole runs -/

/-- The invariant holds right after reset, for every choice of the parameters (R36, R37; `State.reset` takes those of log 4). -/
def Obligations.InvariantHoldsAtReset : Prop :=
  Inv State.reset ∧ ∀ c : Config, c.legal → Inv (State.resetWith c)

/-- The invariant is kept by every step, of the engine, of the host or of reset (R36, with (a) while a run is in progress,
log 7). -/
def Obligations.EveryStepKeepsTheInvariant : Prop :=
  ∀ s t : State, Inv s → step s = .next t → Inv t

/-- No model fault is reachable and only a host access is ever refused (R109, R98): from a state that meets the invariant a step
answers a next state, unless the host makes an access that is no operation. -/
def Obligations.NoStepFaults : Prop :=
  ∀ s : State, Inv s →
    (∃ t, step s = .next t) ∨ ∃ r rest e, s.agenda = .host r :: rest ∧ step s = .refused e

/-- R36 (a) read over every state, not only during a run, is not kept: after a run the host may write an `IN_LEN` below the
cursor (R24, R93, P4 step 7; log 7). -/
def Obligations.InLenCanFallBelowTheCursorAfterARun : Prop :=
  ∃ s t : State, Inv s ∧ s.cursor ≤ 8 * s.inLen.toNat ∧ step s = .next t ∧ Inv t ∧ 8 * t.inLen.toNat < t.cursor

/-- Every run ends, within 1 + 519 * 8 * IN_LEN engine steps, in DONE or ERROR (R89, R10). -/
def Obligations.EveryRunEnds : Prop :=
  ∀ s : State, Inv s → s.runState = .busy → s.phase = .pre → s.agenda = [] →
    ∃ n t, n ≤ 1 + 519 * 8 * s.inLen.toNat ∧ runsTo n s t ∧ (t.runState = .done ∨ t.runState = .error)

/-- A run is a function of the input bytes below `IN_LEN`, `IN_LEN` and `OUT_CAP` (R89, R118): two states that differ only in
what else they hold go on to such states, and show the same. -/
def Obligations.RunDependsOnTheInputAlone : Prop :=
  ∀ s t s' : State, Inv s → Inv t → SameRun s t → s.agenda = [] → t.agenda = [] → step s = .next s' →
    ∃ t', step t = .next t' ∧ SameRun s' t' ∧ s'.observe = t'.observe

/-- Decompression undoes the notation (V-L1-1 over R49 to R65, R76 to R90): a run over the bytes of a stream of legal forms and
END, whatever stands after them in IN, ends DONE with exactly the bytes the forms denote, when OUT has room for them. -/
def Obligations.DecompressionGivesTheDenotedBytes : Prop :=
  ∀ (s : State) (pad : Bool) (f d : Nat) (forms : List StreamForm) (out : List Byte), f ≤ 1 → 4 ≤ d → d ≤ 6 →
    denote { litMode := BitVec.ofNat 1 f, dictBits := BitVec.ofNat 3 d, cfg := s.cfg } forms [] = some out →
    Inv s → s.runState = .busy → s.phase = .pre → s.agenda = [] → s.outLen = 0 →
    (streamBytes pad f d (forms ++ [.finish])).length ≤ s.inLen.toNat →
    (∀ a, (ha : a < (streamBytes pad f d (forms ++ [.finish])).length) →
      s.inByte a = (streamBytes pad f d (forms ++ [.finish]))[a]) →
    out.length ≤ s.cfg.outCap →
      ∃ n t, runsTo n s t ∧ t.runState = .done ∧ t.outLen.toNat = out.length ∧
        ∀ a, (ha : a < out.length) → t.outByte a = out[a]
end

