-- ==== Sys2Proof/Laws/BitCursor.lean ====
section
/-! SUPPORT. What the bit cursor and the code match can do: the value of a read as the bits it covers, when a read fails and
where it leaves the cursor (40_bit_cursor.md R66 to R70), and what a code match depends on (41_code_tables.md R71). -/

namespace Sys2Proof.Machine

open Sys2Proof

/-- The number whose bit i is the i-th bit of the list (20_memory.md R42). -/
def bitsValue (bits : List Bool) : Nat := bits.foldr (fun b v => b.toNat + 2 * v) 0

@[simp] theorem bitsValue_nil : bitsValue [] = 0 := rfl

@[simp] theorem bitsValue_cons (b : Bool) (bits : List Bool) : bitsValue (b :: bits) = b.toNat + 2 * bitsValue bits := rfl

theorem bitsValue_lt (bits : List Bool) : bitsValue bits < 2 ^ bits.length := by
  induction bits with
  | nil => simp
  | cons b bits ih =>
    have : b.toNat ≤ 1 := Bool.toNat_le b
    simp only [bitsValue_cons, List.length_cons, pow_succ]
    omega

theorem testBit_bitsValue (bits : List Bool) (i : Nat) : (bitsValue bits).testBit i = bits.getD i false := by
  induction bits generalizing i with
  | nil => simp
  | cons b bits ih =>
    cases i with
    | zero => cases b <;> simp [Nat.testBit_zero, Nat.add_mod]
    | succ i =>
      rw [Nat.testBit_succ]
      have : (bitsValue (b :: bits)) / 2 = bitsValue bits := by
        cases b
        · simp
        · simp; omega
      rw [this, ih]
      simp

@[simp] theorem fieldBits_length (n v : Nat) : (fieldBits n v).length = n := by simp [fieldBits]

theorem bitsValue_fieldBits (n v : Nat) (h : v < 2 ^ n) : bitsValue (fieldBits n v) = v := by
  apply Nat.eq_of_testBit_eq
  intro i
  rw [testBit_bitsValue]
  by_cases hi : i < n
  · simp [fieldBits, List.getD, hi]
  · have : v < 2 ^ i := lt_of_lt_of_le h (Nat.pow_le_pow_right (by omega) (by omega))
    simp [fieldBits, List.getD, hi, Nat.testBit_lt_two_pow this]

/-! ## A source that holds known bits -/

theorem BitSource.holds_cons {src : BitSource} {p : Nat} {b : Bool} {bits : List Bool}
    (h : src.holds p (b :: bits)) : src.bit p = some b ∧ p < src.len ∧ src.holds (p + 1) bits := by
  obtain ⟨hl, hb⟩ := h
  simp only [List.length_cons] at hl
  refine ⟨hb 0 (Nat.succ_pos _), by omega, by omega, fun j hj => ?_⟩
  have := hb (j + 1) (by simpa using hj)
  rw [show p + (j + 1) = p + 1 + j by omega] at this
  simpa using this

theorem BitSource.holds_append {src : BitSource} {p : Nat} {as bs : List Bool} (h : src.holds p (as ++ bs)) :
    src.holds p as ∧ src.holds (p + as.length) bs := by
  obtain ⟨hl, hb⟩ := h
  simp only [List.length_append] at hl
  refine ⟨⟨by omega, fun j hj => ?_⟩, ⟨by omega, fun j hj => ?_⟩⟩
  · rw [hb j (by simp; omega), List.getElem_append_left hj]
  · rw [Nat.add_assoc, hb (as.length + j) (by simp; omega), List.getElem_append_right (by omega)]
    simp

theorem gatherBits_holds {src : BitSource} {bits : List Bool} {p : Nat} (h : src.holds p bits) :
    gatherBits src bits.length p = .ok (bitsValue bits) := by
  induction bits generalizing p with
  | nil => rfl
  | cons b bits ih =>
    obtain ⟨hb, hp, hr⟩ := BitSource.holds_cons h
    simp [gatherBits, bitAt, hb, hp, ih hr]

/-- ReadBits where the stream holds the field (40_bit_cursor.md R69). -/
theorem readBits_holds {src : BitSource} {bits : List Bool} {p : Nat} (site : Site) (h : src.holds p bits)
    (h0 : bits.length ≠ 0) (h16 : bits.length ≤ 16) :
    readBits src bits.length site p = .ok (bitsValue bits) (p + bits.length) := by
  have := h.1
  have hrem : ¬ remainingAt src p < bits.length := by unfold remainingAt; omega
  have hw : ¬ (bits.length = 0 ∨ 16 < bits.length) := by omega
  simp only [readBits, peekBits, if_neg hw, if_neg hrem, gatherBits_holds h, Read.bind]

/-- A raw field of `n` bits (30_encoding.md R56, 40_bit_cursor.md R69). -/
theorem readBits_field {src : BitSource} {n v p : Nat} (site : Site) (h : src.holds p (fieldBits n v)) (hv : v < 2 ^ n)
    (h0 : n ≠ 0) (h16 : n ≤ 16) : readBits src n site p = .ok v (p + n) := by
  have := readBits_holds site h (by simpa using h0) (by simpa using h16)
  simpa [bitsValue_fieldBits n v hv] using this

/-! ## What a read can answer -/

/-- The bits of a total source from `p` on. -/
def BitSource.take (src : BitSource) (p n : Nat) : List Bool := (List.range n).map fun j => (src.bit (p + j)).getD false

@[simp] theorem BitSource.take_length (src : BitSource) (p n : Nat) : (src.take p n).length = n := by
  simp [BitSource.take]

theorem BitSource.holds_take {src : BitSource} (ht : src.total) {p n : Nat} (h : p + n ≤ src.len) :
    src.holds p (src.take p n) := by
  refine ⟨by simpa using h, fun j hj => ?_⟩
  simp only [BitSource.take_length] at hj
  obtain ⟨b, hb⟩ := Option.isSome_iff_exists.mp (ht (p + j) (by omega))
  simp [BitSource.take, hb]

/-- ReadBits over a total source: the value of the n bits when they are there, else TruncatedInput with the cursor where it
was (40_bit_cursor.md R69). -/
theorem readBits_total {src : BitSource} (ht : src.total) (n : Nat) (site : Site) (p : Nat) (h0 : n ≠ 0) (h16 : n ≤ 16) :
    readBits src n site p =
      if src.len - p < n then .error { kind := .truncatedInput, site := site, pos := p }
      else .ok (bitsValue (src.take p n)) (p + n) := by
  split
  · rename_i h
    have hw : ¬ (n = 0 ∨ 16 < n) := by omega
    simp [readBits, peekBits, remainingAt, h, hw, Read.bind]
  · rename_i h
    have := readBits_holds site (src.holds_take ht (p := p) (n := n) (by omega)) (by simpa using h0) (by simpa using h16)
    simpa using this

theorem gatherBits_total {src : BitSource} (ht : src.total) {n p : Nat} (h : p + n ≤ src.len) :
    gatherBits src n p = .ok (bitsValue (src.take p n)) := by
  simpa using gatherBits_holds (src.holds_take ht h)

/-! ## The code match -/

/-- A match depends on no bit beyond the code it finds. -/
theorem matchCode_congr (symbols : List Nat) {m w m' w' : Nat} (counts : List Nat) (n code first index sym k : Nat)
    (h : matchCode symbols m w counts n code first index = .found sym k) (hn : 1 ≤ n) (hm : k ≤ m')
    (hw : ∀ j, j < k → w.testBit j = w'.testBit j) :
    matchCode symbols m' w' counts n code first index = .found sym k := by
  induction counts generalizing n code first index with
  | nil => simp [matchCode] at h
  | cons c counts ih =>
    have hk : n ≤ k := by
      clear ih hw
      have key : ∀ (cs : List Nat) (n code first index : Nat),
          matchCode symbols m w cs n code first index = .found sym k → n ≤ k := by
        intro cs
        induction cs with
        | nil => intro n code first index h; simp [matchCode] at h
        | cons c cs ih =>
          intro n code first index h
          simp only [matchCode] at h
          split at h
          · cases h
          · split at h
            · split at h
              · cases h; omega
              · cases h
            · have := ih _ _ _ _ h
              omega
      exact key _ _ _ _ _ h
    simp only [matchCode] at h ⊢
    rw [if_neg (by omega), ← hw (n - 1) (by omega)]
    split at h
    · cases h
    · split at h
      · rename_i hc
        rw [if_pos hc]
        exact h
      · rename_i hc
        rw [if_neg hc]
        exact ih _ _ _ _ h (by omega)

/-- A match is at a code length from the first one tried up to the number of bits. -/
theorem matchCode_le (symbols : List Nat) (m w : Nat) (counts : List Nat) (n code first index sym k : Nat)
    (h : matchCode symbols m w counts n code first index = .found sym k) : n ≤ k ∧ k ≤ m := by
  induction counts generalizing n code first index with
  | nil => simp [matchCode] at h
  | cons c counts ih =>
    simp only [matchCode] at h
    split at h
    · cases h
    · split at h
      · split at h
        · cases h; omega
        · cases h
      · have := ih _ _ _ _ h
        omega

/-- The counts assign every code of every length: the code is complete (30_encoding.md R57). -/
def codeCloses : List Nat → Nat → Nat → Bool
  | [], n, first => first == 2 ^ n
  | c :: counts, n, first => codeCloses counts (n + 1) ((first + c) <<< 1)

theorem or_invertedBit (code : Nat) (b : Bool) (h : code % 2 = 0) :
    code ||| (1 ^^^ b.toNat) = code + (if b then 0 else 1) := by
  cases b with
  | true => simp
  | false =>
    have : code ||| 1 = code + 1 := by
      obtain ⟨c, rfl⟩ : ∃ c, code = 2 * c := ⟨code / 2, by omega⟩
      apply Nat.eq_of_testBit_eq
      intro i
      cases i with
      | zero => simp [Nat.testBit_zero, Nat.add_mod]
      | succ i =>
        rw [Nat.testBit_or, Nat.testBit_succ, Nat.testBit_succ, Nat.testBit_succ]
        have h1 : 2 * c / 2 = c := by omega
        have h2 : (2 * c + 1) / 2 = c := by omega
        simp [h1, h2]
    simpa using this

/-- A complete table has no miss (41_code_tables.md R75). -/
theorem matchCode_ne_miss (symbols : List Nat) (m w : Nat) (counts : List Nat) (n code first index : Nat) (h1 : 1 ≤ n)
    (hfirst : first ≤ code) (hcode : code < 2 ^ n) (heven : code % 2 = 0) (hclose : codeCloses counts n first = true)
    (hsym : index + counts.sum ≤ symbols.length) : matchCode symbols m w counts n code first index ≠ .miss := by
  induction counts generalizing n code first index with
  | nil =>
    simp only [codeCloses, beq_iff_eq] at hclose
    omega
  | cons c counts ih =>
    simp only [codeCloses] at hclose
    simp only [List.sum_cons] at hsym
    simp only [matchCode]
    rw [or_invertedBit _ _ heven]
    split
    · simp
    · have hb : (if w.testBit (n - 1) = true then 0 else 1) ≤ 1 := by split <;> omega
      generalize hbit : (if w.testBit (n - 1) = true then 0 else 1) = b at hb ⊢
      have hpow : 2 ^ n = 2 * 2 ^ (n - 1) := by
        rw [← pow_succ', Nat.sub_add_cancel h1]
      split
      · rename_i hlt
        have : index + (code + b) - first < symbols.length := by omega
        simp [List.getElem?_eq_getElem this]
      · rename_i hlt
        refine ih (n + 1) _ _ _ (by omega) ?_ ?_ ?_ hclose (by omega)
        · simp only [Nat.shiftLeft_eq, pow_one]; omega
        · simp only [Nat.shiftLeft_eq, pow_succ]; omega
        · simp only [Nat.shiftLeft_eq, pow_one]; omega

/-- With all bits of the longest code there, a match never runs short. -/
theorem matchCode_ne_short (symbols : List Nat) (m w : Nat) (counts : List Nat) (n code first index : Nat)
    (hm : n + counts.length ≤ m + 1) : matchCode symbols m w counts n code first index ≠ .short := by
  induction counts generalizing n code first index with
  | nil => simp [matchCode]
  | cons c counts ih =>
    simp only [List.length_cons] at hm
    simp only [matchCode]
    rw [if_neg (by omega)]
    split
    · split <;> simp
    · exact ih _ _ _ _ (by omega)

/-- Where the i-th symbol of a table stands: its code length and its canonical code (30_encoding.md R57). -/
def entryAt : List Nat → (n first index i : Nat) → Option (Nat × Nat)
  | [], _, _, _, _ => none
  | c :: counts, n, first, index, i =>
    if i < index + c then some (n, first + i - index) else entryAt counts (n + 1) ((first + c) <<< 1) (index + c) i

/-- The code read so far after the bits of `w` up to code length `k`, from length `n` on (41_code_tables.md R71). -/
def codeRead (w : Nat) : (fuel n code : Nat) → Nat
  | 0, _, code => code
  | 1, n, code => code ||| (1 ^^^ (w.testBit (n - 1)).toNat)
  | fuel + 1, n, code => codeRead w fuel (n + 1) ((code ||| (1 ^^^ (w.testBit (n - 1)).toNat)) <<< 1)

theorem testBit_or_inverted (code : Nat) (b : Bool) (h : code % 2 = 0) (i : Nat) :
    (code ||| (1 ^^^ b.toNat)).testBit i = if i = 0 then !b else code.testBit i := by
  rw [Nat.testBit_or]
  cases i with
  | zero => cases b <;> simp [Nat.testBit_zero, h]
  | succ i =>
    have : (1 ^^^ b.toNat).testBit (i + 1) = false := by cases b <;> simp [Nat.testBit_succ]
    simp [this]

/-- The bits of the code read: the stream bits inverted, the first one read the most significant (30_encoding.md R58). -/
theorem codeRead_testBit (w fuel n code : Nat) (heven : code % 2 = 0) (hn : 1 ≤ n) :
    (∀ j, j < fuel + 1 → (codeRead w (fuel + 1) n code).testBit (fuel - j) = !w.testBit (n - 1 + j)) ∧
      ∀ i, 1 ≤ i → (codeRead w (fuel + 1) n code).testBit (fuel + i) = code.testBit i := by
  induction fuel generalizing n code with
  | zero =>
    refine ⟨fun j hj => ?_, fun i hi => ?_⟩
    · obtain rfl : j = 0 := by omega
      have h0 : codeRead w (0 + 1) n code = code ||| (1 ^^^ (w.testBit (n - 1)).toNat) := rfl
      rw [h0, testBit_or_inverted _ _ heven]
      simp
    · have h0 : codeRead w (0 + 1) n code = code ||| (1 ^^^ (w.testBit (n - 1)).toNat) := rfl
      rw [h0, testBit_or_inverted _ _ heven, if_neg (by omega)]
      simp
  | succ fuel ih =>
    have hstep : codeRead w (fuel + 1 + 1) n code =
        codeRead w (fuel + 1) (n + 1) ((code ||| (1 ^^^ (w.testBit (n - 1)).toNat)) <<< 1) := rfl
    obtain ⟨ha, hb⟩ := ih (n + 1) ((code ||| (1 ^^^ (w.testBit (n - 1)).toNat)) <<< 1)
      (by simp only [Nat.shiftLeft_eq, pow_one]; omega) (by omega)
    rw [hstep]
    refine ⟨fun j hj => ?_, fun i hi => ?_⟩
    · cases j with
      | zero =>
        have := hb 1 (by omega)
        rw [show fuel + 1 - 0 = fuel + 1 by omega, this]
        simp [Nat.testBit_shiftLeft, testBit_or_inverted _ _ heven]
      | succ j =>
        have := ha j (by omega)
        rw [show fuel + 1 - (j + 1) = fuel - j by omega, this]
        congr 2
        omega
    · have := hb (i + 1) (by omega)
      rw [show fuel + 1 + i = fuel + (i + 1) by omega, this]
      rw [Nat.testBit_shiftLeft, show i + 1 - 1 = i by omega, testBit_or_inverted _ _ heven, if_neg (by omega)]
      simp

/-- What a match found: the entry of the table whose canonical code is the bits read. -/
theorem matchCode_found (symbols : List Nat) (m w : Nat) (counts : List Nat) (n code first index sym k : Nat)
    (hfirst : first ≤ code) (heven : code % 2 = 0)
    (h : matchCode symbols m w counts n code first index = .found sym k) :
    ∃ i, index ≤ i ∧ symbols[i]? = some sym ∧
      entryAt counts n first index i = some (k, codeRead w (k + 1 - n) n code) := by
  induction counts generalizing n code first index with
  | nil => simp [matchCode] at h
  | cons c counts ih =>
    have hle := matchCode_le _ _ _ _ _ _ _ _ _ _ h
    have hor := or_invertedBit code (w.testBit (n - 1)) heven
    simp only [matchCode] at h
    split at h
    · cases h
    · split at h
      · rename_i hlt
        split at h
        · rename_i x hs
          cases h
          refine ⟨_, by omega, hs, ?_⟩
          simp only [entryAt]
          rw [if_pos (by omega), show k + 1 - k = 1 by omega]
          simp only [codeRead]
          congr 2
          omega
        · cases h
      · rename_i hlt
        have hle2 := matchCode_le _ _ _ _ _ _ _ _ _ _ h
        obtain ⟨i, hge, hi, he⟩ := ih _ _ _ _ (by simp only [Nat.shiftLeft_eq, pow_one]; omega)
          (by simp only [Nat.shiftLeft_eq, pow_one]; omega) h
        refine ⟨i, by omega, hi, ?_⟩
        simp only [entryAt]
        rw [if_neg (by omega), he]
        congr 2
        obtain ⟨f, hf⟩ : ∃ f, k + 1 - (n + 1) = f + 1 := ⟨k - n - 1, by omega⟩
        rw [show k + 1 - n = f + 2 by omega, hf]
        rfl

end Sys2Proof.Machine
end

