-- ==== Sys2Proof/Laws/Rom.lean ====
section
/-! SUPPORT. The facts of the three code tables that decoding and encoding rest on: complete codes (30_encoding.md R57, R75),
every code read back as its symbol, and every entry that Decode reads (41_code_tables.md R72 to R74) standing at the
canonical code of its length (30_encoding.md R57, R62). -/

namespace Sys2Proof.Machine

open Sys2Proof

/-- The code of symbol `sym` is read back as `sym`, from exactly its bits. -/
abbrev CodeTable.readsBack (t : CodeTable) (sym : Nat) : Prop :=
  matchCode t.symbols (t.codeLen sym) (bitsValue (t.streamCode sym)) t.counts 1 0 0 0 = .found sym (t.codeLen sym)

/-- The i-th symbol stands at its canonical code. -/
abbrev CodeTable.canonicalAt (t : CodeTable) (i : Nat) : Prop :=
  entryAt t.counts 1 0 0 i = some (t.codeLen (t.symbols.getD i 0), t.codeOf (t.symbols.getD i 0))

/-- A table of `n` symbols whose two forms agree and whose code is complete. -/
structure CodeTable.Sound (t : CodeTable) (n : Nat) : Prop where
  closes : codeCloses t.counts 1 0 = true
  sum_counts : t.counts.sum = t.symbols.length
  symbols_lt : ∀ sym ∈ t.symbols, sym < n
  reads_back : ∀ sym < n, t.readsBack sym
  canonical : ∀ i < t.symbols.length, t.canonicalAt i
  codeLen_pos : ∀ sym < n, 1 ≤ t.codeLen sym
  codeLen_le : ∀ sym < n, t.codeLen sym ≤ t.maxLen
  maxLen_le : t.maxLen ≤ 16
  maxLen_pos : 1 ≤ t.maxLen

theorem lenTable_sound : lenTable.Sound 16 := by
  constructor <;> decide +kernel

theorem distTable_sound : distTable.Sound 64 := by
  constructor <;> decide +kernel

theorem litTable_sound : litTable.Sound 256 := by
  constructor <;> decide +kernel

@[simp] theorem streamCode_length (t : CodeTable) (sym : Nat) : (t.streamCode sym).length = t.codeLen sym := by
  simp [CodeTable.streamCode]

/-- Decode where the stream holds the code of a symbol (41_code_tables.md R71), whatever follows it. -/
theorem decodeSymbol_holds {t : CodeTable} {n : Nat} (ht : t.Sound n) {src : BitSource} (hsrc : src.total) {sym p : Nat}
    (site : Site) (hsym : sym < n) (h : src.holds p (t.streamCode sym)) :
    decodeSymbol src t site p = .ok sym (p + t.codeLen sym) := by
  have hpos := ht.codeLen_pos sym hsym
  have hle := ht.codeLen_le sym hsym
  have h16 := ht.maxLen_le
  have hlen := h.1
  simp only [streamCode_length] at hlen
  have hm : min t.maxLen (src.len - p) ≠ 0 := by omega
  have hgather := gatherBits_total hsrc (n := min t.maxLen (src.len - p)) (p := p) (by omega)
  have hmatch := matchCode_congr (m' := min t.maxLen (src.len - p))
    (w' := bitsValue (src.take p (min t.maxLen (src.len - p)))) _ _ _ _ _ _ _ _ (ht.reads_back sym hsym) (by omega)
    (by omega) (fun j hj => by
      have hb := h.2 j (by simpa using hj)
      have hj' : j < min t.maxLen (src.len - p) := by omega
      have hjl : j < (t.streamCode sym).length := by simpa using hj
      rw [testBit_bitsValue, testBit_bitsValue]
      simp only [BitSource.take, List.getD, List.getElem?_map, List.getElem?_range hj', Option.map_some, hb,
        Option.getD_some, List.getElem?_eq_getElem hjl])
  have hbad : ¬ (min t.maxLen (src.len - p) = 0 ∨ 16 < min t.maxLen (src.len - p)) := by omega
  simp only [decodeSymbol, remainingAt, peekBits, if_neg hbad, hgather, Read.bind]
  rw [if_neg (by omega), if_neg (by omega)]
  simp [hmatch]

/-- Bits that read as the canonical code of a symbol are its stream bits (30_encoding.md R58). -/
theorem holds_streamCode {t : CodeTable} {src : BitSource} (hsrc : src.total) {sym p m : Nat} (hpos : 1 ≤ t.codeLen sym)
    (hm : t.codeLen sym ≤ m) (hlen : p + m ≤ src.len)
    (hcode : codeRead (bitsValue (src.take p m)) (t.codeLen sym) 1 0 = t.codeOf sym) :
    src.holds p (t.streamCode sym) := by
  obtain ⟨f, hf⟩ : ∃ f, t.codeLen sym = f + 1 := ⟨t.codeLen sym - 1, by omega⟩
  refine ⟨by simp; omega, fun j hj => ?_⟩
  simp only [streamCode_length] at hj
  have hbit := (codeRead_testBit (bitsValue (src.take p m)) f 1 0 (by omega) (by omega)).1 j (by omega)
  rw [hf] at hcode
  rw [hcode, testBit_bitsValue] at hbit
  obtain ⟨b, hb⟩ := Option.isSome_iff_exists.mp (hsrc (p + j) (by omega))
  have htake : (src.take p m).getD (1 - 1 + j) false = b := by
    simp [BitSource.take, List.getD, List.getElem?_range (show j < m by omega), hb]
  rw [htake] at hbit
  simp only [CodeTable.streamCode, List.getElem_map, List.getElem_range, hf]
  rw [show f + 1 - 1 - j = f - j by omega, hbit, hb]
  simp

/-- What Decode can answer over a total source (41_code_tables.md R71, R75): a symbol of the table, whose code is the next
bits, or TruncatedInput with the cursor where it was; never InvalidCode. -/
theorem decodeSymbol_total {t : CodeTable} {n : Nat} (ht : t.Sound n) {src : BitSource} (hsrc : src.total) (site : Site)
    (p : Nat) :
    decodeSymbol src t site p = .error { kind := .truncatedInput, site := site, pos := p } ∧ src.len - p < t.maxLen ∨
      ∃ sym, sym < n ∧ decodeSymbol src t site p = .ok sym (p + t.codeLen sym) ∧ src.holds p (t.streamCode sym) := by
  have hpos := ht.maxLen_pos
  have h16 := ht.maxLen_le
  by_cases hrem : src.len - p = 0
  · left
    exact ⟨if_pos hrem, by omega⟩
  · have hm : min t.maxLen (src.len - p) ≠ 0 := by omega
    have hgather := gatherBits_total hsrc (n := min t.maxLen (src.len - p)) (p := p) (by omega)
    have hbad : ¬ (min t.maxLen (src.len - p) = 0 ∨ 16 < min t.maxLen (src.len - p)) := by omega
    have hdec : decodeSymbol src t site p =
        (match matchCode t.symbols (min t.maxLen (src.len - p)) (bitsValue (src.take p (min t.maxLen (src.len - p))))
            t.counts 1 0 0 0 with
          | .found sym n => .ok sym (p + n)
          | .short => .error { kind := .truncatedInput, site := site, pos := p }
          | .miss => .error { kind := .invalidCode, site := site, pos := p }) := by
      simp only [decodeSymbol, remainingAt, if_neg hrem, peekBits, if_neg hbad, hgather]
      rw [if_neg (by omega)]
      rfl
    rw [hdec]
    have hmiss := matchCode_ne_miss t.symbols (min t.maxLen (src.len - p))
      (bitsValue (src.take p (min t.maxLen (src.len - p)))) t.counts 1 0 0 0 (by omega) (by omega) (by omega) (by omega)
      ht.closes (by rw [ht.sum_counts]; omega)
    cases hmc : matchCode t.symbols (min t.maxLen (src.len - p)) (bitsValue (src.take p (min t.maxLen (src.len - p))))
        t.counts 1 0 0 0 with
    | miss => exact absurd hmc hmiss
    | short =>
      left
      refine ⟨rfl, ?_⟩
      by_contra hge
      exact matchCode_ne_short t.symbols (min t.maxLen (src.len - p)) _ t.counts 1 0 0 0
        (by unfold CodeTable.maxLen at *; omega) hmc
    | found sym k =>
      right
      obtain ⟨i, _, hi, he⟩ := matchCode_found _ _ _ _ _ _ _ _ _ _ (by omega) (by omega) hmc
      have hle := matchCode_le _ _ _ _ _ _ _ _ _ _ hmc
      obtain ⟨hil, hget⟩ := List.getElem?_eq_some_iff.mp hi
      have hcan := ht.canonical i hil
      have hsymi : t.symbols.getD i 0 = sym := by simp [List.getD, hi]
      rw [CodeTable.canonicalAt, hsymi, he] at hcan
      simp only [Option.some.injEq, Prod.mk.injEq] at hcan
      obtain ⟨hk, hcode⟩ := hcan
      subst hk
      refine ⟨sym, ht.symbols_lt sym (hget ▸ List.getElem_mem hil), rfl, ?_⟩
      exact holds_streamCode (m := min t.maxLen (src.len - p)) hsrc (by omega) (by omega) (by omega) (by simpa using hcode)

end Sys2Proof.Machine
end

