-- ==== Sys2Proof/Laws/Memory.lean ====
section
/-! SUPPORT. The laws of the buffers: a read after a write of the same byte, every other byte, and the canonical form, which
every write keeps. -/

namespace Sys2Proof.Machine

open Sys2Proof

@[simp] theorem written_store_same (m : Memory) (a : Nat) (b : Byte) :
    Memory.written? (Memory.store m a b) a = some b := by
  induction m with
  | nil => simp [Memory.store, Memory.written?]
  | cons c rest ih =>
    obtain ⟨k, v⟩ := c
    simp only [Memory.store]
    split
    · simp [Memory.written?]
    · split
      · simp [Memory.written?]
      · simp [Memory.written?, *]

theorem written_store_other (m : Memory) {a x : Nat} (b : Byte) (h : x ≠ a) :
    Memory.written? (Memory.store m a b) x = Memory.written? m x := by
  induction m with
  | nil => simp [Memory.store, Memory.written?, h]
  | cons c rest ih =>
    obtain ⟨k, v⟩ := c
    simp only [Memory.store]
    split
    · simp [Memory.written?, h]
    · split
      · subst_vars
        simp [Memory.written?, h]
      · simp [Memory.written?, ih]

/-- The addresses after a write are the old ones and the written one. -/
theorem mem_store (m : Memory) (a : Nat) (b : Byte) {c : Host.Cell} (h : c ∈ Memory.store m a b) :
    c = (a, b) ∨ c ∈ m := by
  induction m with
  | nil => simpa [Memory.store] using h
  | cons d rest ih =>
    obtain ⟨k, v⟩ := d
    simp only [Memory.store] at h
    split at h
    · simpa using h
    · split at h
      · rcases List.mem_cons.mp h with h | h
        · exact .inl h
        · exact .inr (List.mem_cons_of_mem _ h)
      · rcases List.mem_cons.mp h with h | h
        · exact .inr (by simp [h])
        · exact (ih h).imp id (List.mem_cons_of_mem _)

theorem store_keeps_wf (m : Memory) (a : Nat) (b : Byte) (h : Memory.wf m) : Memory.wf (Memory.store m a b) := by
  induction m with
  | nil => simp [Memory.store, Memory.wf]
  | cons d rest ih =>
    obtain ⟨k, v⟩ := d
    have hd := List.pairwise_cons.mp h
    simp only [Memory.store]
    split
    · refine List.pairwise_cons.mpr ⟨fun c hc => ?_, h⟩
      rcases List.mem_cons.mp hc with rfl | hc
      · assumption
      · have := hd.1 c hc
        simp only at this ⊢
        omega
    · split
      · subst_vars
        exact List.pairwise_cons.mpr hd
      · refine List.pairwise_cons.mpr ⟨fun c hc => ?_, ih hd.2⟩
        rcases mem_store rest a b hc with rfl | hc
        · simp only
          omega
        · exact hd.1 c hc

theorem store_keeps_below (m : Memory) (a cap : Nat) (b : Byte) (h : Memory.below m cap) (ha : a < cap) :
    Memory.below (Memory.store m a b) cap := by
  intro c hc
  rcases mem_store m a b hc with rfl | hc
  · exact ha
  · exact h c hc

end Sys2Proof.Machine
end

