-- ==== Sys2Proof/Laws/State.lean ====
section
/-! SUPPORT. What each register update leaves in each field of the state: one lemma per field per update, true by rfl, so that
no later proof unfolds a record update. -/

namespace Sys2Proof.Machine

open Sys2Proof

section movedTo
variable (s : State) (p : Nat)

@[simp] theorem movedTo_runState : (s.movedTo p).runState = s.runState := rfl
@[simp] theorem movedTo_phase : (s.movedTo p).phase = s.phase := rfl
@[simp] theorem movedTo_litMode : (s.movedTo p).litMode = s.litMode := rfl
@[simp] theorem movedTo_preValid : (s.movedTo p).preValid = s.preValid := rfl
@[simp] theorem movedTo_dictBits : (s.movedTo p).dictBits = s.dictBits := rfl
@[simp] theorem movedTo_errCode : (s.movedTo p).errCode = s.errCode := rfl
@[simp] theorem movedTo_errDetail : (s.movedTo p).errDetail = s.errDetail := rfl
@[simp] theorem movedTo_inLen : (s.movedTo p).inLen = s.inLen := rfl
@[simp] theorem movedTo_curByte : (s.movedTo p).curByte = BitVec.ofNat 32 (p / 8) := rfl
@[simp] theorem movedTo_curBit : (s.movedTo p).curBit = BitVec.ofNat 3 (p % 8) := rfl
@[simp] theorem movedTo_outLen : (s.movedTo p).outLen = s.outLen := rfl
@[simp] theorem movedTo_errPos : (s.movedTo p).errPos = s.errPos := rfl
@[simp] theorem movedTo_errBit : (s.movedTo p).errBit = s.errBit := rfl
@[simp] theorem movedTo_preFlag : (s.movedTo p).preFlag = s.preFlag := rfl
@[simp] theorem movedTo_preDict : (s.movedTo p).preDict = s.preDict := rfl
@[simp] theorem movedTo_copyRem : (s.movedTo p).copyRem = s.copyRem := rfl
@[simp] theorem movedTo_copyDist : (s.movedTo p).copyDist = s.copyDist := rfl
@[simp] theorem movedTo_dictHint : (s.movedTo p).dictHint = s.dictHint := rfl
@[simp] theorem movedTo_inMem : (s.movedTo p).inMem = s.inMem := rfl
@[simp] theorem movedTo_outMem : (s.movedTo p).outMem = s.outMem := rfl
@[simp] theorem movedTo_cfg : (s.movedTo p).cfg = s.cfg := rfl
@[simp] theorem movedTo_agenda : (s.movedTo p).agenda = s.agenda := rfl
@[simp] theorem movedTo_hostResult : (s.movedTo p).hostResult = s.hostResult := rfl
@[simp] theorem movedTo_resetEpoch : (s.movedTo p).resetEpoch = s.resetEpoch := rfl
@[simp] theorem movedTo_stream : (s.movedTo p).stream = s.stream := rfl
@[simp] theorem movedTo_inByte : (s.movedTo p).inByte = s.inByte := rfl
@[simp] theorem movedTo_outByte : (s.movedTo p).outByte = s.outByte := rfl

/-- The cursor stands where it was put (10_state.md R15). -/
theorem movedTo_cursor (h : p < 2 ^ 35) : (s.movedTo p).cursor = p := by
  simp only [State.cursor, movedTo_curByte, movedTo_curBit, BitVec.toNat_ofNat]
  omega

end movedTo

section errored
variable (s : State) (kind : ErrKind) (site : Site)

@[simp] theorem errored_runState : (s.errored kind site).runState = .error := rfl
@[simp] theorem errored_phase : (s.errored kind site).phase = s.phase := rfl
@[simp] theorem errored_litMode : (s.errored kind site).litMode = s.litMode := rfl
@[simp] theorem errored_preValid : (s.errored kind site).preValid = s.preValid := rfl
@[simp] theorem errored_dictBits : (s.errored kind site).dictBits = s.dictBits := rfl
@[simp] theorem errored_errCode : (s.errored kind site).errCode = kind.code := rfl
@[simp] theorem errored_errDetail : (s.errored kind site).errDetail = site.code := rfl
@[simp] theorem errored_inLen : (s.errored kind site).inLen = s.inLen := rfl
@[simp] theorem errored_curByte : (s.errored kind site).curByte = s.curByte := rfl
@[simp] theorem errored_curBit : (s.errored kind site).curBit = s.curBit := rfl
@[simp] theorem errored_outLen : (s.errored kind site).outLen = s.outLen := rfl
@[simp] theorem errored_errPos : (s.errored kind site).errPos = s.curByte := rfl
@[simp] theorem errored_errBit : (s.errored kind site).errBit = s.curBit := rfl
@[simp] theorem errored_preFlag : (s.errored kind site).preFlag = s.preFlag := rfl
@[simp] theorem errored_preDict : (s.errored kind site).preDict = s.preDict := rfl
@[simp] theorem errored_copyRem : (s.errored kind site).copyRem = s.copyRem := rfl
@[simp] theorem errored_copyDist : (s.errored kind site).copyDist = s.copyDist := rfl
@[simp] theorem errored_dictHint : (s.errored kind site).dictHint = s.dictHint := rfl
@[simp] theorem errored_inMem : (s.errored kind site).inMem = s.inMem := rfl
@[simp] theorem errored_outMem : (s.errored kind site).outMem = s.outMem := rfl
@[simp] theorem errored_cfg : (s.errored kind site).cfg = s.cfg := rfl
@[simp] theorem errored_agenda : (s.errored kind site).agenda = s.agenda := rfl
@[simp] theorem errored_hostResult : (s.errored kind site).hostResult = s.hostResult := rfl
@[simp] theorem errored_resetEpoch : (s.errored kind site).resetEpoch = s.resetEpoch := rfl
@[simp] theorem errored_cursor : (s.errored kind site).cursor = s.cursor := rfl
@[simp] theorem errored_stream : (s.errored kind site).stream = s.stream := rfl
@[simp] theorem errored_inByte : (s.errored kind site).inByte = s.inByte := rfl
@[simp] theorem errored_outByte : (s.errored kind site).outByte = s.outByte := rfl

end errored

section withPreFlag
variable (s : State) (f : Byte)

@[simp] theorem withPreFlag_runState : (s.withPreFlag f).runState = s.runState := rfl
@[simp] theorem withPreFlag_phase : (s.withPreFlag f).phase = s.phase := rfl
@[simp] theorem withPreFlag_litMode : (s.withPreFlag f).litMode = s.litMode := rfl
@[simp] theorem withPreFlag_preValid : (s.withPreFlag f).preValid = s.preValid := rfl
@[simp] theorem withPreFlag_dictBits : (s.withPreFlag f).dictBits = s.dictBits := rfl
@[simp] theorem withPreFlag_errCode : (s.withPreFlag f).errCode = s.errCode := rfl
@[simp] theorem withPreFlag_errDetail : (s.withPreFlag f).errDetail = s.errDetail := rfl
@[simp] theorem withPreFlag_inLen : (s.withPreFlag f).inLen = s.inLen := rfl
@[simp] theorem withPreFlag_curByte : (s.withPreFlag f).curByte = s.curByte := rfl
@[simp] theorem withPreFlag_curBit : (s.withPreFlag f).curBit = s.curBit := rfl
@[simp] theorem withPreFlag_outLen : (s.withPreFlag f).outLen = s.outLen := rfl
@[simp] theorem withPreFlag_errPos : (s.withPreFlag f).errPos = s.errPos := rfl
@[simp] theorem withPreFlag_errBit : (s.withPreFlag f).errBit = s.errBit := rfl
@[simp] theorem withPreFlag_preFlag : (s.withPreFlag f).preFlag = f := rfl
@[simp] theorem withPreFlag_preDict : (s.withPreFlag f).preDict = s.preDict := rfl
@[simp] theorem withPreFlag_copyRem : (s.withPreFlag f).copyRem = s.copyRem := rfl
@[simp] theorem withPreFlag_copyDist : (s.withPreFlag f).copyDist = s.copyDist := rfl
@[simp] theorem withPreFlag_dictHint : (s.withPreFlag f).dictHint = s.dictHint := rfl
@[simp] theorem withPreFlag_inMem : (s.withPreFlag f).inMem = s.inMem := rfl
@[simp] theorem withPreFlag_outMem : (s.withPreFlag f).outMem = s.outMem := rfl
@[simp] theorem withPreFlag_cfg : (s.withPreFlag f).cfg = s.cfg := rfl
@[simp] theorem withPreFlag_agenda : (s.withPreFlag f).agenda = s.agenda := rfl
@[simp] theorem withPreFlag_hostResult : (s.withPreFlag f).hostResult = s.hostResult := rfl
@[simp] theorem withPreFlag_resetEpoch : (s.withPreFlag f).resetEpoch = s.resetEpoch := rfl
@[simp] theorem withPreFlag_cursor : (s.withPreFlag f).cursor = s.cursor := rfl
@[simp] theorem withPreFlag_stream : (s.withPreFlag f).stream = s.stream := rfl
@[simp] theorem withPreFlag_inByte : (s.withPreFlag f).inByte = s.inByte := rfl
@[simp] theorem withPreFlag_outByte : (s.withPreFlag f).outByte = s.outByte := rfl

end withPreFlag

section withPreDict
variable (s : State) (d : Byte)

@[simp] theorem withPreDict_runState : (s.withPreDict d).runState = s.runState := rfl
@[simp] theorem withPreDict_phase : (s.withPreDict d).phase = s.phase := rfl
@[simp] theorem withPreDict_litMode : (s.withPreDict d).litMode = s.litMode := rfl
@[simp] theorem withPreDict_preValid : (s.withPreDict d).preValid = s.preValid := rfl
@[simp] theorem withPreDict_dictBits : (s.withPreDict d).dictBits = s.dictBits := rfl
@[simp] theorem withPreDict_errCode : (s.withPreDict d).errCode = s.errCode := rfl
@[simp] theorem withPreDict_errDetail : (s.withPreDict d).errDetail = s.errDetail := rfl
@[simp] theorem withPreDict_inLen : (s.withPreDict d).inLen = s.inLen := rfl
@[simp] theorem withPreDict_curByte : (s.withPreDict d).curByte = s.curByte := rfl
@[simp] theorem withPreDict_curBit : (s.withPreDict d).curBit = s.curBit := rfl
@[simp] theorem withPreDict_outLen : (s.withPreDict d).outLen = s.outLen := rfl
@[simp] theorem withPreDict_errPos : (s.withPreDict d).errPos = s.errPos := rfl
@[simp] theorem withPreDict_errBit : (s.withPreDict d).errBit = s.errBit := rfl
@[simp] theorem withPreDict_preFlag : (s.withPreDict d).preFlag = s.preFlag := rfl
@[simp] theorem withPreDict_preDict : (s.withPreDict d).preDict = d := rfl
@[simp] theorem withPreDict_copyRem : (s.withPreDict d).copyRem = s.copyRem := rfl
@[simp] theorem withPreDict_copyDist : (s.withPreDict d).copyDist = s.copyDist := rfl
@[simp] theorem withPreDict_dictHint : (s.withPreDict d).dictHint = s.dictHint := rfl
@[simp] theorem withPreDict_inMem : (s.withPreDict d).inMem = s.inMem := rfl
@[simp] theorem withPreDict_outMem : (s.withPreDict d).outMem = s.outMem := rfl
@[simp] theorem withPreDict_cfg : (s.withPreDict d).cfg = s.cfg := rfl
@[simp] theorem withPreDict_agenda : (s.withPreDict d).agenda = s.agenda := rfl
@[simp] theorem withPreDict_hostResult : (s.withPreDict d).hostResult = s.hostResult := rfl
@[simp] theorem withPreDict_resetEpoch : (s.withPreDict d).resetEpoch = s.resetEpoch := rfl
@[simp] theorem withPreDict_cursor : (s.withPreDict d).cursor = s.cursor := rfl
@[simp] theorem withPreDict_stream : (s.withPreDict d).stream = s.stream := rfl
@[simp] theorem withPreDict_inByte : (s.withPreDict d).inByte = s.inByte := rfl
@[simp] theorem withPreDict_outByte : (s.withPreDict d).outByte = s.outByte := rfl

end withPreDict

section accepted
variable (s : State) (flag : BitVec 1) (dict : BitVec 3)

@[simp] theorem accepted_runState : (s.accepted flag dict).runState = s.runState := rfl
@[simp] theorem accepted_phase : (s.accepted flag dict).phase = .token := rfl
@[simp] theorem accepted_litMode : (s.accepted flag dict).litMode = flag := rfl
@[simp] theorem accepted_preValid : (s.accepted flag dict).preValid = 1 := rfl
@[simp] theorem accepted_dictBits : (s.accepted flag dict).dictBits = dict := rfl
@[simp] theorem accepted_errCode : (s.accepted flag dict).errCode = s.errCode := rfl
@[simp] theorem accepted_errDetail : (s.accepted flag dict).errDetail = s.errDetail := rfl
@[simp] theorem accepted_inLen : (s.accepted flag dict).inLen = s.inLen := rfl
@[simp] theorem accepted_curByte : (s.accepted flag dict).curByte = s.curByte := rfl
@[simp] theorem accepted_curBit : (s.accepted flag dict).curBit = s.curBit := rfl
@[simp] theorem accepted_outLen : (s.accepted flag dict).outLen = s.outLen := rfl
@[simp] theorem accepted_errPos : (s.accepted flag dict).errPos = s.errPos := rfl
@[simp] theorem accepted_errBit : (s.accepted flag dict).errBit = s.errBit := rfl
@[simp] theorem accepted_preFlag : (s.accepted flag dict).preFlag = flag.setWidth 8 := rfl
@[simp] theorem accepted_preDict : (s.accepted flag dict).preDict = dict.setWidth 8 := rfl
@[simp] theorem accepted_copyRem : (s.accepted flag dict).copyRem = s.copyRem := rfl
@[simp] theorem accepted_copyDist : (s.accepted flag dict).copyDist = s.copyDist := rfl
@[simp] theorem accepted_dictHint : (s.accepted flag dict).dictHint = s.dictHint := rfl
@[simp] theorem accepted_inMem : (s.accepted flag dict).inMem = s.inMem := rfl
@[simp] theorem accepted_outMem : (s.accepted flag dict).outMem = s.outMem := rfl
@[simp] theorem accepted_cfg : (s.accepted flag dict).cfg = s.cfg := rfl
@[simp] theorem accepted_agenda : (s.accepted flag dict).agenda = s.agenda := rfl
@[simp] theorem accepted_hostResult : (s.accepted flag dict).hostResult = s.hostResult := rfl
@[simp] theorem accepted_resetEpoch : (s.accepted flag dict).resetEpoch = s.resetEpoch := rfl
@[simp] theorem accepted_cursor : (s.accepted flag dict).cursor = s.cursor := rfl
@[simp] theorem accepted_stream : (s.accepted flag dict).stream = s.stream := rfl
@[simp] theorem accepted_inByte : (s.accepted flag dict).inByte = s.inByte := rfl
@[simp] theorem accepted_outByte : (s.accepted flag dict).outByte = s.outByte := rfl

end accepted

section appended
variable (s : State) (a : Nat) (v : Byte) (n : BitVec 32)

@[simp] theorem appended_runState : (s.appended a v n).runState = s.runState := rfl
@[simp] theorem appended_phase : (s.appended a v n).phase = s.phase := rfl
@[simp] theorem appended_litMode : (s.appended a v n).litMode = s.litMode := rfl
@[simp] theorem appended_preValid : (s.appended a v n).preValid = s.preValid := rfl
@[simp] theorem appended_dictBits : (s.appended a v n).dictBits = s.dictBits := rfl
@[simp] theorem appended_errCode : (s.appended a v n).errCode = s.errCode := rfl
@[simp] theorem appended_errDetail : (s.appended a v n).errDetail = s.errDetail := rfl
@[simp] theorem appended_inLen : (s.appended a v n).inLen = s.inLen := rfl
@[simp] theorem appended_curByte : (s.appended a v n).curByte = s.curByte := rfl
@[simp] theorem appended_curBit : (s.appended a v n).curBit = s.curBit := rfl
@[simp] theorem appended_outLen : (s.appended a v n).outLen = n := rfl
@[simp] theorem appended_errPos : (s.appended a v n).errPos = s.errPos := rfl
@[simp] theorem appended_errBit : (s.appended a v n).errBit = s.errBit := rfl
@[simp] theorem appended_preFlag : (s.appended a v n).preFlag = s.preFlag := rfl
@[simp] theorem appended_preDict : (s.appended a v n).preDict = s.preDict := rfl
@[simp] theorem appended_copyRem : (s.appended a v n).copyRem = s.copyRem := rfl
@[simp] theorem appended_copyDist : (s.appended a v n).copyDist = s.copyDist := rfl
@[simp] theorem appended_dictHint : (s.appended a v n).dictHint = s.dictHint := rfl
@[simp] theorem appended_inMem : (s.appended a v n).inMem = s.inMem := rfl
@[simp] theorem appended_outMem : (s.appended a v n).outMem = Memory.store s.outMem a v := rfl
@[simp] theorem appended_cfg : (s.appended a v n).cfg = s.cfg := rfl
@[simp] theorem appended_agenda : (s.appended a v n).agenda = s.agenda := rfl
@[simp] theorem appended_hostResult : (s.appended a v n).hostResult = s.hostResult := rfl
@[simp] theorem appended_resetEpoch : (s.appended a v n).resetEpoch = s.resetEpoch := rfl
@[simp] theorem appended_cursor : (s.appended a v n).cursor = s.cursor := rfl
@[simp] theorem appended_stream : (s.appended a v n).stream = s.stream := rfl
@[simp] theorem appended_inByte : (s.appended a v n).inByte = s.inByte := rfl

/-- OUT after byte `v` was written at `a` (20_memory.md R39). -/
theorem appended_outByte (x : Nat) : (s.appended a v n).outByte x = if x = a then v else s.outByte x := by
  unfold State.outByte State.appended
  by_cases h : x = a
  · simp [h]
  · simp [h, written_store_other _ _ h]

end appended

section copying
variable (s : State) (rem : BitVec 10) (dist : BitVec 13)

@[simp] theorem copying_runState : (s.copying rem dist).runState = s.runState := rfl
@[simp] theorem copying_phase : (s.copying rem dist).phase = .copy := rfl
@[simp] theorem copying_litMode : (s.copying rem dist).litMode = s.litMode := rfl
@[simp] theorem copying_preValid : (s.copying rem dist).preValid = s.preValid := rfl
@[simp] theorem copying_dictBits : (s.copying rem dist).dictBits = s.dictBits := rfl
@[simp] theorem copying_errCode : (s.copying rem dist).errCode = s.errCode := rfl
@[simp] theorem copying_errDetail : (s.copying rem dist).errDetail = s.errDetail := rfl
@[simp] theorem copying_inLen : (s.copying rem dist).inLen = s.inLen := rfl
@[simp] theorem copying_curByte : (s.copying rem dist).curByte = s.curByte := rfl
@[simp] theorem copying_curBit : (s.copying rem dist).curBit = s.curBit := rfl
@[simp] theorem copying_outLen : (s.copying rem dist).outLen = s.outLen := rfl
@[simp] theorem copying_errPos : (s.copying rem dist).errPos = s.errPos := rfl
@[simp] theorem copying_errBit : (s.copying rem dist).errBit = s.errBit := rfl
@[simp] theorem copying_preFlag : (s.copying rem dist).preFlag = s.preFlag := rfl
@[simp] theorem copying_preDict : (s.copying rem dist).preDict = s.preDict := rfl
@[simp] theorem copying_copyRem : (s.copying rem dist).copyRem = rem := rfl
@[simp] theorem copying_copyDist : (s.copying rem dist).copyDist = dist := rfl
@[simp] theorem copying_dictHint : (s.copying rem dist).dictHint = s.dictHint := rfl
@[simp] theorem copying_inMem : (s.copying rem dist).inMem = s.inMem := rfl
@[simp] theorem copying_outMem : (s.copying rem dist).outMem = s.outMem := rfl
@[simp] theorem copying_cfg : (s.copying rem dist).cfg = s.cfg := rfl
@[simp] theorem copying_agenda : (s.copying rem dist).agenda = s.agenda := rfl
@[simp] theorem copying_hostResult : (s.copying rem dist).hostResult = s.hostResult := rfl
@[simp] theorem copying_resetEpoch : (s.copying rem dist).resetEpoch = s.resetEpoch := rfl
@[simp] theorem copying_cursor : (s.copying rem dist).cursor = s.cursor := rfl
@[simp] theorem copying_stream : (s.copying rem dist).stream = s.stream := rfl
@[simp] theorem copying_inByte : (s.copying rem dist).inByte = s.inByte := rfl
@[simp] theorem copying_outByte : (s.copying rem dist).outByte = s.outByte := rfl

end copying

section copyLeft
variable (s : State) (rem : BitVec 10)

@[simp] theorem copyLeft_runState : (s.copyLeft rem).runState = s.runState := rfl
@[simp] theorem copyLeft_phase : (s.copyLeft rem).phase = if rem = 0 then .token else s.phase := rfl
@[simp] theorem copyLeft_litMode : (s.copyLeft rem).litMode = s.litMode := rfl
@[simp] theorem copyLeft_preValid : (s.copyLeft rem).preValid = s.preValid := rfl
@[simp] theorem copyLeft_dictBits : (s.copyLeft rem).dictBits = s.dictBits := rfl
@[simp] theorem copyLeft_errCode : (s.copyLeft rem).errCode = s.errCode := rfl
@[simp] theorem copyLeft_errDetail : (s.copyLeft rem).errDetail = s.errDetail := rfl
@[simp] theorem copyLeft_inLen : (s.copyLeft rem).inLen = s.inLen := rfl
@[simp] theorem copyLeft_curByte : (s.copyLeft rem).curByte = s.curByte := rfl
@[simp] theorem copyLeft_curBit : (s.copyLeft rem).curBit = s.curBit := rfl
@[simp] theorem copyLeft_outLen : (s.copyLeft rem).outLen = s.outLen := rfl
@[simp] theorem copyLeft_errPos : (s.copyLeft rem).errPos = s.errPos := rfl
@[simp] theorem copyLeft_errBit : (s.copyLeft rem).errBit = s.errBit := rfl
@[simp] theorem copyLeft_preFlag : (s.copyLeft rem).preFlag = s.preFlag := rfl
@[simp] theorem copyLeft_preDict : (s.copyLeft rem).preDict = s.preDict := rfl
@[simp] theorem copyLeft_copyRem : (s.copyLeft rem).copyRem = rem := rfl
@[simp] theorem copyLeft_copyDist : (s.copyLeft rem).copyDist = s.copyDist := rfl
@[simp] theorem copyLeft_dictHint : (s.copyLeft rem).dictHint = s.dictHint := rfl
@[simp] theorem copyLeft_inMem : (s.copyLeft rem).inMem = s.inMem := rfl
@[simp] theorem copyLeft_outMem : (s.copyLeft rem).outMem = s.outMem := rfl
@[simp] theorem copyLeft_cfg : (s.copyLeft rem).cfg = s.cfg := rfl
@[simp] theorem copyLeft_agenda : (s.copyLeft rem).agenda = s.agenda := rfl
@[simp] theorem copyLeft_hostResult : (s.copyLeft rem).hostResult = s.hostResult := rfl
@[simp] theorem copyLeft_resetEpoch : (s.copyLeft rem).resetEpoch = s.resetEpoch := rfl
@[simp] theorem copyLeft_cursor : (s.copyLeft rem).cursor = s.cursor := rfl
@[simp] theorem copyLeft_stream : (s.copyLeft rem).stream = s.stream := rfl
@[simp] theorem copyLeft_inByte : (s.copyLeft rem).inByte = s.inByte := rfl
@[simp] theorem copyLeft_outByte : (s.copyLeft rem).outByte = s.outByte := rfl

end copyLeft

section finished
variable (s : State)

@[simp] theorem finished_runState : (s.finished).runState = .done := rfl
@[simp] theorem finished_phase : (s.finished).phase = s.phase := rfl
@[simp] theorem finished_litMode : (s.finished).litMode = s.litMode := rfl
@[simp] theorem finished_preValid : (s.finished).preValid = s.preValid := rfl
@[simp] theorem finished_dictBits : (s.finished).dictBits = s.dictBits := rfl
@[simp] theorem finished_errCode : (s.finished).errCode = s.errCode := rfl
@[simp] theorem finished_errDetail : (s.finished).errDetail = s.errDetail := rfl
@[simp] theorem finished_inLen : (s.finished).inLen = s.inLen := rfl
@[simp] theorem finished_curByte : (s.finished).curByte = s.curByte := rfl
@[simp] theorem finished_curBit : (s.finished).curBit = s.curBit := rfl
@[simp] theorem finished_outLen : (s.finished).outLen = s.outLen := rfl
@[simp] theorem finished_errPos : (s.finished).errPos = s.errPos := rfl
@[simp] theorem finished_errBit : (s.finished).errBit = s.errBit := rfl
@[simp] theorem finished_preFlag : (s.finished).preFlag = s.preFlag := rfl
@[simp] theorem finished_preDict : (s.finished).preDict = s.preDict := rfl
@[simp] theorem finished_copyRem : (s.finished).copyRem = s.copyRem := rfl
@[simp] theorem finished_copyDist : (s.finished).copyDist = s.copyDist := rfl
@[simp] theorem finished_dictHint : (s.finished).dictHint = s.dictHint := rfl
@[simp] theorem finished_inMem : (s.finished).inMem = s.inMem := rfl
@[simp] theorem finished_outMem : (s.finished).outMem = s.outMem := rfl
@[simp] theorem finished_cfg : (s.finished).cfg = s.cfg := rfl
@[simp] theorem finished_agenda : (s.finished).agenda = s.agenda := rfl
@[simp] theorem finished_hostResult : (s.finished).hostResult = s.hostResult := rfl
@[simp] theorem finished_resetEpoch : (s.finished).resetEpoch = s.resetEpoch := rfl
@[simp] theorem finished_cursor : (s.finished).cursor = s.cursor := rfl
@[simp] theorem finished_stream : (s.finished).stream = s.stream := rfl
@[simp] theorem finished_inByte : (s.finished).inByte = s.inByte := rfl
@[simp] theorem finished_outByte : (s.finished).outByte = s.outByte := rfl

end finished

section started
variable (s : State)

@[simp] theorem started_runState : (s.started).runState = .busy := rfl
@[simp] theorem started_phase : (s.started).phase = .pre := rfl
@[simp] theorem started_litMode : (s.started).litMode = 0 := rfl
@[simp] theorem started_preValid : (s.started).preValid = 0 := rfl
@[simp] theorem started_dictBits : (s.started).dictBits = 0 := rfl
@[simp] theorem started_errCode : (s.started).errCode = 0 := rfl
@[simp] theorem started_errDetail : (s.started).errDetail = 0 := rfl
@[simp] theorem started_inLen : (s.started).inLen = s.inLen := rfl
@[simp] theorem started_curByte : (s.started).curByte = 0 := rfl
@[simp] theorem started_curBit : (s.started).curBit = 0 := rfl
@[simp] theorem started_outLen : (s.started).outLen = 0 := rfl
@[simp] theorem started_errPos : (s.started).errPos = 0 := rfl
@[simp] theorem started_errBit : (s.started).errBit = 0 := rfl
@[simp] theorem started_preFlag : (s.started).preFlag = 0 := rfl
@[simp] theorem started_preDict : (s.started).preDict = 0 := rfl
@[simp] theorem started_copyRem : (s.started).copyRem = 0 := rfl
@[simp] theorem started_copyDist : (s.started).copyDist = 0 := rfl
@[simp] theorem started_dictHint : (s.started).dictHint = s.dictHint := rfl
@[simp] theorem started_inMem : (s.started).inMem = s.inMem := rfl
@[simp] theorem started_outMem : (s.started).outMem = s.outMem := rfl
@[simp] theorem started_cfg : (s.started).cfg = s.cfg := rfl
@[simp] theorem started_agenda : (s.started).agenda = s.agenda := rfl
@[simp] theorem started_hostResult : (s.started).hostResult = s.hostResult := rfl
@[simp] theorem started_resetEpoch : (s.started).resetEpoch = s.resetEpoch := rfl
@[simp] theorem started_stream : (s.started).stream = s.stream := rfl
@[simp] theorem started_inByte : (s.started).inByte = s.inByte := rfl
@[simp] theorem started_outByte : (s.started).outByte = s.outByte := rfl

end started

section answered
variable (s : State) (r : HostResult)

@[simp] theorem answered_runState : (s.answered r).runState = s.runState := rfl
@[simp] theorem answered_phase : (s.answered r).phase = s.phase := rfl
@[simp] theorem answered_litMode : (s.answered r).litMode = s.litMode := rfl
@[simp] theorem answered_preValid : (s.answered r).preValid = s.preValid := rfl
@[simp] theorem answered_dictBits : (s.answered r).dictBits = s.dictBits := rfl
@[simp] theorem answered_errCode : (s.answered r).errCode = s.errCode := rfl
@[simp] theorem answered_errDetail : (s.answered r).errDetail = s.errDetail := rfl
@[simp] theorem answered_inLen : (s.answered r).inLen = s.inLen := rfl
@[simp] theorem answered_curByte : (s.answered r).curByte = s.curByte := rfl
@[simp] theorem answered_curBit : (s.answered r).curBit = s.curBit := rfl
@[simp] theorem answered_outLen : (s.answered r).outLen = s.outLen := rfl
@[simp] theorem answered_errPos : (s.answered r).errPos = s.errPos := rfl
@[simp] theorem answered_errBit : (s.answered r).errBit = s.errBit := rfl
@[simp] theorem answered_preFlag : (s.answered r).preFlag = s.preFlag := rfl
@[simp] theorem answered_preDict : (s.answered r).preDict = s.preDict := rfl
@[simp] theorem answered_copyRem : (s.answered r).copyRem = s.copyRem := rfl
@[simp] theorem answered_copyDist : (s.answered r).copyDist = s.copyDist := rfl
@[simp] theorem answered_dictHint : (s.answered r).dictHint = s.dictHint := rfl
@[simp] theorem answered_inMem : (s.answered r).inMem = s.inMem := rfl
@[simp] theorem answered_outMem : (s.answered r).outMem = s.outMem := rfl
@[simp] theorem answered_cfg : (s.answered r).cfg = s.cfg := rfl
@[simp] theorem answered_agenda : (s.answered r).agenda = s.agenda := rfl
@[simp] theorem answered_hostResult : (s.answered r).hostResult = r := rfl
@[simp] theorem answered_resetEpoch : (s.answered r).resetEpoch = s.resetEpoch := rfl
@[simp] theorem answered_cursor : (s.answered r).cursor = s.cursor := rfl
@[simp] theorem answered_stream : (s.answered r).stream = s.stream := rfl
@[simp] theorem answered_inByte : (s.answered r).inByte = s.inByte := rfl
@[simp] theorem answered_outByte : (s.answered r).outByte = s.outByte := rfl

end answered

section withInLen
variable (s : State) (n : BitVec 32)

@[simp] theorem withInLen_runState : (s.withInLen n).runState = s.runState := rfl
@[simp] theorem withInLen_phase : (s.withInLen n).phase = s.phase := rfl
@[simp] theorem withInLen_litMode : (s.withInLen n).litMode = s.litMode := rfl
@[simp] theorem withInLen_preValid : (s.withInLen n).preValid = s.preValid := rfl
@[simp] theorem withInLen_dictBits : (s.withInLen n).dictBits = s.dictBits := rfl
@[simp] theorem withInLen_errCode : (s.withInLen n).errCode = s.errCode := rfl
@[simp] theorem withInLen_errDetail : (s.withInLen n).errDetail = s.errDetail := rfl
@[simp] theorem withInLen_inLen : (s.withInLen n).inLen = n := rfl
@[simp] theorem withInLen_curByte : (s.withInLen n).curByte = s.curByte := rfl
@[simp] theorem withInLen_curBit : (s.withInLen n).curBit = s.curBit := rfl
@[simp] theorem withInLen_outLen : (s.withInLen n).outLen = s.outLen := rfl
@[simp] theorem withInLen_errPos : (s.withInLen n).errPos = s.errPos := rfl
@[simp] theorem withInLen_errBit : (s.withInLen n).errBit = s.errBit := rfl
@[simp] theorem withInLen_preFlag : (s.withInLen n).preFlag = s.preFlag := rfl
@[simp] theorem withInLen_preDict : (s.withInLen n).preDict = s.preDict := rfl
@[simp] theorem withInLen_copyRem : (s.withInLen n).copyRem = s.copyRem := rfl
@[simp] theorem withInLen_copyDist : (s.withInLen n).copyDist = s.copyDist := rfl
@[simp] theorem withInLen_dictHint : (s.withInLen n).dictHint = s.dictHint := rfl
@[simp] theorem withInLen_inMem : (s.withInLen n).inMem = s.inMem := rfl
@[simp] theorem withInLen_outMem : (s.withInLen n).outMem = s.outMem := rfl
@[simp] theorem withInLen_cfg : (s.withInLen n).cfg = s.cfg := rfl
@[simp] theorem withInLen_agenda : (s.withInLen n).agenda = s.agenda := rfl
@[simp] theorem withInLen_hostResult : (s.withInLen n).hostResult = s.hostResult := rfl
@[simp] theorem withInLen_resetEpoch : (s.withInLen n).resetEpoch = s.resetEpoch := rfl
@[simp] theorem withInLen_cursor : (s.withInLen n).cursor = s.cursor := rfl
@[simp] theorem withInLen_inByte : (s.withInLen n).inByte = s.inByte := rfl
@[simp] theorem withInLen_outByte : (s.withInLen n).outByte = s.outByte := rfl

end withInLen

section withDictHint
variable (s : State) (v : Byte)

@[simp] theorem withDictHint_runState : (s.withDictHint v).runState = s.runState := rfl
@[simp] theorem withDictHint_phase : (s.withDictHint v).phase = s.phase := rfl
@[simp] theorem withDictHint_litMode : (s.withDictHint v).litMode = s.litMode := rfl
@[simp] theorem withDictHint_preValid : (s.withDictHint v).preValid = s.preValid := rfl
@[simp] theorem withDictHint_dictBits : (s.withDictHint v).dictBits = s.dictBits := rfl
@[simp] theorem withDictHint_errCode : (s.withDictHint v).errCode = s.errCode := rfl
@[simp] theorem withDictHint_errDetail : (s.withDictHint v).errDetail = s.errDetail := rfl
@[simp] theorem withDictHint_inLen : (s.withDictHint v).inLen = s.inLen := rfl
@[simp] theorem withDictHint_curByte : (s.withDictHint v).curByte = s.curByte := rfl
@[simp] theorem withDictHint_curBit : (s.withDictHint v).curBit = s.curBit := rfl
@[simp] theorem withDictHint_outLen : (s.withDictHint v).outLen = s.outLen := rfl
@[simp] theorem withDictHint_errPos : (s.withDictHint v).errPos = s.errPos := rfl
@[simp] theorem withDictHint_errBit : (s.withDictHint v).errBit = s.errBit := rfl
@[simp] theorem withDictHint_preFlag : (s.withDictHint v).preFlag = s.preFlag := rfl
@[simp] theorem withDictHint_preDict : (s.withDictHint v).preDict = s.preDict := rfl
@[simp] theorem withDictHint_copyRem : (s.withDictHint v).copyRem = s.copyRem := rfl
@[simp] theorem withDictHint_copyDist : (s.withDictHint v).copyDist = s.copyDist := rfl
@[simp] theorem withDictHint_dictHint : (s.withDictHint v).dictHint = v := rfl
@[simp] theorem withDictHint_inMem : (s.withDictHint v).inMem = s.inMem := rfl
@[simp] theorem withDictHint_outMem : (s.withDictHint v).outMem = s.outMem := rfl
@[simp] theorem withDictHint_cfg : (s.withDictHint v).cfg = s.cfg := rfl
@[simp] theorem withDictHint_agenda : (s.withDictHint v).agenda = s.agenda := rfl
@[simp] theorem withDictHint_hostResult : (s.withDictHint v).hostResult = s.hostResult := rfl
@[simp] theorem withDictHint_resetEpoch : (s.withDictHint v).resetEpoch = s.resetEpoch := rfl
@[simp] theorem withDictHint_cursor : (s.withDictHint v).cursor = s.cursor := rfl
@[simp] theorem withDictHint_stream : (s.withDictHint v).stream = s.stream := rfl
@[simp] theorem withDictHint_inByte : (s.withDictHint v).inByte = s.inByte := rfl
@[simp] theorem withDictHint_outByte : (s.withDictHint v).outByte = s.outByte := rfl

end withDictHint

section withInByte
variable (s : State) (a : Nat) (b : Byte)

@[simp] theorem withInByte_runState : (s.withInByte a b).runState = s.runState := rfl
@[simp] theorem withInByte_phase : (s.withInByte a b).phase = s.phase := rfl
@[simp] theorem withInByte_litMode : (s.withInByte a b).litMode = s.litMode := rfl
@[simp] theorem withInByte_preValid : (s.withInByte a b).preValid = s.preValid := rfl
@[simp] theorem withInByte_dictBits : (s.withInByte a b).dictBits = s.dictBits := rfl
@[simp] theorem withInByte_errCode : (s.withInByte a b).errCode = s.errCode := rfl
@[simp] theorem withInByte_errDetail : (s.withInByte a b).errDetail = s.errDetail := rfl
@[simp] theorem withInByte_inLen : (s.withInByte a b).inLen = s.inLen := rfl
@[simp] theorem withInByte_curByte : (s.withInByte a b).curByte = s.curByte := rfl
@[simp] theorem withInByte_curBit : (s.withInByte a b).curBit = s.curBit := rfl
@[simp] theorem withInByte_outLen : (s.withInByte a b).outLen = s.outLen := rfl
@[simp] theorem withInByte_errPos : (s.withInByte a b).errPos = s.errPos := rfl
@[simp] theorem withInByte_errBit : (s.withInByte a b).errBit = s.errBit := rfl
@[simp] theorem withInByte_preFlag : (s.withInByte a b).preFlag = s.preFlag := rfl
@[simp] theorem withInByte_preDict : (s.withInByte a b).preDict = s.preDict := rfl
@[simp] theorem withInByte_copyRem : (s.withInByte a b).copyRem = s.copyRem := rfl
@[simp] theorem withInByte_copyDist : (s.withInByte a b).copyDist = s.copyDist := rfl
@[simp] theorem withInByte_dictHint : (s.withInByte a b).dictHint = s.dictHint := rfl
@[simp] theorem withInByte_inMem : (s.withInByte a b).inMem = Memory.store s.inMem a b := rfl
@[simp] theorem withInByte_outMem : (s.withInByte a b).outMem = s.outMem := rfl
@[simp] theorem withInByte_cfg : (s.withInByte a b).cfg = s.cfg := rfl
@[simp] theorem withInByte_agenda : (s.withInByte a b).agenda = s.agenda := rfl
@[simp] theorem withInByte_hostResult : (s.withInByte a b).hostResult = s.hostResult := rfl
@[simp] theorem withInByte_resetEpoch : (s.withInByte a b).resetEpoch = s.resetEpoch := rfl
@[simp] theorem withInByte_cursor : (s.withInByte a b).cursor = s.cursor := rfl
@[simp] theorem withInByte_outByte : (s.withInByte a b).outByte = s.outByte := rfl

/-- IN after a write of byte `b` at `a` (20_memory.md R38). -/
theorem withInByte_inByte (x : Nat) : (s.withInByte a b).inByte x = if x = a then b else s.inByte x := by
  unfold State.inByte State.withInByte
  by_cases h : x = a
  · simp [h]
  · simp [h, written_store_other _ _ h]

end withInByte

section withAgenda
variable (s : State) (turns : List Turn)

@[simp] theorem withAgenda_runState : (s.withAgenda turns).runState = s.runState := rfl
@[simp] theorem withAgenda_phase : (s.withAgenda turns).phase = s.phase := rfl
@[simp] theorem withAgenda_litMode : (s.withAgenda turns).litMode = s.litMode := rfl
@[simp] theorem withAgenda_preValid : (s.withAgenda turns).preValid = s.preValid := rfl
@[simp] theorem withAgenda_dictBits : (s.withAgenda turns).dictBits = s.dictBits := rfl
@[simp] theorem withAgenda_errCode : (s.withAgenda turns).errCode = s.errCode := rfl
@[simp] theorem withAgenda_errDetail : (s.withAgenda turns).errDetail = s.errDetail := rfl
@[simp] theorem withAgenda_inLen : (s.withAgenda turns).inLen = s.inLen := rfl
@[simp] theorem withAgenda_curByte : (s.withAgenda turns).curByte = s.curByte := rfl
@[simp] theorem withAgenda_curBit : (s.withAgenda turns).curBit = s.curBit := rfl
@[simp] theorem withAgenda_outLen : (s.withAgenda turns).outLen = s.outLen := rfl
@[simp] theorem withAgenda_errPos : (s.withAgenda turns).errPos = s.errPos := rfl
@[simp] theorem withAgenda_errBit : (s.withAgenda turns).errBit = s.errBit := rfl
@[simp] theorem withAgenda_preFlag : (s.withAgenda turns).preFlag = s.preFlag := rfl
@[simp] theorem withAgenda_preDict : (s.withAgenda turns).preDict = s.preDict := rfl
@[simp] theorem withAgenda_copyRem : (s.withAgenda turns).copyRem = s.copyRem := rfl
@[simp] theorem withAgenda_copyDist : (s.withAgenda turns).copyDist = s.copyDist := rfl
@[simp] theorem withAgenda_dictHint : (s.withAgenda turns).dictHint = s.dictHint := rfl
@[simp] theorem withAgenda_inMem : (s.withAgenda turns).inMem = s.inMem := rfl
@[simp] theorem withAgenda_outMem : (s.withAgenda turns).outMem = s.outMem := rfl
@[simp] theorem withAgenda_cfg : (s.withAgenda turns).cfg = s.cfg := rfl
@[simp] theorem withAgenda_agenda : (s.withAgenda turns).agenda = turns := rfl
@[simp] theorem withAgenda_hostResult : (s.withAgenda turns).hostResult = s.hostResult := rfl
@[simp] theorem withAgenda_resetEpoch : (s.withAgenda turns).resetEpoch = s.resetEpoch := rfl
@[simp] theorem withAgenda_cursor : (s.withAgenda turns).cursor = s.cursor := rfl
@[simp] theorem withAgenda_stream : (s.withAgenda turns).stream = s.stream := rfl
@[simp] theorem withAgenda_inByte : (s.withAgenda turns).inByte = s.inByte := rfl
@[simp] theorem withAgenda_outByte : (s.withAgenda turns).outByte = s.outByte := rfl

end withAgenda

section reset
variable (s : State)

@[simp] theorem afterReset_runState : s.afterReset.runState = .idle := rfl
@[simp] theorem afterReset_phase : s.afterReset.phase = .pre := rfl
@[simp] theorem afterReset_litMode : s.afterReset.litMode = 0 := rfl
@[simp] theorem afterReset_preValid : s.afterReset.preValid = 0 := rfl
@[simp] theorem afterReset_dictBits : s.afterReset.dictBits = 0 := rfl
@[simp] theorem afterReset_errCode : s.afterReset.errCode = 0 := rfl
@[simp] theorem afterReset_errDetail : s.afterReset.errDetail = 0 := rfl
@[simp] theorem afterReset_inLen : s.afterReset.inLen = 0 := rfl
@[simp] theorem afterReset_curByte : s.afterReset.curByte = 0 := rfl
@[simp] theorem afterReset_curBit : s.afterReset.curBit = 0 := rfl
@[simp] theorem afterReset_outLen : s.afterReset.outLen = 0 := rfl
@[simp] theorem afterReset_errPos : s.afterReset.errPos = 0 := rfl
@[simp] theorem afterReset_errBit : s.afterReset.errBit = 0 := rfl
@[simp] theorem afterReset_preFlag : s.afterReset.preFlag = 0 := rfl
@[simp] theorem afterReset_preDict : s.afterReset.preDict = 0 := rfl
@[simp] theorem afterReset_copyRem : s.afterReset.copyRem = 0 := rfl
@[simp] theorem afterReset_copyDist : s.afterReset.copyDist = 0 := rfl
@[simp] theorem afterReset_dictHint : s.afterReset.dictHint = 0 := rfl
@[simp] theorem afterReset_inMem : s.afterReset.inMem = [] := rfl
@[simp] theorem afterReset_outMem : s.afterReset.outMem = [] := rfl
@[simp] theorem afterReset_cfg : s.afterReset.cfg = s.cfg := rfl
@[simp] theorem afterReset_agenda : s.afterReset.agenda = s.agenda := rfl
@[simp] theorem afterReset_hostResult : s.afterReset.hostResult = .nothing := rfl
@[simp] theorem afterReset_resetEpoch : s.afterReset.resetEpoch = s.resetEpoch + 1 := rfl

end reset

end Sys2Proof.Machine
end

