-- ==== Sys2Proof/Laws/Ops.lean ====
section
/-! SUPPORT. What each shared operation can do, said once: when it goes on and with which state, when it raises which error of
the block, when the model is stuck. -/

namespace Sys2Proof.Machine

open Sys2Proof

/-! ## Pieces of a step -/

@[simp] theorem Micro.bind_ok (s : State) (k : State → Micro) : (Micro.ok s).bind k = k s := rfl
@[simp] theorem Micro.bind_raised (s : State) (k : State → Micro) : (Micro.raised s).bind k = .raised s := rfl
@[simp] theorem Micro.bind_stuck (f : Fault) (k : State → Micro) : (Micro.stuck f).bind k = .stuck f := rfl
@[simp] theorem Micro.toOutcome_ok (s : State) : (Micro.ok s).toOutcome = .next s := rfl
@[simp] theorem Micro.toOutcome_raised (s : State) : (Micro.raised s).toOutcome = .next s := rfl
@[simp] theorem Micro.toOutcome_stuck (f : Fault) : (Micro.stuck f).toOutcome = .fault f := rfl

@[simp] theorem Read.bind_ok {α β : Type} (a : α) (p : Nat) (k : α → Nat → Read β) : (Read.ok a p).bind k = k a p := rfl
@[simp] theorem Read.bind_error {α β : Type} (e : StreamError) (k : α → Nat → Read β) :
    (Read.error e : Read α).bind k = .error e := rfl
@[simp] theorem Read.bind_stuck {α β : Type} (f : Fault) (k : α → Nat → Read β) :
    (Read.stuck f : Read α).bind k = .stuck f := rfl

theorem Micro.toOutcome_next {m : Micro} {t : State} (h : m.toOutcome = .next t) : m = .ok t ∨ m = .raised t := by
  cases m <;> simp_all

/-! ## The operations -/

theorem advance_of_lt {n : Nat} {s : State} (h : s.cursor + n < 2 ^ 35) :
    advance n s = .ok (s.movedTo (s.cursor + n)) := if_pos h

theorem advance_of_ge {n : Nat} {s : State} (h : 2 ^ 35 ≤ s.cursor + n) : advance n s = .stuck .widthOverflow :=
  if_neg (by omega)

theorem setCursor_of_lt {p : Nat} {s : State} (h : p < 2 ^ 35) : setCursor p s = .ok (s.movedTo p) := if_pos h

theorem emit_full {v : Byte} {site : Site} {s : State} (h : s.outLen.toNat = s.cfg.outCap) :
    emit v site s = .raised (s.errored .outputOverflow site) := if_pos h

theorem emit_room {v : Byte} {site : Site} {s : State} (h : s.outLen.toNat < s.cfg.outCap)
    (hcap : s.cfg.outCap ≤ 4294967295) :
    emit v site s = .ok (s.appended s.outLen.toNat v (s.outLen + 1)) := by
  have h1 : s.outLen.toNat + 1 < 2 ^ 32 := by omega
  have h2 : BitVec.ofNat 32 (s.outLen.toNat + 1) = s.outLen + 1 := by
    apply BitVec.eq_of_toNat_eq
    simp
  simp only [emit, append, fitting]
  rw [if_neg (by omega), if_pos h, if_pos h1, h2]

/-- What Emit can do (42_tokens.md R77, 00_scope.md R12, log 8). -/
theorem emit_cases (v : Byte) (site : Site) (s : State) :
    s.outLen.toNat = s.cfg.outCap ∧ emit v site s = .raised (s.errored .outputOverflow site) ∨
      s.outLen.toNat < s.cfg.outCap ∧ s.outLen.toNat + 1 < 2 ^ 32 ∧
        emit v site s = .ok (s.appended s.outLen.toNat v (BitVec.ofNat 32 (s.outLen.toNat + 1))) ∨
      ∃ f, emit v site s = .stuck f := by
  by_cases hfull : s.outLen.toNat = s.cfg.outCap
  · exact .inl ⟨hfull, emit_full hfull⟩
  · right
    simp only [emit, append, fitting, if_neg hfull]
    by_cases hlt : s.outLen.toNat < s.cfg.outCap
    · by_cases hfit : s.outLen.toNat + 1 < 2 ^ 32
      · exact .inl ⟨hlt, hfit, by rw [if_pos hlt, if_pos hfit]⟩
      · exact .inr ⟨.widthOverflow, by rw [if_pos hlt, if_neg hfit]⟩
    · exact .inr ⟨.noSuchAddress, by rw [if_neg hlt]⟩

/-- What CopyStart can do (42_tokens.md R84). -/
theorem copyStart_cases (len dist : Nat) (s : State) :
    s.outLen.toNat < dist ∧ copyStart len dist s = .raised (s.errored .distanceOutOfRange .distanceCheck) ∨
      dist ≤ s.outLen.toNat ∧ len < 2 ^ 10 ∧ dist < 2 ^ 13 ∧
        copyStart len dist s = .ok (s.copying (BitVec.ofNat 10 len) (BitVec.ofNat 13 dist)) ∨
      ∃ f, copyStart len dist s = .stuck f := by
  simp only [copyStart, fitting]
  by_cases hfar : s.outLen.toNat < dist
  · exact .inl ⟨hfar, by rw [if_pos hfar]⟩
  · right
    by_cases hlen : len < 2 ^ 10
    · by_cases hdist : dist < 2 ^ 13
      · exact .inl ⟨by omega, hlen, hdist, by rw [if_neg hfar, if_pos hlen, if_pos hdist]⟩
      · exact .inr ⟨_, by rw [if_neg hfar, if_pos hlen, if_neg hdist]⟩
    · exact .inr ⟨_, by rw [if_neg hfar, if_neg hlen]⟩

/-- CopyByteStep where its source and its registers are as a copy in progress has them (42_tokens.md R85). -/
theorem copyByteStep_of (s : State) (hdist : s.copyDist.toNat ≤ s.outLen.toNat)
    (hcap : s.outLen.toNat - s.copyDist.toNat < s.cfg.outCap) :
    copyByteStep s =
      (emit (s.outByte (s.outLen.toNat - s.copyDist.toNat)) .copyEmit s).bind copyCountDown := by
  simp only [copyByteStep, readBack]
  rw [if_neg (by omega)]

theorem copyToken_end {sym x h l : Nat} {s : State} (hlen : copyLength sym x = 519) :
    copyToken sym x h l s = endToken s := if_pos hlen

/-- A COPY token whose length is not the end marker's moves the cursor past itself and starts its copy (42_tokens.md R82 to
R84). -/
theorem copyToken_of {sym x h l : Nat} {s : State} (hlen : copyLength sym x ≠ 519)
    (hk : 1 ≤ lowBitCount (copyLength sym x) s.dictBits.toNat)
    (hc : s.cursor + copyWidth sym h (lowBitCount (copyLength sym x) s.dictBits.toNat) < 2 ^ 35) :
    copyToken sym x h l s =
      copyStart (copyLength sym x) (copyDistance (lowBitCount (copyLength sym x) s.dictBits.toNat) h l)
        (s.movedTo (s.cursor + copyWidth sym h (lowBitCount (copyLength sym x) s.dictBits.toNat))) := by
  simp only [copyToken]
  rw [if_neg (show ¬ copyLength sym x = endLength from hlen), if_neg (by omega), advance_of_lt hc, Micro.bind_ok]

theorem literalToken_of {n : Nat} {v : Byte} {s : State} (hc : s.cursor + n < 2 ^ 35) :
    literalToken n v s = emit v .literalEmit (s.movedTo (s.cursor + n)) := by
  rw [literalToken, advance_of_lt hc, Micro.bind_ok]

theorem copyCountDown_of {s : State} (h : s.copyRem.toNat ≠ 0) : copyCountDown s = .ok (s.copyLeft (s.copyRem - 1)) := by
  have h1 : BitVec.ofNat 10 (s.copyRem.toNat - 1) = s.copyRem - 1 := by
    apply BitVec.eq_of_toNat_eq
    simp
    omega
  rw [copyCountDown, if_neg h, h1]

/-! ## The COPY rows -/

/-- The fields of a COPY row are in the ranges of their widths (30_encoding.md R54). -/
theorem copyParts_range {i : Instr} {sym x h l : Nat} (hi : copyParts i = some (sym, x, h, l)) :
    sym < 16 ∧ x < 2 ^ lenExtra sym ∧ h < 64 ∧ l < 64 ∧ (sym = 1 → l < 4) := by
  cases i <;> simp only [copyParts, Option.some.injEq, Prod.mk.injEq, reduceCtorEq] at hi <;>
    obtain ⟨rfl, rfl, rfl, rfl⟩ := hi <;> simp [lenExtra] <;> omega

/-- Every COPY row runs the copy path on its fields (42_tokens.md R82). -/
theorem exec_copyParts {i : Instr} {sym x h l : Nat} (hi : copyParts i = some (sym, x, h, l)) (s : State) :
    exec i s = (copyToken sym x h l s).toOutcome := by
  cases i <;> simp only [copyParts, Option.some.injEq, Prod.mk.injEq, reduceCtorEq] at hi <;>
    obtain ⟨rfl, rfl, rfl, rfl⟩ := hi <;> rfl

theorem copyLength_bounds {sym x : Nat} (hs : sym < 16) (hx : x < 2 ^ lenExtra sym) :
    2 ≤ copyLength sym x ∧ copyLength sym x ≤ 519 := by
  interval_cases sym <;> simp only [copyLength, lenBase, lenExtra, List.getD] at * <;> simp at * <;> omega

theorem copyLength_eq_two {sym x : Nat} (hs : sym < 16) (hx : x < 2 ^ lenExtra sym) :
    copyLength sym x = 2 ↔ sym = 1 := by
  interval_cases sym <;> simp only [copyLength, lenBase, lenExtra, List.getD] at * <;> simp at * <;> omega

/-- Length value 519 has one symbol and extra value (30_encoding.md R55, R56). -/
theorem copyLength_eq_end {sym x : Nat} (hs : sym < 16) (hx : x < 2 ^ lenExtra sym) :
    copyLength sym x = 519 ↔ sym = 15 ∧ x = 255 := by
  interval_cases sym <;> simp only [copyLength, lenBase, lenExtra, List.getD] at * <;> simp at * <;> omega

theorem copyDistance_lt {k h l : Nat} (hk : k ≤ 7) (hh : h < 64) (hl : l < 64) : copyDistance k h l < 2 ^ 13 := by
  have : h <<< k ≤ 63 * 128 := by
    rw [Nat.shiftLeft_eq]
    exact Nat.mul_le_mul (by omega) (le_trans (Nat.pow_le_pow_right (by omega) hk) (by norm_num))
  simp only [copyDistance]
  omega

end Sys2Proof.Machine
end

