-- ==== Sys2Proof/Laws/Decode.lean ====
section
/-! SUPPORT. What the decoder can answer, said once: over a source with all its bits a token is read whole, or the input runs
out inside it (42_tokens.md R79 to R83, 30_encoding.md R63). -/

namespace Sys2Proof.Machine

open Sys2Proof

/-- The stream of a state whose `IN_LEN` is within `IN_CAP` has all its bits (20_memory.md R38, 40_bit_cursor.md R66). -/
theorem stream_total {s : State} (h : s.inLen.toNat ≤ s.cfg.inCap) : s.stream.total := by
  intro p hp
  simp only [State.stream] at hp ⊢
  rw [if_pos (by omega)]
  rfl

theorem holds_append_of {src : BitSource} {p : Nat} {as bs : List Bool} (ha : src.holds p as)
    (hb : src.holds (p + as.length) bs) : src.holds p (as ++ bs) := by
  obtain ⟨hal, hab⟩ := ha
  obtain ⟨hbl, hbb⟩ := hb
  refine ⟨by simp only [List.length_append]; omega, fun j hj => ?_⟩
  simp only [List.length_append] at hj
  by_cases h : j < as.length
  · rw [hab j h, List.getElem_append_left h]
  · have := hbb (j - as.length) (by omega)
    rw [show p + as.length + (j - as.length) = p + j by omega] at this
    rw [this, List.getElem_append_right (by omega)]

theorem holds_cons_of {src : BitSource} {p : Nat} {b : Bool} {bits : List Bool} (hb : src.bit p = some b)
    (h : src.holds (p + 1) bits) : src.holds p (b :: bits) := by
  obtain ⟨hl, hbits⟩ := h
  refine ⟨by simp only [List.length_cons]; omega, fun j hj => ?_⟩
  cases j with
  | zero => simpa using hb
  | succ j =>
    have := hbits j (by simpa using hj)
    rw [show p + 1 + j = p + (j + 1) by omega] at this
    simpa using this

theorem fieldBits_bitsValue (bits : List Bool) : fieldBits bits.length (bitsValue bits) = bits := by
  apply List.ext_getElem (by simp)
  intro i h1 h2
  simp [fieldBits, testBit_bitsValue, List.getElem?_eq_getElem h2]

/-- The two answers of ReadBits over a source with all its bits (40_bit_cursor.md R69). -/
theorem readBits_cases {src : BitSource} (ht : src.total) {n : Nat} (site : Site) (p : Nat) (h0 : n ≠ 0) (h16 : n ≤ 16) :
    readBits src n site p = .error { kind := .truncatedInput, site := site, pos := p } ∧ src.len - p < n ∨
      ∃ v, readBits src n site p = .ok v (p + n) ∧ v < 2 ^ n ∧ p + n ≤ src.len ∧ src.holds p (fieldBits n v) := by
  rw [readBits_total ht n site p h0 h16]
  split
  · exact .inl ⟨rfl, by assumption⟩
  · refine .inr ⟨_, rfl, ?_, by omega, ?_⟩
    · simpa using bitsValue_lt (src.take p n)
    · have := fieldBits_bitsValue (src.take p n)
      rw [BitSource.take_length] at this
      rw [this]
      exact src.holds_take ht (by omega)

/-- Every length symbol and extra value has its COPY row, with these fields (30_encoding.md R54). -/
theorem copyInstr_parts {sym x : Nat} (h l : BitVec 6) (hs : sym < 16) (hx : x < 2 ^ lenExtra sym)
    (hl : sym = 1 → l.toNat < 4) :
    ∃ i, copyInstr sym x h l = some i ∧ copyParts i = some (sym, x, h.toNat, l.toNat) := by
  interval_cases sym <;> simp only [lenExtra, List.getD] at hx <;> simp at hx <;>
    refine ⟨_, rfl, ?_⟩ <;> simp [copyParts] <;> omega

/-- `DICT_BITS` of an accepted preamble is 4, 5 or 6 (10_state.md R19). -/
theorem dictAccepted_iff {c : Context} : c.dictAccepted = true ↔ c.dictBits = 4 ∨ c.dictBits = 5 ∨ c.dictBits = 6 := by
  simp [Context.dictAccepted, or_assoc]

theorem dictAccepted_bounds {c : Context} (h : c.dictAccepted = true) : 4 ≤ c.dictBits.toNat ∧ c.dictBits.toNat ≤ 6 := by
  rcases dictAccepted_iff.mp h with h | h | h <;> rw [h] <;> decide

theorem lowBitCount_bounds {c : Context} (h : c.dictAccepted = true) (len : Nat) :
    2 ≤ lowBitCount len c.dictBits.toNat ∧ lowBitCount len c.dictBits.toNat ≤ 6 := by
  have := dictAccepted_bounds h
  simp only [lowBitCount]
  split <;> omega

/-- A length code with its extra bits is at most 15 bits long (30_encoding.md R59, R64). -/
theorem lenCode_extra_le {sym : Nat} (h : sym < 16) : lenTable.codeLen sym + lenExtra sym ≤ 15 := by
  revert sym
  decide

/-- What reading a token at `p` can answer over a source with all its bits: a token of one of the formats of 30_encoding.md
R52 to R55 that ends inside the source, or TruncatedInput less than 30 bits before its end. -/
inductive TokenRead (c : Context) (src : BitSource) (p : Nat) : Read Instr → Prop where
  | litRaw (v : Byte) : c.litMode = 0 → p + 9 ≤ src.len → TokenRead c src p (.ok (.litRaw v) (p + 9))
  | litCoded (v : Byte) : c.litMode = 1 → p + litCodedWidth v ≤ src.len →
      TokenRead c src p (.ok (.litCoded v) (p + litCodedWidth v))
  | endMark : p + 16 ≤ src.len → TokenRead c src p (.ok .endMark (p + 16))
  | copy (i : Instr) (sym x h l k : Nat) : copyParts i = some (sym, x, h, l) → copyLength sym x ≠ 519 →
      k = lowBitCount (copyLength sym x) c.dictBits.toNat → l < 2 ^ k → p + copyWidth sym h k ≤ src.len →
      TokenRead c src p (.ok i (p + copyWidth sym h k))
  | truncated (site : Site) (q : Nat) : p ≤ q → q ≤ src.len → src.len < p + 30 →
      TokenRead c src p (.error { kind := .truncatedInput, site := site, pos := q })

/-- The length extra bits, whether the symbol has any or not (42_tokens.md R82). -/
theorem readExtra_cases {src : BitSource} (ht : src.total) {sym : Nat} (p : Nat) (hs : sym < 16) (hp : p ≤ src.len) :
    readExtra src sym p = .error { kind := .truncatedInput, site := .lengthExtra, pos := p } ∧
        src.len < p + lenExtra sym ∨
      ∃ x, readExtra src sym p = .ok x (p + lenExtra sym) ∧ x < 2 ^ lenExtra sym ∧ p + lenExtra sym ≤ src.len ∧
        src.holds p (fieldBits (lenExtra sym) x) := by
  unfold readExtra
  split
  · rename_i he
    exact .inr ⟨0, by simp [he], by simp [he], by omega, by simp [he, fieldBits, BitSource.holds, hp]⟩
  · rename_i he
    have := lenCode_extra_le hs
    rcases readBits_cases ht .lengthExtra p he (by omega) with ⟨h, hl⟩ | h
    · exact .inl ⟨h, by omega⟩
    · exact .inr h

/-- Reading a token, whole (42_tokens.md R79 to R83). -/
theorem decodeToken_read {c : Context} {src : BitSource} {p : Nat} (hd : c.dictAccepted = true) (ht : src.total)
    (hp : p ≤ src.len) : TokenRead c src p (decodeToken c src p) := by
  unfold decodeToken
  rcases readBits_cases ht .controlBit p (n := 1) (by omega) (by omega) with ⟨h, _⟩ | ⟨ctl, h, _, _, _⟩
  · rw [h]
    exact .truncated _ _ le_rfl hp (by omega)
  rw [h, Read.bind_ok]
  split
  · unfold decodeLiteral
    split
    · rename_i hm
      rcases readBits_cases ht .literal (p + 1) (n := 8) (by omega) (by omega) with ⟨h, _⟩ | ⟨v, h, _, _, _⟩
      · rw [h]
        exact .truncated _ _ (by omega) (by omega) (by omega)
      · rw [h, Read.bind_ok, show p + 1 + 8 = p + 9 by omega]
        exact .litRaw _ hm (by omega)
    · rename_i hm
      have hm : c.litMode = 1 := by
        rcases BitVec.eq_zero_or_eq_one c.litMode with h | h
        · exact absurd h hm
        · exact h
      rcases decodeSymbol_total litTable_sound ht .literal (p + 1) with ⟨h, _⟩ | ⟨v, hv, h, hf⟩
      · rw [h]
        have : litTable.maxLen = 13 := rfl
        exact .truncated _ _ (by omega) (by omega) (by omega)
      · rw [h, Read.bind_ok]
        have hfl := hf.1
        simp only [streamCode_length] at hfl
        have hv2 : (BitVec.ofNat 8 v).toNat = v := by simp; omega
        have := TokenRead.litCoded (c := c) (src := src) (p := p) (BitVec.ofNat 8 v) hm
          (by rw [litCodedWidth, hv2]; omega)
        rwa [litCodedWidth, hv2, ← Nat.add_assoc] at this
  · unfold decodeCopyPath
    rcases decodeSymbol_total lenTable_sound ht .lengthCode (p + 1) with ⟨h, _⟩ | ⟨sym, hs, h, hf⟩
    · rw [h]
      have : lenTable.maxLen = 7 := rfl
      exact .truncated _ _ (by omega) (by omega) (by omega)
    rw [h, Read.bind_ok]
    have hle := lenCode_extra_le hs
    have hfl := hf.1
    simp only [streamCode_length] at hfl
    rcases readExtra_cases ht (p + 1 + lenTable.codeLen sym) hs hfl with ⟨h, _⟩ | ⟨x, h, hx, hlx, _⟩
    · rw [h]
      exact .truncated _ _ (by omega) (by omega) (by omega)
    rw [h, Read.bind_ok]
    split
    · rename_i hend
      obtain ⟨rfl, rfl⟩ := (copyLength_eq_end hs hx).mp hend
      have e : lenTable.codeLen 15 = 7 := by decide
      have e2 : lenExtra 15 = 8 := rfl
      rw [e, e2] at hlx ⊢
      exact .endMark (by omega)
    · rename_i hend
      unfold decodeDistance
      have hmax : distTable.maxLen = 8 := rfl
      rcases decodeSymbol_total distTable_sound ht .distanceCode (p + 1 + lenTable.codeLen sym + lenExtra sym) with
        ⟨h, _⟩ | ⟨d, hd64, h, hfd⟩
      · rw [h]
        exact .truncated _ _ (by omega) (by omega) (by omega)
      rw [h, Read.bind_ok]
      have hdl := distTable_sound.codeLen_le d hd64
      have hfdl := hfd.1
      simp only [streamCode_length] at hfdl
      obtain ⟨hk1, hk2⟩ := lowBitCount_bounds hd (copyLength sym x)
      rcases readBits_cases ht .distanceLow (p + 1 + lenTable.codeLen sym + lenExtra sym + distTable.codeLen d)
        (n := lowBitCount (copyLength sym x) c.dictBits.toNat) (by omega) (by omega) with ⟨h, _⟩ | ⟨l, h, hl, _, _⟩
      · rw [h]
        exact .truncated _ _ (by omega) (by omega) (by omega)
      rw [h, Read.bind_ok]
      have hl64 : l < 64 := lt_of_lt_of_le hl (le_trans (Nat.pow_le_pow_right (by omega) hk2) (by norm_num))
      rw [if_neg (by omega)]
      have e1 : (BitVec.ofNat 6 d).toNat = d := by simp; omega
      have e2 : (BitVec.ofNat 6 l).toNat = l := by simp; omega
      have hl1 : sym = 1 → l < 4 := by
        intro h1
        rw [(copyLength_eq_two hs hx).mpr h1] at hl
        simpa [lowBitCount] using hl
      obtain ⟨i, hi, hparts⟩ := copyInstr_parts (BitVec.ofNat 6 d) (BitVec.ofNat 6 l) hs hx (by rwa [e2])
      rw [hi]
      rw [e1, e2] at hparts
      have := TokenRead.copy (c := c) (p := p) (src := src) i sym x d l _ hparts hend rfl hl
        (by unfold copyWidth; omega)
      simpa [copyWidth, Nat.add_assoc] using this

end Sys2Proof.Machine
end

