-- ==== Sys2Proof/Laws/Encode.lean ====
section
/-! SUPPORT. The COPY rows on their fields: how many low bits a row has, when it is well-formed, how it is encoded and how wide
it is (30_encoding.md R54 to R56, R64). -/

namespace Sys2Proof.Machine

open Sys2Proof

/-- k by the length symbol: only symbol 1 has length 2 (30_encoding.md R56). -/
theorem lowBitCount_sym {sym x : Nat} (d : Nat) (hs : sym < 16) (hx : x < 2 ^ lenExtra sym) :
    lowBitCount (copyLength sym x) d = if sym = 1 then 2 else d := by
  simp [lowBitCount, copyLength_eq_two hs hx]

/-- The stream bits of a COPY row (30_encoding.md R54). -/
theorem encode_copyParts {c : Context} {i : Instr} {sym x h l : Nat} (hi : copyParts i = some (sym, x, h, l)) :
    (encode c i).bits = copyBits sym x h (lowBitCount (copyLength sym x) c.dictBits.toNat) l := by
  obtain ⟨h1, h2, -⟩ := copyParts_range hi
  rw [lowBitCount_sym _ h1 h2]
  cases i <;> simp only [copyParts, Option.some.injEq, Prod.mk.injEq, reduceCtorEq] at hi <;>
    obtain ⟨rfl, rfl, rfl, rfl⟩ := hi <;> rfl

/-- When a COPY row is well-formed (30_encoding.md R54, R55). -/
theorem wellFormed_copyParts {c : Context} {i : Instr} {sym x h l : Nat} (hi : copyParts i = some (sym, x, h, l)) :
    wellFormed c i = true ↔
      copyLength sym x ≠ 519 ∧ (sym ≠ 1 → c.dictAccepted = true) ∧
        l < 2 ^ lowBitCount (copyLength sym x) c.dictBits.toNat := by
  obtain ⟨h1, h2, -⟩ := copyParts_range hi
  rw [lowBitCount_sym _ h1 h2, Ne, copyLength_eq_end h1 h2]
  cases i <;> simp only [copyParts, Option.some.injEq, Prod.mk.injEq, reduceCtorEq] at hi <;>
    obtain ⟨rfl, rfl, rfl, rfl⟩ := hi <;>
    simp [wellFormed, Context.lowFits]
  · omega
  · intro _ _
    constructor
    · intro hne heq
      exact hne (BitVec.eq_of_toNat_eq heq)
    · intro hne heq
      exact hne (by rw [heq]; rfl)

/-- The width of a COPY row (30_encoding.md R54, R64). -/
theorem instrWidth_copyParts {i : Instr} {sym x h l : Nat} (d : Nat) (hi : copyParts i = some (sym, x, h, l)) :
    instrWidth d i = copyWidth sym h (lowBitCount (copyLength sym x) d) := by
  obtain ⟨h1, h2, -⟩ := copyParts_range hi
  rw [lowBitCount_sym _ h1 h2]
  cases i <;> simp only [copyParts, Option.some.injEq, Prod.mk.injEq, reduceCtorEq] at hi <;>
    obtain ⟨rfl, rfl, rfl, rfl⟩ := hi <;> rfl

/-- The capacities do not enter an encoding (30_encoding.md R64). -/
theorem encode_config (c : Context) (cfg : Config) (i : Instr) : encode { c with cfg := cfg } i = encode c i := by
  cases i <;> rfl

end Sys2Proof.Machine
end

