-- ==== Sys2Proof/Laws/PerInstr.lean ====
section
/-! SUPPORT. Statements made per instruction. EncodingWidth: an instruction's encoding has as many stream bits as the meanings
move the cursor by (30_encoding.md R50 to R55, R64), and none when it is a host operation. -/

namespace Sys2Proof.Laws

open Sys2Proof.Machine

theorem copyBits_length (s x h k l : Nat) : (copyBits s x h k l).length = copyWidth s h k := by
  simp [copyBits, copyWidth]
  omega

theorem preambleBits_length (f d : Nat) : (preambleBits f d).length = preambleWidth := by
  simp [preambleBits, preambleWidth]

namespace EncodingWidth

/-- The encoding has the instruction's width. -/
def Statement (i : Instr) : Prop := ∀ c : Context, (encode c i).bits.length = instrWidth c.dictBits.toNat i

theorem preD4 (f : BitVec 1) : Statement (Instr.preD4 f) := fun _ => preambleBits_length _ _

theorem preD5 (f : BitVec 1) : Statement (Instr.preD5 f) := fun _ => preambleBits_length _ _

theorem preD6 (f : BitVec 1) : Statement (Instr.preD6 f) := fun _ => preambleBits_length _ _

theorem litRaw (v : Byte) : Statement (Instr.litRaw v) := fun _ => by simp [encode, Encoded.bits, instrWidth, litRawWidth]

theorem litCoded (v : Byte) : Statement (Instr.litCoded v) := fun _ => by simp [encode, Encoded.bits, instrWidth, litCodedWidth, Nat.add_comm]

theorem copyS0 (h : BitVec 6) (l : BitVec 6) : Statement (Instr.copyS0 h l) := fun _ => copyBits_length _ _ _ _ _

theorem copyS1 (h : BitVec 6) (l : BitVec 2) : Statement (Instr.copyS1 h l) := fun _ => copyBits_length _ _ _ _ _

theorem copyS2 (h : BitVec 6) (l : BitVec 6) : Statement (Instr.copyS2 h l) := fun _ => copyBits_length _ _ _ _ _

theorem copyS3 (h : BitVec 6) (l : BitVec 6) : Statement (Instr.copyS3 h l) := fun _ => copyBits_length _ _ _ _ _

theorem copyS4 (h : BitVec 6) (l : BitVec 6) : Statement (Instr.copyS4 h l) := fun _ => copyBits_length _ _ _ _ _

theorem copyS5 (h : BitVec 6) (l : BitVec 6) : Statement (Instr.copyS5 h l) := fun _ => copyBits_length _ _ _ _ _

theorem copyS6 (h : BitVec 6) (l : BitVec 6) : Statement (Instr.copyS6 h l) := fun _ => copyBits_length _ _ _ _ _

theorem copyS7 (h : BitVec 6) (l : BitVec 6) : Statement (Instr.copyS7 h l) := fun _ => copyBits_length _ _ _ _ _

theorem copyS8 (x : BitVec 1) (h : BitVec 6) (l : BitVec 6) : Statement (Instr.copyS8 x h l) := fun _ => copyBits_length _ _ _ _ _

theorem copyS9 (x : BitVec 2) (h : BitVec 6) (l : BitVec 6) : Statement (Instr.copyS9 x h l) := fun _ => copyBits_length _ _ _ _ _

theorem copyS10 (x : BitVec 3) (h : BitVec 6) (l : BitVec 6) : Statement (Instr.copyS10 x h l) := fun _ => copyBits_length _ _ _ _ _

theorem copyS11 (x : BitVec 4) (h : BitVec 6) (l : BitVec 6) : Statement (Instr.copyS11 x h l) := fun _ => copyBits_length _ _ _ _ _

theorem copyS12 (x : BitVec 5) (h : BitVec 6) (l : BitVec 6) : Statement (Instr.copyS12 x h l) := fun _ => copyBits_length _ _ _ _ _

theorem copyS13 (x : BitVec 6) (h : BitVec 6) (l : BitVec 6) : Statement (Instr.copyS13 x h l) := fun _ => copyBits_length _ _ _ _ _

theorem copyS14 (x : BitVec 7) (h : BitVec 6) (l : BitVec 6) : Statement (Instr.copyS14 x h l) := fun _ => copyBits_length _ _ _ _ _

theorem copyS15 (x : BitVec 8) (h : BitVec 6) (l : BitVec 6) : Statement (Instr.copyS15 x h l) := fun _ => copyBits_length _ _ _ _ _

theorem endMark : Statement Instr.endMark := fun _ => by simp [encode, Encoded.bits, instrWidth, endWidth, lenExtra]; omega

theorem start (v : Word) : Statement (Instr.start v) := fun _ => rfl

theorem regRead (off : Nat) : Statement (Instr.regRead off) := fun _ => rfl

theorem regWrite (off : Nat) (v : Word) : Statement (Instr.regWrite off v) := fun _ => rfl

theorem inWrite (a : Nat) (b : Byte) : Statement (Instr.inWrite a b) := fun _ => rfl

theorem inRead (a : Nat) : Statement (Instr.inRead a) := fun _ => rfl

theorem outRead (a : Nat) : Statement (Instr.outRead a) := fun _ => rfl

end EncodingWidth

end Sys2Proof.Laws
end

