-- ==== Sys2Proof/Laws/Run.lean ====
section
/-! SUPPORT. How runs of several steps are put together. -/

namespace Sys2Proof.Machine

open Sys2Proof

/-- One more step at the front of a run, on any machine. -/
theorem run_front (M : Host.Core) (n : Nat) (s : M.State) :
    M.run (n + 1) s = match M.step s with
      | .next t => M.run n t
      | .fault f => .fault f
      | .refused r => .refused r := rfl

theorem runsTo_zero (s : State) : runsTo 0 s s := rfl

theorem runsTo_zero_eq {s t : State} (h : runsTo 0 s t) : s = t := Host.Outcome.next.inj h

theorem runsTo_succ {n : Nat} {s t u : State} (h : step s = .next t) (hrun : runsTo n t u) : runsTo (n + 1) s u := by
  have hstep : Sys2Proof.core.step s = .next t := h
  refine (run_front Sys2Proof.core n s).trans ?_
  rw [hstep]
  exact hrun

theorem runsTo_one {s t : State} (h : step s = .next t) : runsTo 1 s t := runsTo_succ h (runsTo_zero t)

/-- The first step of a run of at least one step. -/
theorem runsTo_front {n : Nat} {s u : State} (h : runsTo (n + 1) s u) : ∃ t, step s = .next t ∧ runsTo n t u := by
  have h' := (run_front Sys2Proof.core n s).symm.trans h
  cases hstep : Sys2Proof.core.step s with
  | next t => rw [hstep] at h'; exact ⟨t, hstep, h'⟩
  | fault f => rw [hstep] at h'; cases h'
  | refused r => rw [hstep] at h'; cases h'

theorem runsTo_trans {m n : Nat} {s t u : State} (h : runsTo m s t) (hrun : runsTo n t u) : runsTo (m + n) s u := by
  induction m generalizing s with
  | zero => rw [runsTo_zero_eq h, Nat.zero_add]; exact hrun
  | succ m ih =>
    obtain ⟨v, hv, hvt⟩ := runsTo_front h
    rw [show m + 1 + n = m + n + 1 by omega]
    exact runsTo_succ hv (ih hvt)

end Sys2Proof.Machine
end

