-- ==== Sys2Proof/Laws/Step.lean ====
section
/-! SUPPORT. What a step is for each first turn of the agenda, what the engine's step is in each phase, and which requests decode
to which host operation. -/

namespace Sys2Proof.Machine

open Sys2Proof

theorem step_nil {s : State} (h : s.agenda = []) : step s = engineStep s := by simp [step, takeTurn, h]

theorem step_engine {s : State} {rest : List Turn} (h : s.agenda = .engine :: rest) :
    step s = engineStep (s.withAgenda rest) := by simp [step, takeTurn, h]

theorem step_host {s : State} {r : HostRequest} {rest : List Turn} (h : s.agenda = .host r :: rest) :
    step s = hostTurn r (s.withAgenda rest) := by simp [step, takeTurn, h]

theorem step_reset {s : State} {rest : List Turn} (h : s.agenda = .reset :: rest) :
    step s = .next (s.withAgenda rest).afterReset := by simp [step, takeTurn, h]

/-- The engine is quiescent outside a run (42_tokens.md R88). -/
theorem engineStep_stopped {s : State} (h : s.runState ≠ .busy) : engineStep s = .next s := by
  unfold engineStep
  split
  · contradiction
  · rfl
  · rfl
  · rfl

theorem engineStep_pre {s : State} (hb : s.runState = .busy) (hp : s.phase = .pre) :
    engineStep s = runDecoded s (decodePreamble s.stream s.cursor) := by
  simp only [engineStep, hb, hp]

theorem engineStep_token {s : State} (hb : s.runState = .busy) (hp : s.phase = .token) :
    engineStep s = runDecoded s (decodeToken s.context s.stream s.cursor) := by
  simp only [engineStep, hb, hp]

theorem engineStep_copy {s : State} (hb : s.runState = .busy) (hp : s.phase = .copy) :
    engineStep s = (copyByteStep s).toOutcome := by
  simp only [engineStep, hb, hp]

/-- The register requests that are operations (43_host_commands.md R91, R98; log 19). -/
theorem decodeRegRequest_ok {r : HostRequest} {i : Instr} (h : decodeRegRequest r = .ok i) :
    r.bytes = 4 ∧ r.addr % 4 = 0 ∧
      (r.write = true → i = if r.addr = 0 ∧ r.data.getLsbD 0 = true then .start r.data else .regWrite r.addr r.data) ∧
      (r.write = false → i = .regRead r.addr) := by
  unfold decodeRegRequest at h
  split at h
  · cases h
  split at h
  · cases h
  refine ⟨by omega, by omega, fun hw => ?_, fun hw => ?_⟩
  · rw [if_pos hw] at h
    split at h <;> rename_i hh <;> cases h
    · rw [if_pos hh]
    · rw [if_neg hh]
  · rw [if_neg (by simp [hw])] at h
    cases h
    rfl

/-- The requests that are operations of the block, and which (43_host_commands.md R91, R98). -/
inductive HostDecoded (r : HostRequest) : Instr → Prop where
  | start : r.space = .reg → r.bytes = 4 → r.write = true → r.addr = 0 → r.data.getLsbD 0 = true →
      HostDecoded r (.start r.data)
  | regWrite : r.space = .reg → r.bytes = 4 → r.write = true → r.addr % 4 = 0 →
      ¬ (r.addr = 0 ∧ r.data.getLsbD 0 = true) → HostDecoded r (.regWrite r.addr r.data)
  | regRead : r.space = .reg → r.bytes = 4 → r.write = false → r.addr % 4 = 0 → HostDecoded r (.regRead r.addr)
  | inWrite : r.space = .input → r.bytes = 1 → r.write = true →
      HostDecoded r (.inWrite r.addr (r.data.setWidth 8))
  | inRead : r.space = .input → r.bytes = 1 → r.write = false → HostDecoded r (.inRead r.addr)
  | outRead : r.space = .output → r.bytes = 1 → r.write = false → HostDecoded r (.outRead r.addr)

theorem decodeHost_ok {r : HostRequest} {i : Instr} (h : decodeHost r = .ok i) : HostDecoded r i := by
  unfold decodeHost at h
  split at h
  · rename_i hs
    obtain ⟨h4, ha, hw, hr⟩ := decodeRegRequest_ok h
    cases hwr : r.write
    · rw [hr hwr]
      exact .regRead hs h4 hwr ha
    · rw [hw hwr]
      split
      · rename_i hh
        exact .start hs h4 hwr hh.1 hh.2
      · rename_i hh
        exact .regWrite hs h4 hwr ha hh
  · rename_i hs
    split at h
    · cases h
    cases hwr : r.write
    · rw [if_neg (by simp [hwr])] at h
      cases h
      exact .inRead hs (by omega) hwr
    · rw [if_pos hwr] at h
      cases h
      exact .inWrite hs (by omega) hwr
  · rename_i hs
    split at h
    · cases h
    split at h
    · cases h
    cases h
    exact .outRead hs (by omega) (by simp_all)
  · cases h

end Sys2Proof.Machine
end

