-- ==== Sys2Proof/Tests/Slice0.lean ====
section
/-! SUPPORT. The model's own tests, each on one word or one step: what WellFormed refuses, what the decoder reads from words
written out from the spec's encodings, what one step of each instruction leaves, and for every obligation with hypotheses one
theorem `witness_…` that meets them all. Each comment names where the expected value comes from. -/

namespace Sys2Proof.Tests

open Sys2Proof Sys2Proof.Machine

-- The tests are checked one after another: kernel evaluations side by side would each hold a thread of their own.
set_option Elab.async false

/-! ## Helpers -/

/-- A small machine: `IN_CAP` 1024 (the example of R93), `OUT_CAP` 8. -/
def small : Config := { inCap := 1024, outCap := 8 }

/-- Stream bits as the spec's tables write them, first-read bit first. -/
def digits (bits : List Nat) : List Bool := bits.map (· == 1)

/-- A stream of exactly these bits. -/
def listSource (bits : List Bool) : BitSource where
  bit p := bits[p]?
  len := bits.length

theorem listSource_total (bits : List Bool) : (listSource bits).total := fun p hp => by
  simpa [listSource] using hp

theorem listSource_holds (bits : List Bool) : (listSource bits).holds 0 bits :=
  ⟨by simp [listSource], fun j hj => by simp [listSource, hj]⟩

def raw4 : Context := { litMode := 0, dictBits := 4, cfg := small }
def coded4 : Context := { litMode := 1, dictBits := 4, cfg := small }
def raw6 : Context := { litMode := 0, dictBits := 6, cfg := small }
def unread : Context := { litMode := 0, dictBits := 0, cfg := small }

/-- The token read from these bits, in context `c`. -/
def readToken (c : Context) (bits : List Nat) : Read Instr := decodeToken c (listSource (digits bits)) 0

/-- Bytes written from address 0 on. -/
def cells (bytes : List Nat) : Memory := (List.range bytes.length).zip (bytes.map (BitVec.ofNat 8))

/-- No run yet. -/
def idle : State := State.resetWith small

/-- Right after START on a block of these bytes. -/
def begun (block : List Nat) : State :=
  { idle with runState := .busy, inLen := BitVec.ofNat 32 block.length, inMem := cells block }

/-- After the preamble `00 04` of a block of these bytes, with these bytes already emitted. -/
def reading (block out : List Nat) : State :=
  { begun block with phase := .token, preValid := 1, dictBits := 4, preDict := 4, curByte := 2,
                     outLen := BitVec.ofNat 32 out.length, outMem := cells out }

/-- In the middle of a copy. -/
def inCopy (out : List Nat) (rem : BitVec 10) (dist : BitVec 13) : State :=
  { reading [0, 4] out with phase := .copy, copyRem := rem, copyDist := dist }

/-- The next state, where the machine goes on. -/
def after (r : StepResult) : Option State :=
  match r with
  | .next t => some t
  | .fault _ => none
  | .refused _ => none

/-- A host access as a state's next turn. -/
def asked (s : State) (r : HostRequest) : State := { s with agenda := [.host r] }

/-! ## WellFormed refuses each ill-formed term -/

theorem test_wf_litRaw_needs_mode_0 : wellFormed coded4 (.litRaw 0x41) = false := by decide
theorem test_wf_litCoded_needs_mode_1 : wellFormed raw4 (.litCoded 0x41) = false := by decide
theorem test_wf_copy_low_bits_fit :
    [Instr.copyS0 0 16, .copyS2 0 16, .copyS3 0 16, .copyS4 0 16, .copyS5 0 16, .copyS6 0 16, .copyS7 0 16, .copyS8 0 0 16,
      .copyS9 0 0 16, .copyS10 0 0 16, .copyS11 0 0 16, .copyS12 0 0 16, .copyS13 0 0 16, .copyS14 0 0 16,
      .copyS15 0 0 16].all (fun i => !wellFormed raw4 i) = true := by decide
theorem test_wf_copy_needs_a_preamble : wellFormed unread (.copyS0 0 0) = false := by decide
theorem test_wf_copyS15_not_end : wellFormed raw4 (.copyS15 255 0 0) = false := by decide
theorem test_wf_start_needs_bit_0 : wellFormed raw4 (.start 2) = false := by decide
theorem test_wf_regRead_aligned : wellFormed raw4 (.regRead 2) = false := by decide
theorem test_wf_regWrite_aligned : wellFormed raw4 (.regWrite 9 0) = false := by decide
theorem test_wf_regWrite_is_not_start : wellFormed raw4 (.regWrite 0 1) = false := by decide
theorem test_wf_inWrite_below_cap : wellFormed raw4 (.inWrite 1024 0) = false := by decide
theorem test_wf_inRead_below_cap : wellFormed raw4 (.inRead 1024) = false := by decide
theorem test_wf_outRead_below_cap : wellFormed raw4 (.outRead 8) = false := by decide

/-! ## Decoding: every constructor, from bits written out as the spec's tables have them -/

/-- R50: byte 0 is the flag, byte 1 the dictionary byte, first-read bit is bit 0. -/
theorem test_decode_preambles :
    decodePreamble (listSource (digits [0, 0, 0, 0, 0, 0, 0, 0, 0, 0, 1, 0, 0, 0, 0, 0])) 0 = .ok (.preD4 0) 16 ∧
      decodePreamble (listSource (digits [1, 0, 0, 0, 0, 0, 0, 0, 1, 0, 1, 0, 0, 0, 0, 0])) 0 = .ok (.preD5 1) 16 ∧
      decodePreamble (listSource (digits [1, 0, 0, 0, 0, 0, 0, 0, 0, 1, 1, 0, 0, 0, 0, 0])) 0 = .ok (.preD6 1) 16 := by
  decide +kernel

/-- V-L2-13: flag byte 7 alone is refused before the second byte is wanted; dictionary byte 7 is refused. -/
theorem test_decode_preamble_refused :
    decodePreamble (listSource (digits [1, 1, 1, 0, 0, 0, 0, 0])) 0 =
        .error { kind := .invalidCode, site := .preambleFlag, pos := 8, preFlag := some 7 } ∧
      decodePreamble (listSource (digits [0, 0, 0, 0, 0, 0, 0, 0, 1, 1, 1, 0, 0, 0, 0, 0])) 0 =
        .error { kind := .invalidCode, site := .preambleDict, pos := 16, preFlag := some 0, preDict := some 7 } := by
  decide +kernel

/-- V-L2-14. -/
theorem test_decode_litRaw :
    readToken raw4 [0, 1, 0, 0, 0, 0, 0, 1, 0] = .ok (.litRaw 0x41) 9 ∧
      readToken raw4 [0, 1, 1, 1, 1, 1, 1, 1, 1] = .ok (.litRaw 0xFF) 9 := by decide +kernel

/-- V-L2-15. -/
theorem test_decode_litCoded :
    readToken coded4 [0, 1, 1, 1, 1] = .ok (.litCoded 0x20) 5 ∧
      readToken coded4 [0, 1, 0, 0, 0, 1, 1] = .ok (.litCoded 0x41) 7 ∧
      readToken coded4 [0, 0, 0, 0, 0, 0, 0, 1, 0, 0, 1, 0, 0, 1] = .ok (.litCoded 0x1A) 14 ∧
      readToken coded4 [0, 0, 0, 0, 0, 0, 0, 0, 0, 0, 0, 0, 0, 0] = .ok (.litCoded 0xFF) 14 := by decide +kernel

/-- V-L2-16 (lengths 3, 2, 4) and R59 (length 5), distance symbols of R60. -/
theorem test_decode_copyS0_to_S3 :
    readToken raw4 [1, 1, 1, 1, 0, 1, 1, 0, 0, 0, 0] = .ok (.copyS0 1 0) 11 ∧
      readToken raw4 [1, 1, 0, 1, 0, 0, 0, 0, 0, 0, 0, 0, 1, 1] = .ok (.copyS1 63 3) 14 ∧
      readToken raw4 [1, 1, 0, 0, 1, 1, 0, 0, 0, 0] = .ok (.copyS2 0 0) 10 ∧
      readToken raw4 [1, 0, 1, 1, 1, 0, 0, 1, 1, 1, 0, 0, 0] = .ok (.copyS3 3 1) 13 := by decide +kernel

/-- R59: lengths 6 to 9 with distance symbol 0 (R60), low bits 0001, first bit bit 0 (R54). -/
theorem test_decode_copyS4_to_S7 :
    readToken raw4 [1, 0, 1, 0, 1, 1, 1, 0, 0, 0, 1] = .ok (.copyS4 0 8) 11 ∧
      readToken raw4 [1, 0, 1, 0, 0, 1, 1, 0, 0, 0, 1] = .ok (.copyS5 0 8) 11 ∧
      readToken raw4 [1, 0, 0, 1, 1, 1, 1, 0, 0, 0, 1] = .ok (.copyS6 0 8) 11 ∧
      readToken raw4 [1, 0, 0, 1, 0, 1, 1, 1, 0, 0, 0, 1] = .ok (.copyS7 0 8) 12 := by decide +kernel

/-- V-L2-16 (lengths 11, 24) and R59: extra bits first-read bit is bit 0. -/
theorem test_decode_copyS8_to_S11 :
    readToken raw4 [1, 0, 0, 1, 0, 0, 1, 1, 1, 1, 0, 0, 0] = .ok (.copyS8 1 0 1) 13 ∧
      readToken raw4 [1, 0, 0, 0, 1, 1, 1, 0, 1, 1, 0, 0, 0, 0] = .ok (.copyS9 1 0 0) 14 ∧
      readToken raw4 [1, 0, 0, 0, 1, 0, 0, 0, 1, 1, 1, 0, 0, 0, 0] = .ok (.copyS10 4 0 0) 15 ∧
      readToken raw4 [1, 0, 0, 0, 0, 1, 1, 0, 0, 0, 0, 1, 1, 0, 0, 0, 0] = .ok (.copyS11 0 0 0) 17 := by decide +kernel

/-- V-L2-16 (lengths 135, 136, 518, distance 4096 with `DICT_BITS` 6) and R59 (symbol 12). -/
theorem test_decode_copyS12_to_S15 :
    readToken raw4 [1, 0, 0, 0, 0, 1, 0, 1, 0, 0, 0, 0, 1, 1, 0, 0, 0, 0] = .ok (.copyS12 1 0 0) 18 ∧
      readToken raw4 [1, 0, 0, 0, 0, 0, 1, 1, 1, 1, 1, 1, 1, 1, 1, 0, 0, 0, 0] = .ok (.copyS13 63 0 0) 19 ∧
      readToken raw4 [1, 0, 0, 0, 0, 0, 0, 1, 0, 0, 0, 0, 0, 0, 0, 1, 1, 0, 0, 0, 0] = .ok (.copyS14 0 0 0) 21 ∧
      readToken raw6 [1, 0, 0, 0, 0, 0, 0, 0, 0, 1, 1, 1, 1, 1, 1, 1, 0, 0, 0, 0, 0, 0, 0, 0, 1, 1, 1, 1, 1, 1] =
        .ok (.copyS15 254 63 63) 30 := by decide +kernel

/-- R55. -/
theorem test_decode_end :
    readToken raw4 [1, 0, 0, 0, 0, 0, 0, 0, 1, 1, 1, 1, 1, 1, 1, 1] = .ok .endMark 16 := by decide +kernel

/-- R91, R94: a whole 32-bit write of 1 to offset 0 is START, any other register write REG_WRITE. -/
theorem test_decode_host :
    decodeHost { space := .reg, write := true, bytes := 4, addr := 0, data := 1 } = .ok (.start 1) ∧
      decodeHost { space := .reg, write := true, bytes := 4, addr := 8, data := 1 } = .ok (.regWrite 8 1) ∧
      decodeHost { space := .reg, write := false, bytes := 4, addr := 4, data := 0 } = .ok (.regRead 4) ∧
      decodeHost { space := .input, write := true, bytes := 1, addr := 1, data := 4 } = .ok (.inWrite 1 4) ∧
      decodeHost { space := .input, write := false, bytes := 1, addr := 1, data := 0 } = .ok (.inRead 1) ∧
      decodeHost { space := .output, write := false, bytes := 1, addr := 12, data := 0 } = .ok (.outRead 12) := by decide

/-- R98. -/
theorem test_host_refused :
    decodeHost { space := .reg, write := false, bytes := 1, addr := 4, data := 0 } = .error .regNotWholeWord ∧
      decodeHost { space := .reg, write := false, bytes := 4, addr := 6, data := 0 } = .error .regMisaligned ∧
      decodeHost { space := .output, write := true, bytes := 1, addr := 0, data := 0 } = .error .outNotWritable ∧
      decodeHost { space := .rom, write := true, bytes := 1, addr := 0, data := 0 } = .error .romNotReachable := by decide

/-- 30_encoding.md R65 and V-GK-1: the bytes of program P1. -/
theorem test_stream_bytes :
    streamBytes false 0 4 [.lit 0x41, .lit 0x49, .copy 11 2, .finish] = [0x00, 0x04, 0x82, 0x24, 0x25, 0x8F, 0x80, 0x7F] := by
  decide +kernel

/-! ## The bit cursor and the code tables -/

/-- V-L2-3, V-L2-4: IN = B5 3C. -/
theorem test_readBits :
    readBits (begun [0xB5, 0x3C]).stream 3 .literal 0 = .ok 5 3 ∧
      readBits (begun [0xB5, 0x3C]).stream 8 .literal 3 = .ok 0x96 11 ∧
      readBits (begun [0xB5, 0x3C]).stream 6 .literal 11 =
        .error { kind := .truncatedInput, site := .literal, pos := 11 } ∧
      peekBits (begun [0xB5, 0x3C]).stream 5 .literal 11 = .ok 7 11 := by decide +kernel

/-- V-L2-5. -/
theorem test_readBits_over_three_bytes :
    readBits (begun [0x80, 0xFF, 0x00]).stream 16 .literal 7 = .ok 0x01FF 23 := by decide +kernel

/-- V-L2-8, V-L2-9b, V-L2-11, V-L2-12. -/
theorem test_decodeSymbol :
    decodeSymbol (listSource (digits [0, 0, 0, 0, 0, 0, 0])) lenTable .lengthCode 0 = .ok 15 7 ∧
      decodeSymbol (listSource (digits [0, 0, 0, 0, 0, 0, 0, 0])) distTable .distanceCode 0 = .ok 63 8 ∧
      decodeSymbol (listSource (digits [0, 0])) litTable .literal 0 =
        .error { kind := .truncatedInput, site := .literal, pos := 0 } ∧
      decodeSymbol (listSource (digits [1, 1, 0, 1, 1])) litTable .literal 0 = .ok 0x65 5 := by decide +kernel

/-- R72 to R74. -/
theorem test_maxLen : lenTable.maxLen = 7 ∧ distTable.maxLen = 8 ∧ litTable.maxLen = 13 := by decide

/-- The stream bits columns of R59, R60, R61: length symbol 9, distance symbol 22, literals 0x20 and 0x00. -/
theorem test_streamCode :
    lenTable.streamCode 9 = digits [0, 0, 0, 1, 1] ∧ distTable.streamCode 22 = digits [0, 1, 0, 0, 0, 0, 1] ∧
      litTable.streamCode 0x20 = digits [1, 1, 1, 1] ∧
      litTable.streamCode 0x00 = digits [0, 0, 0, 0, 1, 0, 0, 1, 0, 0, 1] := by decide +kernel

/-- R42: byte 0 of a register is bits 7:0. -/
theorem test_registerByte : registerByte 0x01020304 0 = 0x04 ∧ registerByte 0x01020304 3 = 0x01 := by decide

/-! ## One step of each instruction -/

/-- R78: `00 04`, `01 05` and `01 06` give `LIT_MODE`, `DICT_BITS`, cursor (2, 0) and PHASE TOKEN. -/
theorem test_exec_preambles :
    (after (exec (.preD4 0) (begun [0, 4]))).map (fun t => (t.litMode, t.dictBits, t.cursor)) = some (0, 4, 16) ∧
      (after (exec (.preD5 1) (begun [1, 5]))).map (fun t => (t.litMode, t.dictBits, t.preDict)) = some (1, 5, 5) ∧
      (after (exec (.preD6 1) (begun [1, 6]))).map (fun t => (t.preFlag, t.dictBits, t.preValid)) = some (1, 6, 1) := by
  decide +kernel

/-- V-L2-14: 0x41 is emitted, the cursor is 9 bits on. -/
theorem test_exec_litRaw :
    (after (step (reading [0x00, 0x04, 0x82, 0x02, 0xFE, 0x01] []))).map (fun t => (t.outMem, t.outLen, t.cursor)) =
      some ([(0, 0x41)], 1, 25) := by decide +kernel

/-- R104: into a full OUT, site 10, the cursor after the token, nothing written. -/
theorem test_exec_litRaw_overflow :
    (after (exec (.litRaw 0x41) (reading [0x00, 0x04, 0x82, 0x02] [1, 2, 3, 4, 5, 6, 7, 8]))).map
        (fun t => (t.runState, t.errCode, t.errDetail, t.errPos, t.errBit, t.outLen)) =
      some (.error, 4, 10, 3, 1, 8) := by decide +kernel

/-- V-L2-15: 0x20 is the shortest token, 5 bits. -/
theorem test_exec_litCoded :
    (after (exec (.litCoded 0x20) (reading [1, 4, 0x3E] []))).map (fun t => (t.outMem, t.outLen, t.cursor)) =
      some ([(0, 0x20)], 1, 21) := by decide +kernel

/-- `COPY_REM`, `COPY_DIST` and the bits a COPY token takes, after two bytes of output. -/
def copyResult (i : Instr) : Option (BitVec 10 × BitVec 13 × Nat) :=
  (after (exec i (reading [0, 4] [0x41, 0x49]))).map fun t => (t.copyRem, t.copyDist, t.cursor - 16)

/-- R56 and the widths of R54 with R59, R60 (V-L2-16): distance 2 is h = 0, l = 1. -/
theorem test_exec_copy_short :
    [Instr.copyS0 0 1, .copyS1 0 1, .copyS2 0 1, .copyS3 0 1, .copyS4 0 1, .copyS5 0 1, .copyS6 0 1, .copyS7 0 1].map
        copyResult =
      [some (3, 2, 9), some (2, 2, 8), some (4, 2, 10), some (5, 2, 10), some (6, 2, 11), some (7, 2, 11), some (8, 2, 11),
        some (9, 2, 12)] := by decide +kernel

/-- As above, each with the longest length of its row; COPY.S8 with x = 1 is R84's example. -/
theorem test_exec_copy_long :
    [Instr.copyS8 1 0 1, .copyS9 3 0 1, .copyS10 7 0 1, .copyS11 15 0 1, .copyS12 31 0 1, .copyS13 63 0 1, .copyS14 127 0 1,
        .copyS15 254 0 1].map copyResult =
      [some (11, 2, 13), some (15, 2, 14), some (23, 2, 15), some (39, 2, 17), some (71, 2, 18), some (135, 2, 19),
        some (263, 2, 21), some (518, 2, 22)] := by decide +kernel

/-- V-L2-27a: a copy as the first token, STATUS 0x0009_3427. -/
theorem test_exec_copy_too_far :
    (after (step (reading [0x00, 0x04, 0x3B, 0x01, 0xFF] []))).map (fun t => (t.statusWord, t.errPos, t.errBit)) =
      some (0x00093427, 3, 0) := by decide +kernel

/-- V-L2-25: END as the first token, STATUS 0x0000_0426, cursor (4, 0). -/
theorem test_exec_end :
    (after (step (reading [0x00, 0x04, 0x01, 0xFF] []))).map (fun t => (t.statusWord, t.cursor)) =
      some (0x00000426, 32) := by decide +kernel

/-- R85's example: OUT = "AI", `COPY_DIST` 2, `COPY_REM` 11 writes OUT[2] = 'A'. -/
theorem test_copy_byte :
    (after (step (inCopy [0x41, 0x49] 11 2))).map (fun t => (t.outMem, t.outLen, t.copyRem)) =
      some ([(0, 0x41), (1, 0x49), (2, 0x41)], 3, 10) := by decide +kernel

/-- V-L2-28b: OutputOverflow in a copy, STATUS 0x000b_442b with PHASE COPY. -/
theorem test_copy_byte_overflow :
    (after (step (inCopy [1, 2, 3, 4, 5, 6, 7, 8] 2 1))).map (fun t => (t.statusWord, t.copyRem, t.copyDist)) =
      some (0x000B442B, 2, 1) := by decide +kernel

/-- V-L2-13: a block of no bytes, and the one byte 07. -/
theorem test_preamble_errors :
    (after (step (begun []))).map (fun t => (t.statusWord, t.errPos)) = some (0x00011003, 0) ∧
      (after (step (begun [0x07]))).map (fun t => (t.statusWord, t.errPos, t.preFlag)) = some (0x00012003, 1, 7) := by
  decide +kernel

/-- R94's example: from `IN_LEN` = 8, START gives BUSY, PRE, cursor (0, 0). -/
theorem test_exec_start :
    (after (exec (.start 1) { idle with inLen := 8, errCode := 3, curByte := 5 })).map
        (fun t => (t.runState, t.phase, t.cursor, t.inLen, t.errCode)) = some (.busy, .pre, 0, 8, 0) := by decide +kernel

/-- R94: dropped during a run; bit 0 clear is no START. -/
theorem test_exec_start_dropped :
    after (exec (.start 1) (reading [0, 4] [])) = some (reading [0, 4] []) ∧ after (exec (.start 2) idle) = some idle := by
  decide +kernel

/-- R92's example: after program P1, STATUS reads 0x0000_0426. -/
theorem test_exec_regRead :
    (after (exec (.regRead 0x04) { reading [0, 4] [] with runState := .done })).map (fun t => t.hostResult) =
        some (.word 0x00000426) ∧
      (after (exec (.regRead 0x20) { reading [0, 4] [] with preFlag := 1 })).map (fun t => t.hostResult) =
        some (.word 0x00000401) := by decide +kernel

/-- R93's example: with `IN_CAP` = 1024, writing 5000 to `IN_LEN` makes it 1024. -/
theorem test_exec_regWrite :
    (after (exec (.regWrite 0x08 5000) idle)).map (fun t => t.inLen) = some 1024 ∧
      (after (exec (.regWrite 0x2C 0x1FF) idle)).map (fun t => t.dictHint) = some 0xFF := by decide +kernel

/-- R95, R96's example: InWrite(1, 0x04), then InRead(1) = 0x04. -/
theorem test_exec_inWrite : (after (exec (.inWrite 1 4) idle)).map (fun t => t.inMem) = some [(1, 4)] := by decide +kernel

theorem test_exec_inRead :
    (after (exec (.inRead 1) (begun [0, 4]))).map (fun t => t.hostResult) = some (.byte 4) := by decide +kernel

/-- R97's example: OutRead of a byte of the output gives it. -/
theorem test_exec_outRead :
    (after (exec (.outRead 1) (reading [0, 4] [0x41, 0x49]))).map (fun t => t.hostResult) = some (.byte 0x49) := by
  decide +kernel

/-- The word 0x0082 as the first instruction after reset is LIT.RAW 0x41; 0x0400 is PRE.D4. -/
theorem test_withFetchWord :
    (after (step (State.reset.withFetchWord 16 0x0082))).map (fun t => (t.outMem, t.runState)) =
        some ([(0, 0x41)], .busy) ∧
      (after (step (State.reset.withFetchWord 16 0x0400))).map (fun t => (t.dictBits, t.phase)) = some (4, .token) := by
  decide +kernel

/-! ## Witnesses: the hypotheses of each obligation, met together by concrete states and operands

A statement of several clauses has each clause met, at a boundary of its range. -/

/-- `s` with the cursor at the last place from which `n` bits still fit the cursor's 35 bits. -/
def farFrom (n : Nat) (s : State) : State := s.movedTo (2 ^ 35 - 1 - n)

/-- OUT full, and one byte short of full. -/
def fullOut : List Nat := [1, 2, 3, 4, 5, 6, 7, 8]
def roomForOne : List Nat := [1, 2, 3, 4, 5, 6, 7]

/-- The bytes of program P1 (95_test_vectors.md). -/
def blockP1 : List Nat := [0x00, 0x04, 0x82, 0x24, 0x25, 0x8F, 0x80, 0x7F]

/-- Program P1 about to run, with OUT exactly as large as its output. -/
def beginP1 : State := { begun blockP1 with cfg := { inCap := 1024, outCap := 13 } }

theorem inv_begun_empty : Inv (begun []) := by
  refine ⟨?_, ?_, ?_, ?_⟩ <;> constructor <;> decide +kernel
theorem inv_begun_7 : Inv (begun [7]) := by
  refine ⟨?_, ?_, ?_, ?_⟩ <;> constructor <;> decide +kernel
theorem inv_begun_0 : Inv (begun [0]) := by
  refine ⟨?_, ?_, ?_, ?_⟩ <;> constructor <;> decide +kernel
theorem inv_begun_0_7 : Inv (begun [0, 7]) := by
  refine ⟨?_, ?_, ?_, ?_⟩ <;> constructor <;> decide +kernel
theorem inv_begun_1_6 : Inv (begun [1, 6]) := by
  refine ⟨?_, ?_, ?_, ?_⟩ <;> constructor <;> decide +kernel
theorem inv_beginP1 : Inv beginP1 := by
  refine ⟨?_, ?_, ?_, ?_⟩ <;> constructor <;> decide +kernel
theorem inv_reading_end : Inv (reading [0, 4] []) := by
  refine ⟨?_, ?_, ?_, ?_⟩ <;> constructor <;> decide +kernel
theorem inv_reading_literal : Inv (reading [0, 4, 0x82, 0x02] [1]) := by
  refine ⟨?_, ?_, ?_, ?_⟩ <;> constructor <;> decide +kernel
theorem inv_last_copy_byte : Inv (inCopy roomForOne 1 7) := by
  refine ⟨?_, ?_, ?_, ?_⟩ <;> constructor <;> decide +kernel
theorem inv_copy_into_full : Inv (inCopy fullOut 518 1) := by
  refine ⟨?_, ?_, ?_, ?_⟩ <;> constructor <;> decide +kernel
theorem inv_copy_overlapping : Inv (inCopy [1, 2, 3] 5 2) := by
  refine ⟨?_, ?_, ?_, ?_⟩ <;> constructor <;> decide +kernel

/-- The hypotheses of the two statements about tokens, for the stream that is exactly the token's encoding. -/
def EncodedToken (c : Context) (i : Instr) : Prop :=
  instrKind i = .token ∧ wellFormed c i = true ∧ c.dictAccepted = true ∧ (listSource (encode c i).bits).total ∧
    (listSource (encode c i).bits).holds 0 (encode c i).bits ∧
    decodeToken c (listSource (encode c i).bits) 0 = .ok i (encode c i).bits.length

/-- The longest token and the shortest, a raw literal and END. -/
theorem witness_TokenDecodesFromItsEncoding :
    EncodedToken raw6 (.copyS15 254 63 63) ∧ EncodedToken coded4 (.litCoded 0x20) ∧ EncodedToken raw4 (.litRaw 0xFF) ∧
      EncodedToken raw4 .endMark :=
  ⟨⟨rfl, by decide, by decide, listSource_total _, listSource_holds _, by decide +kernel⟩,
    ⟨rfl, by decide, by decide, listSource_total _, listSource_holds _, by decide +kernel⟩,
    ⟨rfl, by decide, by decide, listSource_total _, listSource_holds _, by decide +kernel⟩,
    ⟨rfl, by decide, by decide, listSource_total _, listSource_holds _, by decide +kernel⟩⟩

theorem witness_DecodedTokenIsInTheStream :
    EncodedToken raw4 (.copyS1 63 3) ∧ EncodedToken coded4 (.litCoded 0xFF) :=
  ⟨⟨rfl, by decide, by decide, listSource_total _, listSource_holds _, by decide +kernel⟩,
    ⟨rfl, by decide, by decide, listSource_total _, listSource_holds _, by decide +kernel⟩⟩

theorem witness_PreambleDecodesFromItsEncoding :
    instrKind (.preD6 1) = .preamble ∧ (listSource (encode unread (.preD6 1)).bits).total ∧
      (listSource (encode unread (.preD6 1)).bits).holds 0 (encode unread (.preD6 1)).bits :=
  ⟨rfl, listSource_total _, listSource_holds _⟩

theorem witness_HostOperationDecodesFromItsRequest :
    [Instr.start 1, .regRead 0x2C, .regWrite 0 2, .inWrite 1023 7, .inRead 1023, .outRead 7].all
      (fun i => decide (instrKind i = .host) && wellFormed raw4 i) = true := by decide

/-- Exactly MAXLEN bits, all 0 (the last code of each table). -/
theorem witness_ExactlyOneCodeMatches :
    [lenTable, distTable, litTable].map (fun t => (listSource (List.replicate t.maxLen false)).len) = [7, 8, 13] ∧
      [lenTable, distTable, litTable].map CodeTable.maxLen = [7, 8, 13] ∧ (listSource (List.replicate 13 false)).total :=
  ⟨by decide, by decide, listSource_total _⟩

/-- No bit left, and a whole token left. -/
theorem witness_TokenReadingOnlyRunsOutOfInput :
    raw4.dictAccepted = true ∧ (listSource []).total ∧ 0 ≤ (listSource []).len ∧
      decodeToken raw4 (listSource []) 0 = .error { kind := .truncatedInput, site := .controlBit, pos := 0 } ∧
      readToken raw4 [0, 0, 0, 0, 0, 0, 0, 0, 0] = .ok (.litRaw 0) 9 :=
  ⟨by decide, listSource_total _, Nat.zero_le _, by decide +kernel, by decide +kernel⟩

/-- The shortest and the longest COPY token. -/
theorem witness_TokenLengths :
    raw6.dictAccepted = true ∧ (copyParts (.copyS1 0 0)).isSome ∧ (encode raw6 (.copyS1 0 0)).bits.length = 8 ∧
      (copyParts (.copyS15 0 63 0)).isSome ∧ (encode raw6 (.copyS15 0 63 0)).bits.length = 30 := by decide +kernel

theorem witness_LengthsTileOnce :
    (2 ≤ 2 ∧ 2 ≤ 519 ∧ copyLength 1 0 = 2) ∧ (2 ≤ 519 ∧ 519 ≤ 519 ∧ copyLength 15 255 = 519) := by decide

/-- Length 2 at its largest distance, length 518 at the largest distance of the smallest and the largest dictionary. -/
theorem witness_CopyNotationDenotesItsOperands :
    (raw4.dictAccepted = true ∧ 256 ≤ 2 ^ (6 + lowBitCount 2 raw4.dictBits.toNat)) ∧
      1024 ≤ 2 ^ (6 + lowBitCount 518 raw4.dictBits.toNat) ∧
      (raw6.dictAccepted = true ∧ 4096 ≤ 2 ^ (6 + lowBitCount 518 raw6.dictBits.toNat)) := by decide

/-- Widths 0 and 17, 16 bits wanted of 15, 16 wanted of 16. -/
theorem witness_ReadBitsReadsTheNextBits :
    (listSource (List.replicate 16 true)).total ∧ (listSource (List.replicate 15 true)).total ∧ (0 = 0 ∨ 16 < 0) ∧
      (17 = 0 ∨ 16 < 17) ∧ (listSource (List.replicate 15 true)).len < 0 + 16 ∧
      0 + 16 ≤ (listSource (List.replicate 16 true)).len :=
  ⟨listSource_total _, listSource_total _, by decide, by decide, by decide, by decide⟩

theorem witness_RemainingIsTheUnreadBits :
    Inv (reading [0, 4] []) ∧ (reading [0, 4] []).runState = .busy ∧ (reading [0, 4] []).remaining = 0 :=
  ⟨inv_reading_end, rfl, by decide +kernel⟩

theorem witness_UnwrittenInputReadsTheSame :
    1023 < idle.cfg.inCap ∧ Memory.written? idle.inMem 1023 = none := by decide

/-- OUT full, and with room for one byte. -/
theorem witness_EmitAppendsOrOverflows :
    ((reading [0, 4] fullOut).outLen.toNat ≤ small.outCap ∧ small.legal ∧
        (reading [0, 4] fullOut).outLen.toNat = (reading [0, 4] fullOut).cfg.outCap) ∧
      (reading [0, 4] roomForOne).outLen.toNat ≤ small.outCap ∧ (reading [0, 4] roomForOne).outLen.toNat ≠ small.outCap := by
  decide +kernel

theorem witness_PreambleIsAccepted :
    (farFrom 16 (begun [0, 4])).cursor + 16 < 2 ^ 35 ∧ (farFrom 16 (begun [0, 4])).cursor + 16 = 2 ^ 35 - 1 := by
  decide +kernel

/-- Both literals, at the far end of the cursor and of OUT. -/
theorem witness_LiteralAppendsItsByte :
    ((farFrom 9 (reading [0, 4] roomForOne)).cursor + 9 < 2 ^ 35 ∧ (farFrom 9 (reading [0, 4] roomForOne)).outLen.toNat < 8) ∧
      (14 = 1 + litTable.codeLen (0xFF : Byte).toNat ∧ (farFrom 14 (reading [0, 4] roomForOne)).cursor + 14 < 2 ^ 35) ∧
      (reading [0, 4] roomForOne).cfg.outCap = 8 ∧ 8 ≤ 4294967295 := by decide +kernel

theorem witness_LiteralIntoFullOutputIsAnError :
    (farFrom 9 (reading [0, 4] fullOut)).cursor + 9 < 2 ^ 35 ∧
      (farFrom 9 (reading [0, 4] fullOut)).outLen.toNat = (farFrom 9 (reading [0, 4] fullOut)).cfg.outCap := by decide +kernel

/-- The longest copy from the first byte of the output, at the far end of the cursor. -/
theorem witness_CopyStartsWithItsOperands :
    copyParts (.copyS15 254 0 7) = some (15, 254, 0, 7) ∧ copyLength 15 254 ≠ 519 ∧
      4 = lowBitCount (copyLength 15 254) (farFrom 22 (reading [0, 4] fullOut)).dictBits.toNat ∧
      (farFrom 22 (reading [0, 4] fullOut)).cursor + copyWidth 15 0 4 < 2 ^ 35 ∧
      copyDistance 4 0 7 = (farFrom 22 (reading [0, 4] fullOut)).outLen.toNat := by decide +kernel

/-- One byte beyond the output, and a first token. -/
theorem witness_CopyBeyondTheOutputIsAnError :
    (copyParts (.copyS15 254 0 7) = some (15, 254, 0, 7) ∧ copyLength 15 254 ≠ 519 ∧
      4 = lowBitCount (copyLength 15 254) (farFrom 22 (reading [0, 4] roomForOne)).dictBits.toNat ∧
      (farFrom 22 (reading [0, 4] roomForOne)).cursor + copyWidth 15 0 4 < 2 ^ 35 ∧
      (reading [0, 4] roomForOne).outLen.toNat + 1 = copyDistance 4 0 7) ∧
    (copyParts (.copyS1 0 0) = some (1, 0, 0, 0) ∧ 2 = lowBitCount (copyLength 1 0) (reading [0, 4] []).dictBits.toNat ∧
      (reading [0, 4] []).cursor + copyWidth 1 0 2 < 2 ^ 35 ∧ (reading [0, 4] []).outLen.toNat < copyDistance 2 0 0) := by
  decide +kernel

/-- The length value 519, and a state before any preamble. -/
theorem witness_CopyFormsThatStartNoCopy :
    (copyParts (.copyS15 255 63 0) = some (15, 255, 63, 0) ∧ copyLength 15 255 = 519) ∧
      (copyParts (.copyS0 0 0) = some (0, 0, 0, 0) ∧ copyLength 0 0 ≠ 519 ∧
        lowBitCount (copyLength 0 0) (begun []).dictBits.toNat = 0) := by decide

theorem witness_EndFinishesTheRun : (farFrom 16 (reading [0, 4] [])).cursor + 16 < 2 ^ 35 := by decide +kernel

/-- One bit too far, for END and for a raw literal. -/
theorem witness_CursorBeyondItsWidthStops :
    (instrKind .endMark ≠ .host ∧ wellFormed (farFrom 15 (reading [0, 4] [])).context .endMark = true ∧
      2 ^ 35 = (farFrom 15 (reading [0, 4] [])).cursor + instrWidth 4 .endMark) ∧
    (instrKind (.litRaw 0) ≠ .host ∧ wellFormed (farFrom 8 (reading [0, 4] [])).context (.litRaw 0) = true ∧
      2 ^ 35 = (farFrom 8 (reading [0, 4] [])).cursor + instrWidth 4 (.litRaw 0)) := by decide +kernel

/-- The last byte of a copy into the last place of OUT, and the first of the longest copy into a full OUT. -/
theorem witness_CopyByteStepAppendsOrOverflows :
    (Inv (inCopy roomForOne 1 7) ∧ (inCopy roomForOne 1 7).runState = .busy ∧ (inCopy roomForOne 1 7).phase = .copy ∧
      (inCopy roomForOne 1 7).outLen.toNat < (inCopy roomForOne 1 7).cfg.outCap) ∧
    Inv (inCopy fullOut 518 1) ∧ (inCopy fullOut 518 1).runState = .busy ∧ (inCopy fullOut 518 1).phase = .copy ∧
      (inCopy fullOut 518 1).outLen.toNat = (inCopy fullOut 518 1).cfg.outCap :=
  ⟨⟨inv_last_copy_byte, rfl, rfl, by decide⟩, inv_copy_into_full, rfl, rfl, by decide⟩

/-- An overlapping copy that fills OUT. -/
theorem witness_CopyRepeatsWhatItWrites :
    Inv (inCopy [1, 2, 3] 5 2) ∧ (inCopy [1, 2, 3] 5 2).runState = .busy ∧ (inCopy [1, 2, 3] 5 2).phase = .copy ∧
      (inCopy [1, 2, 3] 5 2).agenda = [] ∧
      (inCopy [1, 2, 3] 5 2).outLen.toNat + (inCopy [1, 2, 3] 5 2).copyRem.toNat = (inCopy [1, 2, 3] 5 2).cfg.outCap :=
  ⟨inv_copy_overlapping, rfl, rfl, rfl, by decide⟩

/-- Bit 0 set with no run and during one; bit 0 clear. -/
theorem witness_StartBeginsARun :
    ((1 : Word).getLsbD 0 = true ∧ idle.runState ≠ .busy) ∧ (reading [0, 4] []).runState = .busy ∧
      (2 : Word).getLsbD 0 = false := by decide

theorem witness_ControlRegister : (1 : Word).getLsbD 0 = true ∧ (0xFFFFFFFE : Word).getLsbD 0 = false := by decide

/-- The first register, the last one, the first offset that holds none, and an offset inside a register. -/
theorem witness_RegisterReads : 0x00 % 4 = 0 ∧ 0x2C % 4 = 0 ∧ 0x30 % 4 = 0 ∧ 0x2F % 4 ≠ 0 := by decide

/-- START, `IN_LEN`, `DICT_HINT`, an offset that holds no register, and one inside a register. -/
theorem witness_RegisterWrites :
    (0x00 % 4 = 0 ∧ (1 : Word).getLsbD 0 = true) ∧ (0x08 % 4 = 0 ∧ idle.runState ≠ .busy) ∧ 0x2C % 4 = 0 ∧ 0x30 % 4 = 0 ∧
      0x09 % 4 ≠ 0 := by decide

/-- The last byte of IN with no run and during one, and the address after it. -/
theorem witness_InWriteStoresOneByte :
    (1023 < idle.cfg.inCap ∧ idle.runState ≠ .busy) ∧
      (1023 < (reading [0, 4] []).cfg.inCap ∧ (reading [0, 4] []).runState = .busy) ∧ idle.cfg.inCap ≤ 1024 := by decide

theorem witness_BufferReadsReturnTheByte :
    1023 < idle.cfg.inCap ∧ idle.cfg.inCap ≤ 1024 ∧ 7 < idle.cfg.outCap ∧ idle.cfg.outCap ≤ 8 := by decide

/-- A read of one register byte, refused, and one of a whole register, answered. -/
theorem witness_RefusedHostAccesses :
    (asked idle { space := .reg, write := false, bytes := 1, addr := 4, data := 0 }).agenda =
        .host { space := .reg, write := false, bytes := 1, addr := 4, data := 0 } :: [] ∧
      (asked idle { space := .reg, write := false, bytes := 4, addr := 4, data := 0 }).agenda =
        .host { space := .reg, write := false, bytes := 4, addr := 4, data := 0 } :: [] := ⟨rfl, rfl⟩

/-- A write of the last byte of IN during a run. -/
theorem witness_WritesDuringARunAreDropped :
    (asked (reading [0, 4] []) (inWriteRequest 1023 7)).runState = .busy ∧
      (asked (reading [0, 4] []) (inWriteRequest 1023 7)).agenda = .host (inWriteRequest 1023 7) :: [] ∧
      (inWriteRequest 1023 7).write = true ∧ decodeHost (inWriteRequest 1023 7) = .ok (.inWrite 1023 7) ∧
      (inWriteRequest 1023 7).addr < (reading [0, 4] []).cfg.inCap := ⟨rfl, rfl, rfl, by decide, by decide⟩

/-- A read of STATUS during a run. -/
theorem witness_HostReadsChangeNothing :
    ∃ t, step (asked (reading [0, 4] []) { space := .reg, write := false, bytes := 4, addr := 4, data := 0 }) = .next t :=
  ⟨_, rfl⟩

/-- A block that fills IN exactly, and one of no bytes. -/
theorem witness_BootSequenceLoadsTheBlock :
    (idle.runState ≠ .busy ∧ (List.replicate 1024 (0 : Byte)).length ≤ idle.cfg.inCap ∧ idle.cfg.legal ∧
      (idle.withAgenda (bootTurns (List.replicate 1024 0))).agenda = bootTurns (List.replicate 1024 0)) ∧
    ([] : List Byte).length ≤ idle.cfg.inCap := ⟨⟨by decide, by decide +kernel, by decide, rfl⟩, by decide⟩

theorem witness_StepIsTheEnginesStep :
    idle.agenda = [] ∧ (idle.withAgenda [.engine]).agenda = .engine :: [] := ⟨rfl, rfl⟩

theorem witness_StepRunsTheDecodedToken :
    (reading [0, 4, 0x82, 0x02] [1]).runState = .busy ∧ (reading [0, 4, 0x82, 0x02] [1]).phase = .token ∧
      decodeToken (reading [0, 4, 0x82, 0x02] [1]).context (reading [0, 4, 0x82, 0x02] [1]).stream
        (reading [0, 4, 0x82, 0x02] [1]).cursor = .ok (.litRaw 0x41) 25 ∧
      (reading [0, 4, 0x82, 0x02] [1]).agenda = [] := ⟨rfl, rfl, by decide +kernel, rfl⟩

theorem witness_StepRunsTheDecodedPreamble :
    (begun [1, 6]).runState = .busy ∧ (begun [1, 6]).phase = .pre ∧
      decodePreamble (begun [1, 6]).stream (begun [1, 6]).cursor = .ok (.preD6 1) 16 ∧ (begun [1, 6]).agenda = [] :=
  ⟨rfl, rfl, by decide +kernel, rfl⟩

theorem witness_StepRunsTheHostOperation :
    (asked idle (regWriteRequest 0 1)).agenda = .host (regWriteRequest 0 1) :: [] ∧
      decodeHost (regWriteRequest 0 1) = .ok (.start 1) := ⟨rfl, by decide⟩

/-- A reset in the middle of a run. -/
theorem witness_ResetEventClearsEveryRegister :
    ((inCopy fullOut 518 1).withAgenda [.reset]).agenda = .reset :: [] := rfl

/-- Left alone, START, and a reset after a run. -/
theorem witness_StoppedUntilStartOrReset :
    (idle.runState ≠ .busy ∧ idle.agenda = []) ∧
    (after (step (asked idle (regWriteRequest 0 1)))).map (fun t => t.runState) = some .busy ∧
    (after (step (State.withAgenda { reading [0, 4] [] with runState := .done } [.reset]))).map (fun t => t.runState) =
      some .idle := by decide +kernel

/-- No byte; a refused flag byte, alone; one byte; a refused dictionary byte; an accepted preamble. -/
theorem witness_PreambleStepInOrder :
    (Inv (begun []) ∧ (begun []).runState = .busy ∧ (begun []).phase = .pre ∧ (begun []).inLen.toNat = 0) ∧
    (Inv (begun [7]) ∧ 1 < ((begun [7]).inByte 0).toNat) ∧ (Inv (begun [0]) ∧ (begun [0]).inLen.toNat = 1) ∧
    (Inv (begun [0, 7]) ∧ 6 < ((begun [0, 7]).inByte 1).toNat) ∧
    (Inv (begun [1, 6]) ∧ ((begun [1, 6]).inByte 0).toNat = 1 ∧ ((begun [1, 6]).inByte 1).toNat = 6) :=
  ⟨⟨inv_begun_empty, rfl, rfl, by decide⟩, ⟨inv_begun_7, by decide⟩, ⟨inv_begun_0, by decide⟩,
    ⟨inv_begun_0_7, by decide⟩, ⟨inv_begun_1_6, by decide, by decide⟩⟩

/-- The stream ends one bit short of each field: sites 3 to 8 (40_bit_cursor.md R69, 60_exceptions.md R105). -/
theorem witness_TruncationSites :
    raw4.dictAccepted = true ∧ (∀ bits, (listSource bits).total ∧ 0 ≤ (listSource bits).len) ∧
    readToken raw4 [] = .error { kind := .truncatedInput, site := .controlBit, pos := 0 } ∧
    readToken raw4 [0, 1, 0, 0, 0, 0, 0, 1] = .error { kind := .truncatedInput, site := .literal, pos := 1 } ∧
    readToken raw4 [1, 0, 0, 0, 0, 0, 0] = .error { kind := .truncatedInput, site := .lengthCode, pos := 1 } ∧
    readToken raw4 [1, 0, 0, 0, 0, 0, 0, 0, 1, 1, 1, 1, 1, 1, 1] =
      .error { kind := .truncatedInput, site := .lengthExtra, pos := 8 } ∧
    readToken raw4 [1, 1, 1, 0, 0, 0, 0, 0, 0, 0] = .error { kind := .truncatedInput, site := .distanceCode, pos := 3 } ∧
    readToken raw4 [1, 1, 1, 1, 1, 0, 0, 0] = .error { kind := .truncatedInput, site := .distanceLow, pos := 5 } :=
  ⟨by decide, fun bits => ⟨listSource_total bits, Nat.zero_le _⟩, by decide +kernel, by decide +kernel, by decide +kernel,
    by decide +kernel, by decide +kernel, by decide +kernel⟩

/-- The input ends right after the preamble. -/
theorem witness_TruncatedTokenEntersTheError :
    Inv (reading [0, 4] []) ∧ (reading [0, 4] []).runState = .busy ∧ (reading [0, 4] []).phase = .token ∧
      decodeToken (reading [0, 4] []).context (reading [0, 4] []).stream (reading [0, 4] []).cursor =
        .error { kind := .truncatedInput, site := .controlBit, pos := 16 } :=
  ⟨inv_reading_end, rfl, rfl, by decide +kernel⟩

/-- A step of each phase that goes on. -/
theorem witness_CursorOnlyMovesForward :
    (Inv (begun [1, 6]) ∧ (begun [1, 6]).runState = .busy ∧ ∃ t, engineStep (begun [1, 6]) = .next t) ∧
    (Inv (reading [0, 4, 0x82, 0x02] [1]) ∧ (reading [0, 4, 0x82, 0x02] [1]).phase = .token ∧
      ∃ t, engineStep (reading [0, 4, 0x82, 0x02] [1]) = .next t ∧ t.runState ≠ .error) ∧
    Inv (inCopy roomForOne 1 7) ∧ ∃ t, engineStep (inCopy roomForOne 1 7) = .next t :=
  ⟨⟨inv_begun_1_6, rfl, _, rfl⟩, ⟨inv_reading_literal, rfl, _, rfl, by decide +kernel⟩, inv_last_copy_byte, _, rfl⟩

theorem witness_EngineAppendsAndNothingElse :
    (∃ t, engineStep (reading [0, 4, 0x82, 0x02] [1]) = .next t) ∧ (∃ t, engineStep (inCopy roomForOne 1 7) = .next t) ∧
      ∃ t, engineStep idle = .next t := ⟨⟨_, rfl⟩, ⟨_, rfl⟩, _, rfl⟩

theorem witness_EngineStepIsThePseudocode :
    (Inv beginP1 ∧ beginP1.runState = .busy) ∧ (Inv (reading [0, 4] []) ∧ (reading [0, 4] []).runState = .busy) ∧
      Inv (inCopy fullOut 518 1) ∧ (inCopy fullOut 518 1).runState = .busy :=
  ⟨⟨inv_beginP1, rfl⟩, ⟨inv_reading_end, rfl⟩, inv_copy_into_full, rfl⟩

/-- The smallest legal parameters and the largest. -/
theorem witness_InvariantHoldsAtReset :
    Config.legal { inCap := 2, outCap := 1 } ∧ Config.legal Config.largest := by decide

theorem witness_EveryStepKeepsTheInvariant :
    (Inv (begun [7]) ∧ ∃ t, step (begun [7]) = .next t) ∧
      Inv (reading [0, 4, 0x82, 0x02] [1]) ∧ ∃ t, step (reading [0, 4, 0x82, 0x02] [1]) = .next t :=
  ⟨⟨inv_begun_7, _, rfl⟩, inv_reading_literal, _, rfl⟩

theorem witness_NoStepFaults : Inv (inCopy fullOut 518 1) := inv_copy_into_full

theorem witness_EveryRunEnds :
    (Inv beginP1 ∧ beginP1.runState = .busy ∧ beginP1.phase = .pre ∧ beginP1.agenda = []) ∧
      Inv (begun []) ∧ (begun []).runState = .busy ∧ (begun []).phase = .pre ∧ (begun []).agenda = [] :=
  ⟨⟨inv_beginP1, rfl, rfl, rfl⟩, inv_begun_empty, rfl, rfl, rfl⟩

/-- The state of `inv_reading_literal` with other bytes beyond `IN_LEN` and `OUT_LEN`, another `DICT_HINT` and `IN_CAP`. -/
def staleTwin : State :=
  { reading [0, 4, 0x82, 0x02] [1] with
      inMem := cells [0, 4, 0x82, 0x02, 9], outMem := cells [1, 2, 3], dictHint := 5, cfg := { inCap := 5, outCap := 8 } }

theorem witness_RunDependsOnTheInputAlone :
    Inv (reading [0, 4, 0x82, 0x02] [1]) ∧ Inv staleTwin ∧ SameRun (reading [0, 4, 0x82, 0x02] [1]) staleTwin ∧
      (reading [0, 4, 0x82, 0x02] [1]).agenda = [] ∧ staleTwin.agenda = [] ∧
      ∃ t, step (reading [0, 4, 0x82, 0x02] [1]) = .next t := by
  refine ⟨inv_reading_literal, ⟨?_, ?_, ?_, ?_⟩, ?_, rfl, rfl, _, rfl⟩ <;> constructor <;> decide +kernel

/-- Program P1 with its output (95_test_vectors.md): OUT exactly large enough, no byte after the stream. -/
theorem witness_DecompressionGivesTheDenotedBytes :
    denote { litMode := 0, dictBits := 4, cfg := beginP1.cfg } [.lit 0x41, .lit 0x49, .copy 11 2] [] =
        some [0x41, 0x49, 0x41, 0x49, 0x41, 0x49, 0x41, 0x49, 0x41, 0x49, 0x41, 0x49, 0x41] ∧
      Inv beginP1 ∧ beginP1.runState = .busy ∧ beginP1.phase = .pre ∧ beginP1.agenda = [] ∧ beginP1.outLen = 0 ∧
      (streamBytes false 0 4 ([.lit 0x41, .lit 0x49, .copy 11 2] ++ [.finish])).length = beginP1.inLen.toNat ∧
      (∀ a, (ha : a < (streamBytes false 0 4 ([.lit 0x41, .lit 0x49, .copy 11 2] ++ [.finish])).length) →
        beginP1.inByte a = (streamBytes false 0 4 ([.lit 0x41, .lit 0x49, .copy 11 2] ++ [.finish]))[a]) ∧
      beginP1.cfg.outCap = 13 :=
  ⟨by decide +kernel, inv_beginP1, rfl, rfl, rfl, rfl, by decide +kernel, by decide +kernel, rfl⟩

end Sys2Proof.Tests
end

section
/-! PROOFS. The statements of 00_scope.md: who moves in a step (R9), and the register write that does not fit (R12). -/

namespace Sys2Proof.Machine

open Sys2Proof

/-! ## Who moves in a step -/

/-- A request that is an operation of the block runs that operation (43_host_commands.md R91). -/
theorem hostTurn_of_decodeHost {r : HostRequest} {i : Instr} (h : decodeHost r = .ok i) (s : State) :
    hostTurn r s = exec i s := by
  simp only [hostTurn, h]

/-- Settles O36: the two clauses are the two agendas with which the engine moves. -/
theorem stepIsTheEnginesStep : Obligations.StepIsTheEnginesStep :=
  fun _ => ⟨step_nil, fun _ => step_engine⟩

/-- Settles O39: the request's turn is used up first, then its operation runs. -/
theorem stepRunsTheHostOperation : Obligations.StepRunsTheHostOperation := by
  intro s r rest i hagenda hdecode
  calc step s = hostTurn r (s.withAgenda rest) := step_host hagenda
    _ = exec i (s.withAgenda rest) := hostTurn_of_decodeHost hdecode _

/-! ## The forms of a stream instruction -/

/-- What the stream holds: a preamble form, or one of the four kinds of token (30_encoding.md R49 to R55). -/
theorem streamInstr_cases {i : Instr} (hi : instrKind i ≠ .host) :
    instrKind i = .preamble ∨ (∃ v, i = .litRaw v) ∨ (∃ v, i = .litCoded v) ∨ i = .endMark ∨
      ∃ sym x h l, copyParts i = some (sym, x, h, l) := by
  cases i <;> simp [instrKind, copyParts] at hi ⊢

/-- Every preamble form runs as an accepted preamble (42_tokens.md R78). -/
theorem exec_preamble {i : Instr} (hi : instrKind i = .preamble) (s : State) :
    ∃ flag dict, exec i s = (preambleToken flag dict s).toOutcome :=
  match i, hi with
  | .preD4 flag, _ => ⟨flag, 4, rfl⟩
  | .preD5 flag, _ => ⟨flag, 5, rfl⟩
  | .preD6 flag, _ => ⟨flag, 6, rfl⟩

theorem instrWidth_preamble {i : Instr} (hi : instrKind i = .preamble) (k : Nat) : instrWidth k i = preambleWidth :=
  match i, hi with
  | .preD4 _, _ => rfl
  | .preD5 _, _ => rfl
  | .preD6 _, _ => rfl

/-! ## A cursor that does not fit its 35 bits -/

theorem preambleToken_of_ge {flag : BitVec 1} {dict : BitVec 3} {s : State} (hc : 2 ^ 35 ≤ s.cursor + preambleWidth) :
    preambleToken flag dict s = .stuck .widthOverflow := by
  rw [preambleToken, advance_of_ge hc, Micro.bind_stuck]

theorem literalToken_of_ge {n : Nat} {v : Byte} {s : State} (hc : 2 ^ 35 ≤ s.cursor + n) :
    literalToken n v s = .stuck .widthOverflow := by
  rw [literalToken, advance_of_ge hc, Micro.bind_stuck]

theorem endToken_of_ge {s : State} (hc : 2 ^ 35 ≤ s.cursor + endWidth) : endToken s = .stuck .widthOverflow := by
  rw [endToken, advance_of_ge hc, Micro.bind_stuck]

theorem copyToken_of_ge {sym x h l : Nat} {s : State} (hlen : copyLength sym x ≠ 519)
    (hk : 1 ≤ lowBitCount (copyLength sym x) s.dictBits.toNat)
    (hc : 2 ^ 35 ≤ s.cursor + copyWidth sym h (lowBitCount (copyLength sym x) s.dictBits.toNat)) :
    copyToken sym x h l s = .stuck .widthOverflow := by
  simp only [copyToken]
  rw [if_neg (show ¬ copyLength sym x = endLength from hlen), if_neg (by omega), advance_of_ge hc, Micro.bind_stuck]

/-- A well-formed COPY row has low bits to read, so the model stops at no `BadWidth` before its cursor move (30_encoding.md
R56, 40_bit_cursor.md R69). -/
theorem lowBitCount_pos_of_wellFormed {c : Context} {i : Instr} {sym x h l : Nat}
    (hi : copyParts i = some (sym, x, h, l)) (hwf : wellFormed c i = true) :
    1 ≤ lowBitCount (copyLength sym x) c.dictBits.toNat := by
  obtain ⟨hsym, hx, -⟩ := copyParts_range hi
  obtain ⟨-, haccepted, -⟩ := (wellFormed_copyParts hi).mp hwf
  rw [lowBitCount_sym _ hsym hx]
  split
  · decide
  · next hne =>
    have := dictAccepted_bounds (haccepted hne)
    omega

/-- Settles O22: every form of stream instruction moves the cursor before anything else of its meaning can stop it. -/
theorem cursorBeyondItsWidthStops : Obligations.CursorBeyondItsWidthStops := by
  intro i s hkind hwf hc
  obtain hpre | ⟨v, rfl⟩ | ⟨v, rfl⟩ | rfl | ⟨sym, x, h, l, hparts⟩ := streamInstr_cases hkind
  · obtain ⟨flag, dict, hexec⟩ := exec_preamble hpre s
    rw [instrWidth_preamble hpre] at hc
    rw [hexec, preambleToken_of_ge hc, Micro.toOutcome_stuck]
  · exact congrArg Micro.toOutcome (literalToken_of_ge hc)
  · exact congrArg Micro.toOutcome (literalToken_of_ge hc)
  · exact congrArg Micro.toOutcome (endToken_of_ge hc)
  · obtain ⟨hlen, -⟩ := (wellFormed_copyParts hparts).mp hwf
    rw [instrWidth_copyParts _ hparts] at hc
    rw [exec_copyParts hparts, copyToken_of_ge hlen (lowBitCount_pos_of_wellFormed hparts hwf) hc, Micro.toOutcome_stuck]

end Sys2Proof.Machine
end

section
/-! PROOFS. The statements of 10_state.md: what an engine step can do, said once (`EngineMove`); from it the engine's frame,
the cursor (R15) and the invariant (R36); then CTRL (R29), STATUS (R30), and the finding on R36 (a). -/

namespace Sys2Proof.Machine

open Sys2Proof

/-! ## What reading can answer -/

theorem Read.bind_eq_ok {α β : Type} {r : Read α} {k : α → Nat → Read β} {b : β} {q : Nat} (h : r.bind k = .ok b q) :
    ∃ a p, r = .ok a p ∧ k a p = .ok b q := by
  cases r with
  | ok a p => exact ⟨a, p, rfl, h⟩
  | error e => cases h
  | stuck f => cases h

theorem instrKind_copyInstr {sym x : Nat} {h l : BitVec 6} {i : Instr} (hi : copyInstr sym x h l = some i) :
    instrKind i = .token := by
  unfold copyInstr at hi
  split at hi <;> cases hi <;> rfl

theorem instrKind_decodeLiteral {c : Context} {src : BitSource} {p q : Nat} {i : Instr}
    (h : decodeLiteral c src p = .ok i q) : instrKind i = .token := by
  unfold decodeLiteral at h
  split at h
  · obtain ⟨v, p', -, h⟩ := Read.bind_eq_ok h
    cases h
    rfl
  · obtain ⟨v, p', -, h⟩ := Read.bind_eq_ok h
    cases h
    rfl

theorem instrKind_decodeDistance {c : Context} {src : BitSource} {sym x p q : Nat} {i : Instr}
    (h : decodeDistance c src sym x p = .ok i q) : instrKind i = .token := by
  obtain ⟨d, p₁, -, h⟩ := Read.bind_eq_ok h
  obtain ⟨l, p₂, -, h⟩ := Read.bind_eq_ok h
  split at h
  · cases h
  split at h
  · next hi =>
    cases h
    exact instrKind_copyInstr hi
  · cases h

theorem instrKind_decodeCopyPath {c : Context} {src : BitSource} {p q : Nat} {i : Instr}
    (h : decodeCopyPath c src p = .ok i q) : instrKind i = .token := by
  obtain ⟨sym, p₁, -, h⟩ := Read.bind_eq_ok h
  obtain ⟨x, p₂, -, h⟩ := Read.bind_eq_ok h
  split at h
  · cases h
    rfl
  · exact instrKind_decodeDistance h

/-- In any context and over any source, what is read where a token stands is a token (42_tokens.md R79). -/
theorem instrKind_decodeToken {c : Context} {src : BitSource} {p q : Nat} {i : Instr}
    (h : decodeToken c src p = .ok i q) : instrKind i = .token := by
  obtain ⟨ctl, p₁, -, h⟩ := Read.bind_eq_ok h
  split at h
  · exact instrKind_decodeLiteral h
  · exact instrKind_decodeCopyPath h

theorem instrKind_preambleInstr {f d : Nat} {i : Instr} (hi : preambleInstr f d = some i) : instrKind i = .preamble := by
  unfold preambleInstr at hi
  split at hi <;> cases hi <;> rfl

/-- Over any source, what is read where the preamble stands is a preamble form (42_tokens.md R78). -/
theorem instrKind_decodePreamble {src : BitSource} {p q : Nat} {i : Instr} (h : decodePreamble src p = .ok i q) :
    instrKind i = .preamble := by
  unfold decodePreamble at h
  split at h
  · cases h
  · cases h
  split at h
  · cases h
  split at h
  · cases h
  · cases h
  split at h
  · next hi =>
    cases h
    exact instrKind_preambleInstr hi
  · cases h

/-- Reading the preamble over a source with all its bits: its 16 bits are there, or an error leaves the cursor inside the
source (42_tokens.md R78, 40_bit_cursor.md R69). -/
theorem decodePreamble_cases {src : BitSource} {p : Nat} (ht : src.total) (hp : p ≤ src.len) :
    (∃ i q, decodePreamble src p = .ok i q ∧ p + 16 ≤ src.len) ∨
      ∃ e, decodePreamble src p = .error e ∧ p ≤ e.pos ∧ e.pos ≤ src.len := by
  unfold decodePreamble
  obtain ⟨hf, -⟩ | ⟨f, hf, -, hlen, -⟩ := readBits_cases ht .preambleFlag p (n := 8) (by omega) (by omega)
  · rw [hf]
    exact .inr ⟨_, rfl, le_rfl, hp⟩
  rw [hf]
  dsimp only
  split
  · exact .inr ⟨_, rfl, Nat.le_add_right p 8, hlen⟩
  obtain ⟨hd, -⟩ | ⟨d, hd, -, hlen', -⟩ := readBits_cases ht .preambleDict (p + 8) (n := 8) (by omega) (by omega)
  · rw [hd]
    exact .inr ⟨_, rfl, Nat.le_add_right p 8, hlen⟩
  rw [hd]
  dsimp only
  split
  · exact .inl ⟨_, _, rfl, hlen'⟩
  · exact .inr ⟨_, rfl, by dsimp only; omega, hlen'⟩

theorem litTable_codeLen_ge {v : Nat} (hv : v < 256) : 4 ≤ litTable.codeLen v := by
  revert v
  decide +kernel

theorem litCodedWidth_bounds (v : Byte) : 5 ≤ litCodedWidth v ∧ litCodedWidth v ≤ 14 := by
  have hle : litTable.codeLen v.toNat ≤ 13 := litTable_sound.codeLen_le v.toNat v.isLt
  have hge := litTable_codeLen_ge v.isLt
  unfold litCodedWidth
  omega

theorem copyWidth_bounds {sym h k : Nat} (hs : sym < 16) (hh : h < 64) (hk : 2 ≤ k) (hk' : k ≤ 6) :
    5 ≤ copyWidth sym h k ∧ copyWidth sym h k ≤ 30 := by
  have hle : distTable.codeLen h ≤ 8 := distTable_sound.codeLen_le h hh
  have hlen := lenCode_extra_le hs
  have hs1 := lenTable_sound.codeLen_pos sym hs
  have hh1 := distTable_sound.codeLen_pos h hh
  unfold copyWidth
  omega

theorem endWidth_eq : endWidth = 16 := by decide

/-- A token that was read whole is 5 to 30 bits wide and ends inside the source (30_encoding.md R64). -/
theorem TokenRead.width_bounds {c : Context} {src : BitSource} {p q : Nat} {i : Instr} (hd : c.dictAccepted = true)
    (h : TokenRead c src p (.ok i q)) :
    5 ≤ instrWidth c.dictBits.toNat i ∧ instrWidth c.dictBits.toNat i ≤ 30 ∧
      p + instrWidth c.dictBits.toNat i ≤ src.len := by
  cases h with
  | litRaw v _ hlen =>
    simp only [instrWidth, litRawWidth]
    omega
  | litCoded v _ hlen =>
    obtain ⟨hge, hle⟩ := litCodedWidth_bounds v
    simp only [instrWidth]
    omega
  | endMark hlen =>
    have := endWidth_eq
    simp only [instrWidth]
    omega
  | copy i sym x h l k hparts _ hk _ hlen =>
    obtain ⟨hsym, -, hh, -⟩ := copyParts_range hparts
    obtain ⟨hk2, hk6⟩ := lowBitCount_bounds hd (copyLength sym x)
    obtain ⟨hge, hle⟩ := copyWidth_bounds hsym hh hk2 hk6
    rw [instrWidth_copyParts _ hparts]
    rw [hk] at hlen
    exact ⟨hge, hle, hlen⟩

theorem TokenRead.copyLength_le {c : Context} {src : BitSource} {p q sym x h l : Nat} {i : Instr}
    (hread : TokenRead c src p (.ok i q)) (hi : copyParts i = some (sym, x, h, l)) : copyLength sym x ≤ 518 := by
  obtain ⟨hsym, hx, -⟩ := copyParts_range hi
  obtain ⟨-, hle⟩ := copyLength_bounds hsym hx
  cases hread with
  | litRaw | litCoded | endMark => cases hi
  | copy i sym' x' h' l' k hparts hne =>
    rw [hi] at hparts
    cases hparts
    omega

/-- A token that runs out of input leaves the cursor inside the source, and no preamble byte was read (42_tokens.md R79). -/
theorem TokenRead.error_bounds {c : Context} {src : BitSource} {p : Nat} {e : StreamError}
    (h : TokenRead c src p (.error e)) :
    p ≤ e.pos ∧ e.pos ≤ src.len ∧ e.preFlag = none ∧ e.preDict = none := by
  cases h with
  | truncated site q hpq hq _ => exact ⟨hpq, hq, rfl, rfl⟩

theorem copyDistance_le {k h l : Nat} (hk : k ≤ 6) (hh : h < 64) (hl : l < 64) : copyDistance k h l ≤ 4096 := by
  have : h <<< k ≤ 63 * 2 ^ 6 := by
    rw [Nat.shiftLeft_eq]
    exact Nat.mul_le_mul (by omega) (Nat.pow_le_pow_right (by omega) hk)
  unfold copyDistance
  omega

/-! ## Where the invariant lets the engine read -/

theorem Inv.dictAccepted {s : State} (h : Inv s) (hp : s.phase ≠ .pre) : s.context.dictAccepted = true := by
  obtain ⟨hdict, -⟩ := h.preamble.accepted (h.preamble.valid_iff.mpr hp)
  exact dictAccepted_iff.mpr hdict

theorem Inv.tokenRead {s : State} (h : Inv s) (hb : s.runState = .busy) (hp : s.phase = .token) :
    TokenRead s.context s.stream s.cursor (decodeToken s.context s.stream s.cursor) :=
  decodeToken_read (h.dictAccepted (by simp [hp])) (stream_total h.bounds.inLen_le) (h.bounds.cursor_le hb)

/-- A token of `n` bits stands at the cursor (30_encoding.md R64), inside the input (40_bit_cursor.md R70). -/
structure State.tokenFits (s : State) (n : Nat) : Prop where
  width_ge : 5 ≤ n
  width_le : n ≤ 30
  inside : s.cursor + n ≤ 8 * s.inLen.toNat

/-- Error `e` leaves the cursor at or beyond where it was and inside the input, and says that preamble bytes were read only in
the PRE phase (40_bit_cursor.md R70, 10_state.md R20). -/
structure State.raisesWithin (s : State) (e : StreamError) : Prop where
  cursor_le : s.cursor ≤ e.pos
  pos_le : e.pos ≤ 8 * s.inLen.toNat
  no_bytes : s.phase ≠ .pre → e.preFlag = none ∧ e.preDict = none

theorem State.tokenFits.raisesWithin {s : State} {n : Nat} (h : s.tokenFits n) (kind : ErrKind) (site : Site) :
    s.raisesWithin { kind := kind, site := site, pos := s.cursor + n } :=
  ⟨Nat.le_add_right _ _, h.inside, fun _ => ⟨rfl, rfl⟩⟩

/-! ## The state an error leaves -/

/-- The state after error `e` (60_exceptions.md R106, 10_state.md R20): the preamble bytes that were read, the cursor, and error
entry. -/
def State.raisedBy (s : State) (e : StreamError) : State :=
  (State.movedTo { s with preFlag := e.preFlag.getD s.preFlag, preDict := e.preDict.getD s.preDict } e.pos).errored
    e.kind e.site

theorem streamError_of_lt {e : StreamError} {s : State} (hpos : e.pos < 2 ^ 35) :
    streamError e s = .raised (s.raisedBy e) := by
  obtain ⟨kind, site, pos, preFlag, preDict⟩ := e
  simp only [streamError, setCursor_of_lt hpos, Micro.bind_ok]
  cases preFlag <;> cases preDict <;> rfl

theorem raisedBy_cursor {e : StreamError} (s : State) (hpos : e.pos < 2 ^ 35) : (s.raisedBy e).cursor = e.pos := by
  rw [State.raisedBy, errored_cursor, movedTo_cursor _ _ hpos]

theorem streamError_next {e : StreamError} {s t : State} (h : (streamError e s).toOutcome = .next t) :
    e.pos < 2 ^ 35 ∧ t = s.raisedBy e := by
  by_cases hpos : e.pos < 2 ^ 35
  · rw [streamError_of_lt hpos, Micro.toOutcome_raised] at h
    cases h
    exact ⟨hpos, rfl⟩
  · simp only [streamError, setCursor, if_neg hpos, Micro.bind_stuck, Micro.toOutcome_stuck, reduceCtorEq] at h

/-- The cursor is the position of its own two registers (10_state.md R15). -/
theorem movedTo_cursor_self (s : State) : s.movedTo s.cursor = s := by
  have hbit : s.curBit.toNat < 8 := s.curBit.isLt
  have hbyte : BitVec.ofNat 32 (s.cursor / 8) = s.curByte := by
    rw [State.cursor, show (8 * s.curByte.toNat + s.curBit.toNat) / 8 = s.curByte.toNat by omega, BitVec.ofNat_toNat,
      BitVec.setWidth_eq]
  have hrest : BitVec.ofNat 3 (s.cursor % 8) = s.curBit := by
    rw [State.cursor, show (8 * s.curByte.toNat + s.curBit.toNat) % 8 = s.curBit.toNat by omega, BitVec.ofNat_toNat,
      BitVec.setWidth_eq]
  rw [State.movedTo, hbyte, hrest]

theorem movedTo_errored (s : State) (p : Nat) (kind : ErrKind) (site : Site) :
    (s.movedTo p).errored kind site = s.raisedBy { kind := kind, site := site, pos := p } := rfl

theorem errored_eq_raisedBy (s : State) (kind : ErrKind) (site : Site) :
    s.errored kind site = s.raisedBy { kind := kind, site := site, pos := s.cursor } := by
  rw [← movedTo_errored, movedTo_cursor_self]

/-! ## What the pieces of an engine step can answer -/

theorem advance_bind_next {n : Nat} {s t : State} {k : State → Micro}
    (h : ((advance n s).bind k).toOutcome = .next t) :
    s.cursor + n < 2 ^ 35 ∧ (k (s.movedTo (s.cursor + n))).toOutcome = .next t := by
  by_cases hc : s.cursor + n < 2 ^ 35
  · rw [advance_of_lt hc, Micro.bind_ok] at h
    exact ⟨hc, h⟩
  · rw [advance_of_ge (by omega), Micro.bind_stuck] at h
    cases h

theorem preambleToken_next {flag : BitVec 1} {dict : BitVec 3} {s t : State}
    (h : (preambleToken flag dict s).toOutcome = .next t) : t = (s.movedTo (s.cursor + 16)).accepted flag dict := by
  obtain ⟨-, h⟩ := advance_bind_next h
  cases h
  rfl

theorem endToken_next {s t : State} (h : (endToken s).toOutcome = .next t) :
    t = (s.movedTo (s.cursor + endWidth)).finished := by
  obtain ⟨-, h⟩ := advance_bind_next h
  cases h
  rfl

/-- OUT has room for one more byte at `OUT_LEN` (42_tokens.md R77). -/
structure State.hasRoom (s : State) : Prop where
  lt_cap : s.outLen.toNat < s.cfg.outCap
  fits : s.outLen.toNat + 1 < 2 ^ 32

/-- The state after byte `v` was emitted (42_tokens.md R77). -/
def State.emitted (s : State) (v : Byte) : State :=
  s.appended s.outLen.toNat v (BitVec.ofNat 32 (s.outLen.toNat + 1))

theorem emitted_outLen {s : State} (h : s.hasRoom) (v : Byte) : (s.emitted v).outLen.toNat = s.outLen.toNat + 1 := by
  have := h.fits
  simp only [State.emitted, appended_outLen, BitVec.toNat_ofNat]
  omega

theorem emit_bind_next {v : Byte} {site : Site} {s t : State} {k : State → Micro}
    (h : ((emit v site s).bind k).toOutcome = .next t) :
    t = s.errored .outputOverflow site ∨ s.hasRoom ∧ (k (s.emitted v)).toOutcome = .next t := by
  obtain ⟨-, hemit⟩ | ⟨hlt, hfit, hemit⟩ | ⟨f, hemit⟩ := emit_cases v site s
  · rw [hemit] at h
    cases h
    exact .inl rfl
  · rw [hemit] at h
    exact .inr ⟨⟨hlt, hfit⟩, h⟩
  · rw [hemit] at h
    cases h

theorem Micro.bind_ok_self (m : Micro) : m.bind .ok = m := by
  cases m <;> rfl

theorem literalToken_next {n : Nat} {v : Byte} {s t : State} (h : (literalToken n v s).toOutcome = .next t) :
    t = (s.movedTo (s.cursor + n)).errored .outputOverflow .literalEmit ∨
      s.hasRoom ∧ t = (s.movedTo (s.cursor + n)).emitted v := by
  obtain ⟨-, h⟩ := advance_bind_next h
  rw [← Micro.bind_ok_self (emit v .literalEmit (s.movedTo (s.cursor + n)))] at h
  obtain hfull | ⟨⟨hlt, hfit⟩, h⟩ := emit_bind_next h
  · exact .inl hfull
  · cases h
    exact .inr ⟨⟨hlt, hfit⟩, rfl⟩

/-- A COPY token is END, is too far back, or starts its copy (42_tokens.md R82 to R84). -/
theorem copyToken_next {sym x h l : Nat} {s t : State} (hnext : (copyToken sym x h l s).toOutcome = .next t) :
    copyLength sym x = 519 ∧ t = (s.movedTo (s.cursor + endWidth)).finished ∨
      ∃ k dist, k = lowBitCount (copyLength sym x) s.dictBits.toNat ∧ dist = copyDistance k h l ∧
        (t = (s.movedTo (s.cursor + copyWidth sym h k)).errored .distanceOutOfRange .distanceCheck ∨
          dist ≤ s.outLen.toNat ∧ t = (s.movedTo (s.cursor + copyWidth sym h k)).copying
            (BitVec.ofNat 10 (copyLength sym x)) (BitVec.ofNat 13 dist)) := by
  unfold copyToken at hnext
  split at hnext
  · next hend => exact .inl ⟨hend, endToken_next hnext⟩
  dsimp only at hnext
  split at hnext
  · cases hnext
  refine .inr ⟨_, _, rfl, rfl, ?_⟩
  obtain ⟨-, hnext⟩ := advance_bind_next hnext
  obtain ⟨-, hstart⟩ | ⟨hdist, -, -, hstart⟩ | ⟨f, hstart⟩ := copyStart_cases (copyLength sym x)
    (copyDistance (lowBitCount (copyLength sym x) s.dictBits.toNat) h l)
    (s.movedTo (s.cursor + copyWidth sym h (lowBitCount (copyLength sym x) s.dictBits.toNat)))
  · rw [hstart] at hnext
    cases hnext
    exact .inl rfl
  · rw [hstart] at hnext
    cases hnext
    exact .inr ⟨hdist, rfl⟩
  · rw [hstart] at hnext
    cases hnext

/-- A copy step finds OUT full, or emits a byte and counts it (42_tokens.md R85). -/
theorem copyByteStep_next {s t : State} (h : (copyByteStep s).toOutcome = .next t) :
    t = s.errored .outputOverflow .copyEmit ∨
      ∃ v, s.hasRoom ∧ s.copyRem.toNat ≠ 0 ∧ t = (s.emitted v).copyLeft (BitVec.ofNat 10 (s.copyRem.toNat - 1)) := by
  simp only [copyByteStep, readBack] at h
  split at h
  · cases h
  obtain hfull | ⟨hroom, h⟩ := emit_bind_next h
  · exact .inl hfull
  unfold copyCountDown at h
  split at h
  · cases h
  · next hrem =>
    cases h
    exact .inr ⟨_, hroom, hrem, rfl⟩

/-! ## What an engine step can do -/

/-- The next states of an engine step (42_tokens.md R76 to R86), in any state. What holds only of states of the invariant, the
bounds of the cursor and of the copy operands, is said for them. -/
inductive EngineMove (s : State) : State → Prop where
  /-- No run is in progress (42_tokens.md R88). -/
  | stopped : s.runState ≠ .busy → EngineMove s s
  /-- An error of the block, found while reading or by the token's own checks (60_exceptions.md R105, R106). -/
  | raised (e : StreamError) : s.runState = .busy → (Inv s → s.raisesWithin e) → EngineMove s (s.raisedBy e)
  /-- A legal preamble (42_tokens.md R78). -/
  | accepted (flag : BitVec 1) (dict : BitVec 3) : s.runState = .busy → s.phase = .pre →
      dict = 4 ∨ dict = 5 ∨ dict = 6 → (Inv s → s.cursor + 16 ≤ 8 * s.inLen.toNat) →
      EngineMove s ((s.movedTo (s.cursor + 16)).accepted flag dict)
  /-- A literal of `n` bits (42_tokens.md R80, R81). -/
  | literal (n : Nat) (v : Byte) : s.runState = .busy → s.phase = .token → (Inv s → s.tokenFits n) → s.hasRoom →
      EngineMove s ((s.movedTo (s.cursor + n)).emitted v)
  /-- A COPY token of `n` bits (42_tokens.md R84). -/
  | copying (n len dist : Nat) : s.runState = .busy → s.phase = .token → (Inv s → s.tokenFits n) →
      1 ≤ len → (Inv s → len ≤ 518) → 1 ≤ dist → (Inv s → dist ≤ 4096) → dist ≤ s.outLen.toNat →
      EngineMove s ((s.movedTo (s.cursor + n)).copying (BitVec.ofNat 10 len) (BitVec.ofNat 13 dist))
  /-- END (42_tokens.md R86). -/
  | finished (n : Nat) : s.runState = .busy → s.phase = .token → (Inv s → s.tokenFits n) →
      EngineMove s (s.movedTo (s.cursor + n)).finished
  /-- One byte of the copy in progress (42_tokens.md R85). -/
  | copied (v : Byte) : s.runState = .busy → s.phase = .copy → s.hasRoom → s.copyRem.toNat ≠ 0 →
      EngineMove s ((s.emitted v).copyLeft (BitVec.ofNat 10 (s.copyRem.toNat - 1)))

theorem exec_preamble_dict {i : Instr} (hi : instrKind i = .preamble) (s : State) :
    ∃ flag dict, (dict = 4 ∨ dict = 5 ∨ dict = 6) ∧ exec i s = (preambleToken flag dict s).toOutcome :=
  match i, hi with
  | .preD4 flag, _ => ⟨flag, 4, .inl rfl, rfl⟩
  | .preD5 flag, _ => ⟨flag, 5, .inr (.inl rfl), rfl⟩
  | .preD6 flag, _ => ⟨flag, 6, .inr (.inr rfl), rfl⟩

theorem EngineMove.of_preamble {i : Instr} {s t : State} (hb : s.runState = .busy) (hp : s.phase = .pre)
    (hi : instrKind i = .preamble) (hlen : Inv s → s.cursor + 16 ≤ 8 * s.inLen.toNat) (h : exec i s = .next t) :
    EngineMove s t := by
  obtain ⟨flag, dict, hdict, hexec⟩ := exec_preamble_dict hi s
  rw [hexec] at h
  rw [preambleToken_next h]
  exact .accepted flag dict hb hp hdict hlen

/-- An error that the step itself finds, after the token's `n` bits were read. -/
theorem EngineMove.of_errored {s : State} {n : Nat} (hb : s.runState = .busy) (hfits : Inv s → s.tokenFits n)
    (kind : ErrKind) (site : Site) : EngineMove s ((s.movedTo (s.cursor + n)).errored kind site) := by
  rw [movedTo_errored]
  exact .raised _ hb fun hinv => (hfits hinv).raisesWithin kind site

theorem EngineMove.of_literal {n : Nat} {v : Byte} {s t : State} (hb : s.runState = .busy) (hp : s.phase = .token)
    (hfits : Inv s → s.tokenFits n) (h : (literalToken n v s).toOutcome = .next t) : EngineMove s t := by
  obtain rfl | ⟨hroom, rfl⟩ := literalToken_next h
  · exact .of_errored hb hfits _ _
  · exact .literal n v hb hp hfits hroom

theorem EngineMove.of_copy {i : Instr} {sym x h l : Nat} {s t : State} (hb : s.runState = .busy) (hp : s.phase = .token)
    (hi : copyParts i = some (sym, x, h, l)) (hfits : Inv s → s.tokenFits (instrWidth s.dictBits.toNat i))
    (hlen : Inv s → copyLength sym x ≤ 518) (hnext : exec i s = .next t) : EngineMove s t := by
  obtain ⟨hsym, hx, hh, hl, -⟩ := copyParts_range hi
  rw [exec_copyParts hi] at hnext
  rw [instrWidth_copyParts _ hi] at hfits
  obtain ⟨hend, rfl⟩ | ⟨k, dist, rfl, rfl, rfl | ⟨hdist, rfl⟩⟩ := copyToken_next hnext
  · refine .finished _ hb hp fun hinv => ?_
    have := hlen hinv
    omega
  · exact .of_errored hb hfits _ _
  · obtain ⟨hge, -⟩ := copyLength_bounds hsym hx
    refine .copying _ _ _ hb hp hfits (by omega) hlen (Nat.le_add_left 1 _) (fun hinv => ?_) hdist
    obtain ⟨-, hk⟩ := lowBitCount_bounds (hinv.dictAccepted (by simp [hp])) (copyLength sym x)
    exact copyDistance_le hk hh hl

theorem EngineMove.of_token {i : Instr} {s t : State} (hb : s.runState = .busy) (hp : s.phase = .token)
    (hi : instrKind i = .token) (hread : Inv s → ∃ q, TokenRead s.context s.stream s.cursor (.ok i q))
    (h : exec i s = .next t) : EngineMove s t := by
  have hfits : Inv s → s.tokenFits (instrWidth s.dictBits.toNat i) := fun hinv =>
    let ⟨_, hq⟩ := hread hinv
    let ⟨hge, hle, hin⟩ := hq.width_bounds (hinv.dictAccepted (by simp [hp]))
    ⟨hge, hle, hin⟩
  obtain hpre | ⟨v, rfl⟩ | ⟨v, rfl⟩ | rfl | ⟨sym, x, dsym, l, hparts⟩ := streamInstr_cases (i := i) (by simp [hi])
  · simp [hpre] at hi
  · exact .of_literal hb hp hfits h
  · exact .of_literal hb hp hfits h
  · rw [endToken_next h]
    exact .finished _ hb hp hfits
  · exact .of_copy hb hp hparts hfits (fun hinv => let ⟨_, hq⟩ := hread hinv; hq.copyLength_le hparts) h

theorem EngineMove.of_streamError {e : StreamError} {s t : State} (hb : s.runState = .busy)
    (he : Inv s → s.raisesWithin e) (h : (streamError e s).toOutcome = .next t) : EngineMove s t := by
  obtain ⟨-, rfl⟩ := streamError_next h
  exact .raised e hb he

theorem EngineMove.of_copyByte {s t : State} (hb : s.runState = .busy) (hp : s.phase = .copy)
    (h : (copyByteStep s).toOutcome = .next t) : EngineMove s t := by
  obtain rfl | ⟨v, hroom, hrem, rfl⟩ := copyByteStep_next h
  · rw [errored_eq_raisedBy]
    exact .raised _ hb fun hinv => ⟨le_rfl, hinv.bounds.cursor_le hb, fun _ => ⟨rfl, rfl⟩⟩
  · exact .copied v hb hp hroom hrem

theorem EngineMove.of_preambleRead {s t : State} (hb : s.runState = .busy) (hp : s.phase = .pre)
    (h : runDecoded s (decodePreamble s.stream s.cursor) = .next t) : EngineMove s t := by
  have hcases (hinv : Inv s) :=
    decodePreamble_cases (stream_total hinv.bounds.inLen_le) (hinv.bounds.cursor_le hb)
  cases hdec : decodePreamble s.stream s.cursor with
  | ok i q =>
    rw [hdec] at h
    refine .of_preamble hb hp (instrKind_decodePreamble hdec) (fun hinv => ?_) h
    obtain ⟨_, _, -, hlen⟩ | ⟨e, he, -⟩ := hcases hinv
    · exact hlen
    · rw [hdec] at he
      cases he
  | error e =>
    rw [hdec] at h
    refine .of_streamError hb (fun hinv => ?_) h
    obtain ⟨_, _, hok, -⟩ | ⟨e', he, hle, hlen⟩ := hcases hinv
    · rw [hdec] at hok
      cases hok
    · rw [hdec] at he
      cases he
      exact ⟨hle, hlen, fun hne => absurd hp hne⟩
  | stuck f =>
    rw [hdec] at h
    cases h

theorem EngineMove.of_tokenRead {s t : State} (hb : s.runState = .busy) (hp : s.phase = .token)
    (h : runDecoded s (decodeToken s.context s.stream s.cursor) = .next t) : EngineMove s t := by
  have hread (hinv : Inv s) := hinv.tokenRead hb hp
  cases hdec : decodeToken s.context s.stream s.cursor with
  | ok i q =>
    rw [hdec] at h hread
    exact .of_token hb hp (instrKind_decodeToken hdec) (fun hinv => ⟨q, hread hinv⟩) h
  | error e =>
    rw [hdec] at h hread
    refine .of_streamError hb (fun hinv => ?_) h
    obtain ⟨hle, hlen, hbytes⟩ := (hread hinv).error_bounds
    exact ⟨hle, hlen, fun _ => hbytes⟩
  | stuck f =>
    rw [hdec] at h
    cases h

/-- What an engine step can do, in any state (42_tokens.md R76, R88). -/
theorem engineStep_move {s t : State} (h : engineStep s = .next t) : EngineMove s t := by
  by_cases hb : s.runState = .busy
  · cases hp : s.phase with
    | pre =>
      rw [engineStep_pre hb hp] at h
      exact .of_preambleRead hb hp h
    | token =>
      rw [engineStep_token hb hp] at h
      exact .of_tokenRead hb hp h
    | copy =>
      rw [engineStep_copy hb hp] at h
      exact .of_copyByte hb hp h
  · rw [engineStep_stopped hb] at h
    cases h
    exact .stopped hb

/-! ## The invariant of R36 under each update of the state -/

theorem ErrKind.code_ne_zero (kind : ErrKind) : kind.code ≠ 0 := by
  cases kind <;> decide

theorem ErrKind.code_le (kind : ErrKind) : kind.code.toNat ≤ 4 := by
  cases kind <;> decide

theorem Site.code_ne_zero (site : Site) : site.code ≠ 0 := by
  cases site <;> decide

theorem Site.code_le (site : Site) : site.code.toNat ≤ 11 := by
  cases site <;> decide

theorem Inv.errCode_eq_zero {s : State} (h : Inv s) (hne : s.runState ≠ .error) : s.errCode = 0 := by
  by_contra hcode
  exact hne (h.error.error_iff.mpr hcode)

/-- The error registers of a state that is not in ERROR stay as they are where `STATE` goes to another value than ERROR
(10_state.md R36 (f)). -/
theorem InvError.of_not_error {s t : State} (h : Inv s) (hs : s.runState ≠ .error) (ht : t.runState ≠ .error)
    (hcode : t.errCode = s.errCode) (hdetail : t.errDetail = s.errDetail) (hpos : t.errPos = s.errPos)
    (hbit : t.errBit = s.errBit) : InvError t where
  error_iff := by simp [ht, hcode, h.errCode_eq_zero hs]
  code_le := hcode ▸ h.error.code_le
  detail_le := hdetail ▸ h.error.detail_le
  atError := fun he => absurd he ht
  noError := fun _ => by
    rw [hdetail, hpos, hbit]
    exact h.error.noError hs

theorem Inv.raisedBy {s : State} (h : Inv s) {e : StreamError} (he : s.raisesWithin e) :
    Inv (s.raisedBy e) where
  bounds := { h.bounds with cursor_le := nofun }
  preamble :=
    { valid_iff := h.preamble.valid_iff
      accepted := fun hvalid => by
        obtain ⟨hflag, hdict⟩ := he.no_bytes (h.preamble.valid_iff.mp hvalid)
        simpa [State.raisedBy, hflag, hdict] using h.preamble.accepted hvalid
      notYet := h.preamble.notYet
      beginsAtZero := nofun }
  copy :=
    { inCopy := fun hp => ⟨.inr rfl, (h.copy.inCopy hp).2⟩
      noCopy := h.copy.noCopy
      dist_le := h.copy.dist_le
      idle_pre := nofun
      done_token := nofun }
  error :=
    { error_iff := iff_of_true rfl e.kind.code_ne_zero
      code_le := e.kind.code_le
      detail_le := e.site.code_le
      atError := fun _ => ⟨e.site.code_ne_zero, rfl, rfl⟩
      noError := fun hne => absurd rfl hne }

theorem cursor_lt_of_le {s : State} {p : Nat} (h : p ≤ 8 * s.inLen.toNat) : p < 2 ^ 35 := by
  have : s.inLen.toNat < 2 ^ 32 := s.inLen.isLt
  omega

/-- The cursor moves inside the input after the preamble (10_state.md R36 (a)). -/
theorem Inv.movedTo {s : State} (h : Inv s) (hb : s.runState = .busy) (hp : s.phase ≠ .pre) {p : Nat}
    (hle : p ≤ 8 * s.inLen.toNat) : Inv (s.movedTo p) where
  bounds :=
    { h.bounds with
      cursor_le := fun _ => by rw [movedTo_cursor s p (cursor_lt_of_le hle)]; exact hle }
  preamble := { h.preamble with beginsAtZero := fun _ hpre => absurd hpre hp }
  copy := { h.copy with }
  error := .of_not_error h (by simp [hb]) (by simp [hb]) rfl rfl rfl rfl

theorem Inv.accepted {s : State} (h : Inv s) (hb : s.runState = .busy) (hp : s.phase = .pre) {p : Nat}
    (hle : p ≤ 8 * s.inLen.toNat) (flag : BitVec 1) {dict : BitVec 3} (hdict : dict = 4 ∨ dict = 5 ∨ dict = 6) :
    Inv ((s.movedTo p).accepted flag dict) where
  bounds :=
    { h.bounds with
      cursor_le := fun _ => by rw [accepted_cursor, movedTo_cursor s p (cursor_lt_of_le hle)]; exact hle }
  preamble :=
    { valid_iff := iff_of_true rfl nofun
      accepted := fun _ => ⟨hdict, rfl, rfl⟩
      notYet := nofun
      beginsAtZero := nofun }
  copy :=
    { inCopy := nofun
      noCopy := fun _ => h.copy.noCopy (by simp [hp])
      dist_le := h.copy.dist_le
      idle_pre := fun hidle => by simp [hb] at hidle
      done_token := fun _ => rfl }
  error := .of_not_error h (by simp [hb]) (by simp [hb]) rfl rfl rfl rfl

/-- OUT grows by one byte below its capacity (10_state.md R36 (b)). -/
theorem Inv.emitted {s : State} (h : Inv s) (hroom : s.hasRoom) (v : Byte) : Inv (s.emitted v) where
  bounds :=
    { h.bounds with
      outLen_le := by rw [emitted_outLen hroom]; exact hroom.lt_cap
      outMem_wf := store_keeps_wf _ _ _ h.bounds.outMem_wf
      outMem_below := store_keeps_below _ _ _ _ h.bounds.outMem_below hroom.lt_cap }
  preamble := { h.preamble with }
  copy :=
    { h.copy with
      inCopy := fun hp => by
        obtain ⟨hrun, hrem, hrem', hdist, hle⟩ := h.copy.inCopy hp
        rw [emitted_outLen hroom]
        exact ⟨hrun, hrem, hrem', hdist, Nat.le_succ_of_le hle⟩ }
  error := { h.error with }

theorem Inv.copying {s : State} (h : Inv s) (hb : s.runState = .busy) (hp : s.phase ≠ .pre) {len dist : Nat}
    (hlen : 1 ≤ len) (hlen' : len ≤ 518) (hdist : 1 ≤ dist) (hdist' : dist ≤ 4096) (hout : dist ≤ s.outLen.toNat) :
    Inv (s.copying (BitVec.ofNat 10 len) (BitVec.ofNat 13 dist)) := by
  have hrem : (BitVec.ofNat 10 len).toNat = len := by simp; omega
  have hd : (BitVec.ofNat 13 dist).toNat = dist := by simp; omega
  exact
    { bounds := { h.bounds with }
      preamble :=
        { h.preamble with
          valid_iff := iff_of_true (h.preamble.valid_iff.mpr hp) nofun
          beginsAtZero := nofun }
      copy :=
        { inCopy := fun _ => by
            rw [copying_copyRem, copying_copyDist, hrem, hd]
            exact ⟨.inl hb, hlen, hlen', hdist, hout⟩
          noCopy := fun hne => absurd rfl hne
          dist_le := by rw [copying_copyDist, hd]; exact hdist'
          idle_pre := fun hidle => by simp [hb] at hidle
          done_token := fun hdone => by simp [hb] at hdone }
      error := { h.error with } }

theorem Inv.copyLeft {s : State} (h : Inv s) (hb : s.runState = .busy) (hp : s.phase = .copy) :
    Inv (s.copyLeft (BitVec.ofNat 10 (s.copyRem.toNat - 1))) := by
  obtain ⟨-, hrem, hrem', hdist, hle⟩ := h.copy.inCopy hp
  have hcount : (BitVec.ofNat 10 (s.copyRem.toNat - 1)).toNat = s.copyRem.toNat - 1 := by simp; omega
  generalize BitVec.ofNat 10 (s.copyRem.toNat - 1) = rem at hcount ⊢
  have hphase : (s.copyLeft rem).phase ≠ .pre := by
    rw [copyLeft_phase, hp]
    split <;> nofun
  have hcopy : (s.copyLeft rem).phase = .copy ↔ rem ≠ 0 := by
    rw [copyLeft_phase, hp]
    split
    · next hz => exact iff_of_false nofun fun hne => hne hz
    · next hne => exact iff_of_true rfl hne
  exact
    { bounds := { h.bounds with }
      preamble :=
        { h.preamble with
          valid_iff := iff_of_true (h.preamble.valid_iff.mpr (by simp [hp])) hphase
          beginsAtZero := fun _ hpre => absurd hpre hphase }
      copy :=
        { inCopy := fun hc => by
            have : rem.toNat ≠ 0 := fun hz => hcopy.mp hc (BitVec.eq_of_toNat_eq hz)
            exact ⟨.inl hb, Nat.one_le_iff_ne_zero.mpr this, by rw [copyLeft_copyRem]; omega, hdist, hle⟩
          noCopy := fun hne => not_not.mp fun hr => hne (hcopy.mpr hr)
          dist_le := h.copy.dist_le
          idle_pre := fun hidle => by simp [hb] at hidle
          done_token := fun hdone => by simp [hb] at hdone }
      error := { h.error with } }

theorem Inv.finished {s : State} (h : Inv s) (hb : s.runState = .busy) (hp : s.phase = .token) : Inv s.finished where
  bounds := { h.bounds with cursor_le := nofun }
  preamble := { h.preamble with beginsAtZero := nofun }
  copy :=
    { h.copy with
      inCopy := fun hc => by simp [hp] at hc
      idle_pre := nofun
      done_token := fun _ => hp }
  error := .of_not_error h (by simp [hb]) nofun rfl rfl rfl rfl

theorem EngineMove.inv {s t : State} (hmove : EngineMove s t) (h : Inv s) : Inv t := by
  cases hmove with
  | stopped _ => exact h
  | raised e _ he => exact h.raisedBy (he h)
  | accepted flag dict hb hp hdict hlen => exact h.accepted hb hp (hlen h) flag hdict
  | literal n v hb hp hfits hroom =>
    exact (h.movedTo hb (by simp [hp]) (hfits h).inside).emitted ⟨hroom.lt_cap, hroom.fits⟩ v
  | copying n len dist hb hp hfits hlen hlen' hdist hdist' hout =>
    exact (h.movedTo hb (by simp [hp]) (hfits h).inside).copying hb (by simp [hp]) hlen (hlen' h) hdist (hdist' h) hout
  | finished n hb hp hfits =>
    exact (h.movedTo hb (by simp [hp]) (hfits h).inside).finished hb hp
  | copied v hb hp hroom _ => exact (h.emitted hroom v).copyLeft hb hp

/-! ## The invariant under the host and reset -/

theorem Inv.withAgenda {s : State} (h : Inv s) (turns : List Turn) : Inv (s.withAgenda turns) :=
  ⟨{ h.bounds with }, { h.preamble with }, { h.copy with }, { h.error with }⟩

theorem Inv.answered {s : State} (h : Inv s) (r : HostResult) : Inv (s.answered r) :=
  ⟨{ h.bounds with }, { h.preamble with }, { h.copy with }, { h.error with }⟩

theorem Inv.withDictHint {s : State} (h : Inv s) (v : Byte) : Inv (s.withDictHint v) :=
  ⟨{ h.bounds with }, { h.preamble with }, { h.copy with }, { h.error with }⟩

theorem Inv.withInLen {s : State} (h : Inv s) (hb : s.runState ≠ .busy) {n : BitVec 32} (hn : n.toNat ≤ s.cfg.inCap) :
    Inv (s.withInLen n) :=
  ⟨{ h.bounds with inLen_le := hn, cursor_le := fun hbusy => absurd hbusy hb }, { h.preamble with }, { h.copy with },
    { h.error with }⟩

theorem Inv.withInByte {s : State} (h : Inv s) {a : Nat} (ha : a < s.cfg.inCap) (b : Byte) : Inv (s.withInByte a b) :=
  ⟨{ h.bounds with
      inMem_wf := store_keeps_wf _ _ _ h.bounds.inMem_wf
      inMem_below := store_keeps_below _ _ _ _ h.bounds.inMem_below ha },
    { h.preamble with }, { h.copy with }, { h.error with }⟩

theorem Inv.started {s : State} (h : Inv s) : Inv s.started where
  bounds :=
    { h.bounds with
      outLen_le := Nat.zero_le _
      cursor_le := fun _ => Nat.zero_le _ }
  preamble := by constructor <;> simp [State.cursor]
  copy := by constructor <;> simp
  error := by constructor <;> simp

theorem Inv.startRun {s : State} (h : Inv s) : Inv (startRun s) := by
  unfold Machine.startRun
  split
  · exact h
  · exact h.started

/-- A register write that is not dropped writes `IN_LEN` within `IN_CAP`, DICT_HINT, or starts a run (43_host_commands.md
R93). -/
theorem Inv.writeRegister {s : State} (h : Inv s) (off : Nat) (v : Word) : Inv (writeRegister off v s) := by
  unfold Machine.writeRegister
  split
  · split
    · exact h.startRun
    · exact h
  · split
    · exact h
    · next hb =>
      refine h.withInLen hb ?_
      rw [BitVec.toNat_ofNat]
      exact le_trans (Nat.mod_le _ _) (min_le_right _ _)
  · split
    · exact h
    · exact h.withDictHint _
  · exact h

theorem Inv.execStart {v : Word} {s t : State} (h : Inv s) (ht : execStart v s = .next t) : Inv t := by
  cases ht
  split
  · exact h.startRun.answered _
  · exact h.answered _

/-- A host operation that is refused outside its range answers, where it goes on, inside it (43_host_commands.md R98). -/
theorem guarded_next {c : Prop} [Decidable c] {u t : State} {e : Refusal}
    (h : (if c then .next u else .refused e : StepResult) = .next t) : c ∧ u = t := by
  split at h
  · next hc => exact ⟨hc, Host.Outcome.next.inj h⟩
  · cases h

theorem Inv.execRegRead {off : Nat} {s t : State} (h : Inv s) (ht : execRegRead off s = .next t) : Inv t := by
  obtain ⟨-, rfl⟩ := guarded_next ht
  exact h.answered _

theorem Inv.execRegWrite {off : Nat} {v : Word} {s t : State} (h : Inv s) (ht : execRegWrite off v s = .next t) :
    Inv t := by
  obtain ⟨-, rfl⟩ := guarded_next ht
  exact (h.writeRegister off v).answered _

theorem Inv.execInWrite {a : Nat} {b : Byte} {s t : State} (h : Inv s) (ht : execInWrite a b s = .next t) : Inv t := by
  obtain ⟨ha, rfl⟩ := guarded_next ht
  split
  · exact h.answered _
  · exact (h.withInByte ha b).answered _

theorem Inv.execInRead {a : Nat} {s t : State} (h : Inv s) (ht : execInRead a s = .next t) : Inv t := by
  obtain ⟨-, rfl⟩ := guarded_next ht
  exact h.answered _

theorem Inv.execOutRead {a : Nat} {s t : State} (h : Inv s) (ht : execOutRead a s = .next t) : Inv t := by
  obtain ⟨-, rfl⟩ := guarded_next ht
  exact h.answered _

theorem Inv.hostTurn {r : HostRequest} {s t : State} (h : Inv s) (ht : hostTurn r s = .next t) : Inv t := by
  cases hdec : decodeHost r with
  | error e =>
    simp only [Machine.hostTurn, hdec, reduceCtorEq] at ht
  | ok i =>
    rw [hostTurn_of_decodeHost hdec] at ht
    cases decodeHost_ok hdec with
    | start => exact h.execStart ht
    | regWrite => exact h.execRegWrite ht
    | regRead => exact h.execRegRead ht
    | inWrite => exact h.execInWrite ht
    | inRead => exact h.execInRead ht
    | outRead => exact h.execOutRead ht

theorem inv_resetWith {c : Config} (hc : c.legal) : Inv (State.resetWith c) where
  bounds := ⟨hc, Nat.zero_le _, Nat.zero_le _, nofun, .nil, .nil, nofun, nofun⟩
  preamble := by constructor <;> simp [State.resetWith]
  copy := by constructor <;> simp [State.resetWith]
  error := by constructor <;> simp [State.resetWith]

theorem Inv.afterReset {s : State} (h : Inv s) : Inv s.afterReset :=
  have hreset := inv_resetWith h.bounds.legal
  ⟨{ hreset.bounds with }, { hreset.preamble with }, { hreset.copy with }, { hreset.error with }⟩

/-- Settles O49: the first turn of the agenda is the engine's, the host's or reset, and each keeps the invariant. -/
theorem everyStepKeepsTheInvariant : Obligations.EveryStepKeepsTheInvariant := by
  intro s t h ht
  match hagenda : s.agenda with
  | [] =>
    rw [step_nil hagenda] at ht
    exact (engineStep_move ht).inv h
  | .engine :: rest =>
    rw [step_engine hagenda] at ht
    exact (engineStep_move ht).inv (h.withAgenda rest)
  | .host r :: rest =>
    rw [step_host hagenda] at ht
    exact (h.withAgenda rest).hostTurn ht
  | .reset :: rest =>
    rw [step_reset hagenda] at ht
    cases ht
    exact (h.withAgenda rest).afterReset

/-- Settles O48: every register is 0, so each clause of R36 is about zeros. -/
theorem invariantHoldsAtReset : Obligations.InvariantHoldsAtReset :=
  ⟨inv_resetWith (by decide), fun _ => inv_resetWith⟩

/-! ## The cursor -/

theorem EngineMove.cursor_bounds {s t : State} (hmove : EngineMove s t) (h : Inv s) (hb : s.runState = .busy) :
    s.cursor ≤ t.cursor ∧ t.cursor ≤ 8 * s.inLen.toNat ∧
      (s.phase = .token → t.runState ≠ .error → s.cursor + 5 ≤ t.cursor ∧ t.cursor ≤ s.cursor + 30) := by
  have hmoved {n : Nat} (hle : s.cursor + n ≤ 8 * s.inLen.toNat) : (s.movedTo (s.cursor + n)).cursor = s.cursor + n :=
    movedTo_cursor s _ (cursor_lt_of_le hle)
  cases hmove with
  | stopped hstop => exact absurd hb hstop
  | raised e _ he =>
    obtain ⟨hge, hle, -⟩ := he h
    rw [raisedBy_cursor s (cursor_lt_of_le hle)]
    exact ⟨hge, hle, fun _ hne => absurd rfl hne⟩
  | accepted flag dict _ hp _ hlen =>
    rw [accepted_cursor, hmoved (hlen h)]
    exact ⟨Nat.le_add_right _ _, hlen h, fun hp' => by simp [hp] at hp'⟩
  | literal n v _ _ hfits _ =>
    obtain ⟨hge, hle, hlen⟩ := hfits h
    rw [State.emitted, appended_cursor, hmoved hlen]
    exact ⟨Nat.le_add_right _ _, hlen, fun _ _ => by omega⟩
  | copying n len dist _ _ hfits =>
    obtain ⟨hge, hle, hlen⟩ := hfits h
    rw [copying_cursor, hmoved hlen]
    exact ⟨Nat.le_add_right _ _, hlen, fun _ _ => by omega⟩
  | finished n _ _ hfits =>
    obtain ⟨hge, hle, hlen⟩ := hfits h
    rw [finished_cursor, hmoved hlen]
    exact ⟨Nat.le_add_right _ _, hlen, fun _ _ => by omega⟩
  | copied v _ hp =>
    rw [copyLeft_cursor, State.emitted, appended_cursor]
    exact ⟨le_rfl, h.bounds.cursor_le hb, fun hp' => by simp [hp] at hp'⟩

/-- Settles O45: every move of a run in progress puts the cursor inside the input, a token's past its own bits. -/
theorem cursorOnlyMovesForward : Obligations.CursorOnlyMovesForward :=
  fun _ _ h hb ht => (engineStep_move ht).cursor_bounds h hb

/-! ## The engine's frame -/

/-- The host's side of a state (10_state.md R24, R27; 20_memory.md R38): IN, the host registers, the parameters, and the model's
own fields. -/
def State.hostSide (s : State) : Memory × BitVec 32 × BitVec 8 × Config × List Turn × HostResult × Nat :=
  (s.inMem, s.inLen, s.dictHint, s.cfg, s.agenda, s.hostResult, s.resetEpoch)

theorem EngineMove.hostSide_eq {s t : State} (h : EngineMove s t) : t.hostSide = s.hostSide := by
  cases h <;> rfl

/-- A step emits no byte or one at `OUT_LEN` (10_state.md R36 (g)). -/
theorem EngineMove.out_cases {s t : State} (h : EngineMove s t) :
    t.outLen = s.outLen ∧ t.outByte = s.outByte ∨
      ∃ v, t.outLen.toNat = s.outLen.toNat + 1 ∧ t.outByte = (s.emitted v).outByte := by
  cases h with
  | stopped | raised | accepted | copying | finished => exact .inl ⟨rfl, rfl⟩
  | literal n v _ _ _ hroom => exact .inr ⟨v, emitted_outLen hroom v, rfl⟩
  | copied v _ _ hroom => exact .inr ⟨v, emitted_outLen hroom v, rfl⟩

/-- Settles O46: no move touches the host's side, and the one write to OUT is `Emit`'s at `OUT_LEN`. -/
theorem engineAppendsAndNothingElse : Obligations.EngineAppendsAndNothingElse := by
  intro s t ht
  have hmove := engineStep_move ht
  have hhost := hmove.hostSide_eq
  simp only [State.hostSide, Prod.mk.injEq] at hhost
  obtain ⟨hinMem, hinLen, hhint, hcfg, hagenda, hresult, hepoch⟩ := hhost
  refine ⟨hinMem, hinLen, hhint, hcfg, hagenda, hresult, hepoch, ?_⟩
  obtain ⟨hlen, hout⟩ | ⟨v, hlen, hout⟩ := hmove.out_cases
  · exact ⟨.inl (by rw [hlen]), fun a _ => by rw [hout]⟩
  · refine ⟨.inr hlen, fun a ha => ?_⟩
    rw [hout, State.emitted, appended_outByte, if_neg ha]

/-! ## CTRL and STATUS -/

theorem writeRegister_ctrl_of_clear {v : Word} (hv : v.getLsbD 0 = false) (s : State) : writeRegister 0x00 v s = s :=
  if_neg (by rw [hv]; nofun)

/-- Settles O26: a write to CTRL is the START operation's own effect, whatever its bit 0 is (R29, R94). -/
theorem controlRegister : Obligations.ControlRegister := by
  intro v s
  refine ⟨fun _ => rfl, fun hv => ?_, rfl⟩
  calc exec (.regWrite 0x00 v) s = .next ((writeRegister 0x00 v s).answered .nothing) := rfl
    _ = .next (s.answered .nothing) := by rw [writeRegister_ctrl_of_clear hv]

/-- A field of `w` bits put above a word that stays below its place `k` adds its value there (10_state.md R30). -/
theorem toNat_or_field {x : Word} {n w k : Nat} (hx : x.toNat = n) (y : BitVec w) (hn : n < 2 ^ k) (hk : w + k ≤ 32) :
    (x ||| (y.setWidth 32 <<< k)).toNat = n + y.toNat * 2 ^ k := by
  subst hx
  have hfield : y.toNat * 2 ^ k < 2 ^ 32 := by
    calc y.toNat * 2 ^ k < 2 ^ w * 2 ^ k := Nat.mul_lt_mul_of_pos_right y.isLt (by positivity)
      _ = 2 ^ (w + k) := (pow_add 2 w k).symm
      _ ≤ 2 ^ 32 := Nat.pow_le_pow_right (by omega) hk
  rw [BitVec.toNat_or, BitVec.toNat_shiftLeft, BitVec.toNat_setWidth_of_le (by omega), Nat.shiftLeft_eq,
    Nat.mod_eq_of_lt hfield, ← Nat.shiftLeft_eq, Nat.or_comm, ← Nat.shiftLeft_add_eq_or_of_lt hn, Nat.shiftLeft_eq,
    Nat.add_comm]

theorem statusWord_toNat (s : State) :
    s.statusWord.toNat = s.runState.code.toNat + s.phase.code.toNat * 2 ^ 2 + s.litMode.toNat * 2 ^ 4
      + s.preValid.toNat * 2 ^ 5 + s.dictBits.toNat * 2 ^ 8 + s.errCode.toNat * 2 ^ 12 + s.errDetail.toNat * 2 ^ 16 := by
  have hstate := s.runState.code.isLt
  have hphase := s.phase.code.isLt
  have hmode := s.litMode.isLt
  have hvalid := s.preValid.isLt
  have hdict := s.dictBits.isLt
  have hcode := s.errCode.isLt
  have upToState : (s.runState.code.setWidth 32).toNat = s.runState.code.toNat := BitVec.toNat_setWidth_of_le (by omega)
  have upToPhase := toNat_or_field (k := 2) upToState s.phase.code (by omega) (by omega)
  have upToMode := toNat_or_field (k := 4) upToPhase s.litMode (by omega) (by omega)
  have upToValid := toNat_or_field (k := 5) upToMode s.preValid (by omega) (by omega)
  have upToDict := toNat_or_field (k := 8) upToValid s.dictBits (by omega) (by omega)
  have upToCode := toNat_or_field (k := 12) upToDict s.errCode (by omega) (by omega)
  exact toNat_or_field (k := 16) upToCode s.errDetail (by omega) (by omega)

/-- Settles O27: no two fields of STATUS share a bit, so their values add up. -/
theorem statusRegister : Obligations.StatusRegister :=
  fun _ s => ⟨⟨s.statusWord, rfl, statusWord_toNat s⟩, rfl⟩

/-! ## The finding on R36 (a) -/

/-- After a run over the four bytes `00 04 01 FF`, a preamble and END, the host's next turn writes 0 to `IN_LEN`, as P4 step 7
writes a smaller length (95_test_vectors.md). -/
def doneBeforeShorterInput : State :=
  { State.resetWith Config.largest with
      runState := .done, phase := .token, preValid := 1, dictBits := 4, preDict := 4, inLen := 4, curByte := 4,
      inMem := [(0, 0x00), (1, 0x04), (2, 0x01), (3, 0xFF)], agenda := [.host (regWriteRequest 0x08 0)] }

theorem inv_doneBeforeShorterInput : Inv doneBeforeShorterInput := by
  refine ⟨?_, ?_, ?_, ?_⟩ <;> constructor <;> decide

/-- Settles O51: the cursor stays at 32 where the written `IN_LEN` is 0. -/
theorem inLenCanFallBelowTheCursorAfterARun : Obligations.InLenCanFallBelowTheCursorAfterARun :=
  ⟨doneBeforeShorterInput, _, inv_doneBeforeShorterInput, by decide, rfl,
    everyStepKeepsTheInvariant _ _ inv_doneBeforeShorterInput rfl, by decide⟩

end Sys2Proof.Machine
end

section
/-! PROOFS. The statement of 20_memory.md: what a host read leaves unchanged (R44). -/

namespace Sys2Proof.Machine

open Sys2Proof

/-! ## What a host turn can answer -/

/-- A host turn that goes on ran an operation of the block (43_host_commands.md R91, R98). -/
theorem hostTurn_next {r : HostRequest} {s t : State} (h : hostTurn r s = .next t) :
    ∃ i, HostDecoded r i ∧ exec i s = .next t := by
  cases hdec : decodeHost r with
  | error e => simp only [hostTurn, hdec, reduceCtorEq] at h
  | ok i => exact ⟨i, decodeHost_ok hdec, hostTurn_of_decodeHost hdec s ▸ h⟩

/-- The three reads leave nothing but their result (43_host_commands.md R92, R96, R97); the other operations are writes. -/
theorem HostDecoded.read_next {r : HostRequest} {i : Instr} {s t : State} (hi : HostDecoded r i) (hr : r.write = false)
    (h : exec i s = .next t) : ∃ v, t = s.answered v := by
  cases hi with
  | start _ _ hw | regWrite _ _ hw | inWrite _ _ hw => exact absurd hw (by simp [hr])
  | regRead | inRead | outRead =>
    obtain ⟨-, rfl⟩ := guarded_next h
    exact ⟨_, rfl⟩

/-- Settles O34: the turn is used up first, then one of the three reads leaves its result. -/
theorem hostReadsChangeNothing : Obligations.HostReadsChangeNothing := by
  intro r rest s t hagenda hread ht
  rw [step_host hagenda] at ht
  obtain ⟨i, hdecoded, hexec⟩ := hostTurn_next ht
  obtain ⟨v, rfl⟩ := hdecoded.read_next hread hexec
  rfl

end Sys2Proof.Machine
end

section
/-! PROOFS. The statements of 30_encoding.md on the formats themselves: what a stream that holds an encoding is read as (R50 to
R58), what a token that was read says of the stream (R63), how long tokens are (R64), and the operands of a COPY (R56, R65). -/

namespace Sys2Proof.Machine

open Sys2Proof

/-! ## Reading what the stream holds -/

/-- The control bit says which path reads the rest of the token (30_encoding.md R51). -/
theorem decodeToken_holds {c : Context} {src : BitSource} {p : Nat} {b : Bool} {bits : List Bool}
    (h : src.holds p (b :: bits)) :
    decodeToken c src p = if b then decodeCopyPath c src (p + 1) else decodeLiteral c src (p + 1) := by
  obtain ⟨hbit, -⟩ := BitSource.holds_append (as := [b]) h
  have hread : readBits src 1 .controlBit p = .ok b.toNat (p + 1) := by
    simpa using readBits_holds .controlBit hbit (by simp) (by simp)
  rw [decodeToken, hread, Read.bind_ok]
  cases b <;> rfl

theorem decodeLiteral_holds_raw {c : Context} {src : BitSource} {p : Nat} {v : Byte} (hm : c.litMode = 0)
    (h : src.holds p (fieldBits 8 v.toNat)) : decodeLiteral c src p = .ok (.litRaw v) (p + 8) := by
  rw [decodeLiteral, if_pos hm, readBits_field .literal h v.isLt (by decide) (by decide), Read.bind_ok,
    BitVec.ofNat_toNat, BitVec.setWidth_eq]

theorem decodeLiteral_holds_coded {c : Context} {src : BitSource} {p : Nat} {v : Byte} (hm : c.litMode = 1)
    (hsrc : src.total) (h : src.holds p (litTable.streamCode v.toNat)) :
    decodeLiteral c src p = .ok (.litCoded v) (p + litTable.codeLen v.toNat) := by
  rw [decodeLiteral, if_neg (by simp [hm]), decodeSymbol_holds litTable_sound hsrc .literal v.isLt h, Read.bind_ok,
    BitVec.ofNat_toNat, BitVec.setWidth_eq]

theorem readExtra_holds {src : BitSource} {sym x p : Nat} (hs : sym < 16) (hx : x < 2 ^ lenExtra sym)
    (h : src.holds p (fieldBits (lenExtra sym) x)) : readExtra src sym p = .ok x (p + lenExtra sym) := by
  unfold readExtra
  split
  · next hnone =>
    rw [hnone, pow_zero, Nat.lt_one_iff] at hx
    rw [hx, hnone, Nat.add_zero]
  · next hsome =>
    have := lenCode_extra_le hs
    exact readBits_field .lengthExtra h hx hsome (by omega)

/-- The length code and its extra bits decide between END and a distance (30_encoding.md R54, R55). -/
theorem decodeCopyPath_holds {c : Context} {src : BitSource} {sym x p : Nat} (hsrc : src.total) (hs : sym < 16)
    (hx : x < 2 ^ lenExtra sym) (h : src.holds p (lenTable.streamCode sym ++ fieldBits (lenExtra sym) x)) :
    decodeCopyPath c src p =
      if copyLength sym x = endLength then .ok .endMark (p + lenTable.codeLen sym + lenExtra sym)
      else decodeDistance c src sym x (p + lenTable.codeLen sym + lenExtra sym) := by
  obtain ⟨hcode, hextra⟩ := BitSource.holds_append h
  rw [streamCode_length] at hextra
  rw [decodeCopyPath, decodeSymbol_holds lenTable_sound hsrc .lengthCode hs hcode, Read.bind_ok,
    readExtra_holds hs hx hextra, Read.bind_ok]

/-- The fields of a COPY row give the row back (30_encoding.md R54). -/
theorem copyInstr_copyParts {i : Instr} {sym x h l : Nat} (hi : copyParts i = some (sym, x, h, l)) :
    copyInstr sym x (BitVec.ofNat 6 h) (BitVec.ofNat 6 l) = some i := by
  cases i <;> simp only [copyParts, Option.some.injEq, Prod.mk.injEq, reduceCtorEq] at hi <;>
    obtain ⟨rfl, rfl, rfl, rfl⟩ := hi <;> simp [copyInstr]

theorem decodeDistance_holds {c : Context} {src : BitSource} {i : Instr} {sym x h l p : Nat} (hsrc : src.total)
    (hi : copyParts i = some (sym, x, h, l)) (hwf : wellFormed c i = true)
    (hbits : src.holds p
      (distTable.streamCode h ++ fieldBits (lowBitCount (copyLength sym x) c.dictBits.toNat) l)) :
    decodeDistance c src sym x p =
      .ok i (p + distTable.codeLen h + lowBitCount (copyLength sym x) c.dictBits.toNat) := by
  obtain ⟨-, -, hh, hl, -⟩ := copyParts_range hi
  obtain ⟨-, -, hlow⟩ := (wellFormed_copyParts hi).mp hwf
  have hpos := lowBitCount_pos_of_wellFormed hi hwf
  have hle : lowBitCount (copyLength sym x) c.dictBits.toNat ≤ 16 := by
    have := c.dictBits.isLt
    unfold lowBitCount
    split <;> omega
  obtain ⟨hcode, hfield⟩ := BitSource.holds_append hbits
  rw [streamCode_length] at hfield
  rw [decodeDistance, decodeSymbol_holds distTable_sound hsrc .distanceCode hh hcode, Read.bind_ok,
    readBits_field .distanceLow hfield hlow (by omega) hle, Read.bind_ok, if_neg (by omega), copyInstr_copyParts hi]

/-- A stream that holds a COPY row's bits is read as that row (30_encoding.md R54). -/
theorem decodeToken_copy {c : Context} {src : BitSource} {i : Instr} {sym x h l p : Nat} (hsrc : src.total)
    (hi : copyParts i = some (sym, x, h, l)) (hwf : wellFormed c i = true) (hbits : src.holds p (encode c i).bits) :
    decodeToken c src p = .ok i (p + (encode c i).bits.length) := by
  obtain ⟨hs, hx, -⟩ := copyParts_range hi
  obtain ⟨hne, -⟩ := (wellFormed_copyParts hi).mp hwf
  rw [encode_copyParts hi] at hbits ⊢
  obtain ⟨-, -, hrest⟩ := BitSource.holds_cons hbits
  rw [List.append_assoc] at hrest
  obtain ⟨hlength, hdistance⟩ := BitSource.holds_append hrest
  rw [List.length_append, streamCode_length, fieldBits_length, ← Nat.add_assoc] at hdistance
  rw [decodeToken_holds hbits, if_pos rfl, decodeCopyPath_holds hsrc hs hx hlength,
    if_neg (show copyLength sym x ≠ endLength from hne), decodeDistance_holds hsrc hi hwf hdistance,
    Laws.copyBits_length]
  congr 1
  unfold copyWidth
  omega

/-- Settles O1: each format of R52 to R55 is read field by field, by what its fields hold. -/
theorem tokenDecodesFromItsEncoding : Obligations.TokenDecodesFromItsEncoding := by
  intro c i src p hkind hwf hsrc hbits
  obtain hpre | ⟨v, rfl⟩ | ⟨v, rfl⟩ | rfl | ⟨sym, x, h, l, hparts⟩ := streamInstr_cases (i := i) (by simp [hkind])
  · simp [hpre] at hkind
  · obtain ⟨-, -, hrest⟩ := BitSource.holds_cons hbits
    rw [decodeToken_holds hbits, if_neg nofun, decodeLiteral_holds_raw (by simpa [wellFormed] using hwf) hrest]
    rfl
  · obtain ⟨-, -, hrest⟩ := BitSource.holds_cons hbits
    rw [decodeToken_holds hbits, if_neg nofun, decodeLiteral_holds_coded (by simpa [wellFormed] using hwf) hsrc hrest,
      Laws.EncodingWidth.litCoded v c]
    simp only [instrWidth, litCodedWidth, Nat.add_assoc]
  · obtain ⟨-, -, hrest⟩ := BitSource.holds_cons hbits
    rw [decodeToken_holds hbits, if_pos rfl, decodeCopyPath_holds hsrc (by decide) (by decide) hrest,
      if_pos (show copyLength 15 255 = endLength from rfl)]
    rfl
  · exact decodeToken_copy hsrc hparts hwf hbits

theorem preambleInstr_fields {c : Context} {i : Instr} (hi : instrKind i = .preamble) :
    ∃ f d, f ≤ 1 ∧ d < 256 ∧ (encode c i).bits = preambleBits f d ∧ preambleInstr f d = some i := by
  cases i <;> simp only [instrKind, reduceCtorEq] at hi <;>
    exact ⟨_, _, Nat.le_of_lt_succ (BitVec.isLt _), by decide, rfl, by simp [preambleInstr]⟩

/-- Settles O3: the two bytes are read in turn, and the flag byte of a form is legal. -/
theorem preambleDecodesFromItsEncoding : Obligations.PreambleDecodesFromItsEncoding := by
  intro c i src p hkind _ hbits
  obtain ⟨f, d, hf, hd, henc, hinstr⟩ := preambleInstr_fields (c := c) hkind
  rw [henc] at hbits
  obtain ⟨hflag, hdict⟩ := BitSource.holds_append hbits
  rw [fieldBits_length] at hdict
  have hreadFlag := readBits_field .preambleFlag hflag (by omega) (by decide) (by decide)
  have hreadDict := readBits_field .preambleDict hdict hd (by decide) (by decide)
  simp only [decodePreamble, hreadFlag, if_neg (show ¬ 1 < f by omega), hreadDict, hinstr, Nat.add_assoc]

/-! ## What a token that was read says of the stream -/

theorem toNat_ofNat_of_lt {w v : Nat} (h : v < 2 ^ w) : (BitVec.ofNat w v).toNat = v := by
  rw [BitVec.toNat_ofNat, Nat.mod_eq_of_lt h]

theorem readBits_eq_ok {src : BitSource} (ht : src.total) {n v p q : Nat} {site : Site} (h0 : n ≠ 0) (h16 : n ≤ 16)
    (h : readBits src n site p = .ok v q) : q = p + n ∧ v < 2 ^ n ∧ src.holds p (fieldBits n v) := by
  obtain ⟨herr, -⟩ | ⟨w, hok, hw, -, hbits⟩ := readBits_cases ht site p h0 h16
  · rw [herr] at h
    cases h
  · rw [hok] at h
    cases h
    exact ⟨rfl, hw, hbits⟩

theorem decodeSymbol_eq_ok {t : CodeTable} {n : Nat} (ht : t.Sound n) {src : BitSource} (hsrc : src.total) {site : Site}
    {sym p q : Nat} (h : decodeSymbol src t site p = .ok sym q) :
    q = p + t.codeLen sym ∧ sym < n ∧ src.holds p (t.streamCode sym) := by
  obtain ⟨herr, -⟩ | ⟨sym', hlt, hok, hbits⟩ := decodeSymbol_total ht hsrc site p
  · rw [herr] at h
    cases h
  · rw [hok] at h
    cases h
    exact ⟨rfl, hlt, hbits⟩

theorem readExtra_eq_ok {src : BitSource} (ht : src.total) {sym x p q : Nat} (hs : sym < 16) (hp : p ≤ src.len)
    (h : readExtra src sym p = .ok x q) :
    q = p + lenExtra sym ∧ x < 2 ^ lenExtra sym ∧ src.holds p (fieldBits (lenExtra sym) x) := by
  obtain ⟨herr, -⟩ | ⟨y, hok, hy, -, hbits⟩ := readExtra_cases ht p hs hp
  · rw [herr] at h
    cases h
  · rw [hok] at h
    cases h
    exact ⟨rfl, hy, hbits⟩

/-- Instruction `i` is well-formed, and `src` holds from `p` to `q` what its encoding has behind the control bit `b`
(30_encoding.md R51). -/
structure HeldBehind (c : Context) (src : BitSource) (b : Bool) (p q : Nat) (i : Instr) : Prop where
  wf : wellFormed c i = true
  bits : ∃ bits, (encode c i).bits = b :: bits ∧ src.holds p bits ∧ q = p + bits.length

theorem decodeLiteral_eq_ok {c : Context} {src : BitSource} {p q : Nat} {i : Instr} (ht : src.total)
    (h : decodeLiteral c src p = .ok i q) : HeldBehind c src false p q i := by
  unfold decodeLiteral at h
  split at h
  · next hm =>
    obtain ⟨v, p', hread, h⟩ := Read.bind_eq_ok h
    obtain ⟨rfl, hv, hbits⟩ := readBits_eq_ok ht (by decide) (by decide) hread
    cases h
    have hv' : (BitVec.ofNat 8 v).toNat = v := toNat_ofNat_of_lt hv
    exact ⟨by simp [wellFormed, hm], fieldBits 8 v, by simp only [encode, Encoded.bits, hv'], hbits, by simp⟩
  · next hm =>
    obtain ⟨v, p', hread, h⟩ := Read.bind_eq_ok h
    obtain ⟨rfl, hv, hbits⟩ := decodeSymbol_eq_ok litTable_sound ht hread
    cases h
    have hv' : (BitVec.ofNat 8 v).toNat = v := toNat_ofNat_of_lt hv
    have hm' : c.litMode = 1 := (BitVec.eq_zero_or_eq_one c.litMode).resolve_left hm
    exact ⟨by simp [wellFormed, hm'], litTable.streamCode v, by simp only [encode, Encoded.bits, hv'], hbits, by simp⟩

/-- The distance fields of a token whose length symbol and extra value are known (30_encoding.md R54, R56). -/
theorem decodeDistance_eq_ok {c : Context} {src : BitSource} {sym x p q : Nat} {i : Instr} (hd : c.dictAccepted = true)
    (ht : src.total) (hs : sym < 16) (hx : x < 2 ^ lenExtra sym) (h : decodeDistance c src sym x p = .ok i q) :
    ∃ d l, copyParts i = some (sym, x, d, l) ∧ l < 2 ^ lowBitCount (copyLength sym x) c.dictBits.toNat ∧
      src.holds p (distTable.streamCode d ++ fieldBits (lowBitCount (copyLength sym x) c.dictBits.toNat) l) ∧
      q = p + distTable.codeLen d + lowBitCount (copyLength sym x) c.dictBits.toNat := by
  obtain ⟨hk2, hk6⟩ := lowBitCount_bounds hd (copyLength sym x)
  obtain ⟨d, p', hreadCode, h⟩ := Read.bind_eq_ok h
  obtain ⟨l, q', hreadLow, h⟩ := Read.bind_eq_ok h
  obtain ⟨rfl, hd64, hcode⟩ := decodeSymbol_eq_ok distTable_sound ht hreadCode
  obtain ⟨rfl, hl, hlow⟩ := readBits_eq_ok ht (by omega) (by omega) hreadLow
  have hl64 : l < 2 ^ 6 := lt_of_lt_of_le hl (Nat.pow_le_pow_right (by decide) hk6)
  have hd' : (BitVec.ofNat 6 d).toNat = d := toNat_ofNat_of_lt hd64
  have hl' : (BitVec.ofNat 6 l).toNat = l := toNat_ofNat_of_lt hl64
  have hl4 : sym = 1 → (BitVec.ofNat 6 l).toNat < 4 := by
    intro hsym
    rw [lowBitCount_sym _ hs hx, if_pos hsym] at hl
    omega
  obtain ⟨i', hi', hparts⟩ := copyInstr_parts (BitVec.ofNat 6 d) (BitVec.ofNat 6 l) hs hx hl4
  rw [if_neg (by omega), hi'] at h
  cases h
  rw [hd', hl'] at hparts
  exact ⟨d, l, hparts, hl, holds_append_of hcode (by rwa [streamCode_length]), rfl⟩

theorem decodeCopyPath_eq_ok {c : Context} {src : BitSource} {p q : Nat} {i : Instr} (hd : c.dictAccepted = true)
    (ht : src.total) (h : decodeCopyPath c src p = .ok i q) : HeldBehind c src true p q i := by
  obtain ⟨sym, p', hreadCode, h⟩ := Read.bind_eq_ok h
  obtain ⟨x, q', hreadExtra, h⟩ := Read.bind_eq_ok h
  obtain ⟨rfl, hs, hcode⟩ := decodeSymbol_eq_ok lenTable_sound ht hreadCode
  obtain ⟨rfl, hx, hextra⟩ := readExtra_eq_ok ht hs (by simpa using hcode.1) hreadExtra
  have hlength : src.holds p (lenTable.streamCode sym ++ fieldBits (lenExtra sym) x) :=
    holds_append_of hcode (by rwa [streamCode_length])
  split at h
  · next hend =>
    obtain ⟨rfl, rfl⟩ := (copyLength_eq_end hs hx).mp hend
    cases h
    exact ⟨rfl, _, rfl, hlength, by simp [Nat.add_assoc, lenExtra]⟩
  · next hne =>
    obtain ⟨d, l, hparts, hl, hdistance, rfl⟩ := decodeDistance_eq_ok hd ht hs hx h
    refine ⟨(wellFormed_copyParts hparts).mpr ⟨hne, fun _ => hd, hl⟩, _, encode_copyParts hparts, ?_, ?_⟩
    · rw [List.append_assoc]
      exact holds_append_of hlength (by simpa [Nat.add_assoc] using hdistance)
    · simp [Nat.add_assoc]

/-- Settles O2: each read that succeeded says which bits stand there; put together they are the token's encoding. -/
theorem decodedTokenIsInTheStream : Obligations.DecodedTokenIsInTheStream := by
  intro c i src p q hd ht h
  have hkind := instrKind_decodeToken h
  obtain ⟨ctl, p', hread, h⟩ := Read.bind_eq_ok h
  obtain ⟨rfl, hctl, hbit⟩ := readBits_eq_ok ht (by decide) (by decide) hread
  have hbehind : HeldBehind c src (ctl.testBit 0) (p + 1) q i := by
    obtain rfl | rfl : ctl = 0 ∨ ctl = 1 := by omega
    · exact decodeLiteral_eq_ok ht h
    · exact decodeCopyPath_eq_ok hd ht h
  obtain ⟨bits, henc, hbits, rfl⟩ := hbehind.bits
  rw [henc]
  exact ⟨hkind, hbehind.wf, holds_append_of hbit hbits, by rw [List.length_cons]; omega⟩

/-- Settles O6: the answers of `TokenRead` are the two the statement names. -/
theorem tokenReadingOnlyRunsOutOfInput : Obligations.TokenReadingOnlyRunsOutOfInput := by
  intro c src p hd ht hp
  have hread := decodeToken_read hd ht hp
  generalize decodeToken c src p = r at hread ⊢
  cases hread with
  | litRaw v _ hlen | litCoded v _ hlen | endMark hlen | copy i sym x h l k _ _ _ _ hlen => exact .inl ⟨_, _, rfl, hlen⟩
  | truncated site q hge hle hshort => exact .inr ⟨site, q, rfl, hge, hle, hshort⟩

/-! ## Token lengths -/

theorem litTable_codeLen_eq_four {v : Nat} (hv : v < 256) : litTable.codeLen v = 4 ↔ v = 0x20 := by
  revert v
  decide +kernel

/-- The shortest length field, code and extra bits: only length symbol 0 has a code of 2 bits, and symbol 1, the one with two
distance low bits, has 3 (30_encoding.md R62). -/
theorem lenCode_extra_ge {sym : Nat} (hs : sym < 16) :
    (if sym = 1 then 3 else 2) ≤ lenTable.codeLen sym + lenExtra sym := by
  revert sym
  decide

theorem distTable_codeLen_ge {h : Nat} (hh : h < 64) : 2 ≤ distTable.codeLen h := by
  revert h
  decide

/-- A COPY row is 8 to 30 bits wide (30_encoding.md R64). -/
theorem encode_copy_length {c : Context} {i : Instr} {sym x h l : Nat} (hd : c.dictAccepted = true)
    (hi : copyParts i = some (sym, x, h, l)) : 8 ≤ (encode c i).bits.length ∧ (encode c i).bits.length ≤ 30 := by
  obtain ⟨hs, hx, hh, -⟩ := copyParts_range hi
  obtain ⟨hk2, hk6⟩ := lowBitCount_bounds hd (copyLength sym x)
  rw [encode_copyParts hi, Laws.copyBits_length]
  refine ⟨?_, (copyWidth_bounds hs hh hk2 hk6).2⟩
  have hlen := lenCode_extra_ge hs
  have hdist := distTable_codeLen_ge hh
  have hdict := dictAccepted_bounds hd
  rw [lowBitCount_sym _ hs hx]
  unfold copyWidth
  split at hlen
  · next hsym =>
    rw [if_pos hsym]
    omega
  · next hsym =>
    rw [if_neg hsym]
    omega

/-- Settles O7: every row's bits are as many as its width. -/
theorem tokenLengths : Obligations.TokenLengths := by
  intro c hd
  refine ⟨fun v => Laws.EncodingWidth.litRaw v c, fun v => ?_, fun i hi => ?_,
    (Laws.EncodingWidth.endMark c).trans endWidth_eq⟩
  · obtain ⟨hge, hle⟩ := litCodedWidth_bounds v
    have hfour := litTable_codeLen_eq_four v.isLt
    rw [Laws.EncodingWidth.litCoded v c]
    refine ⟨hge, hle, ?_⟩
    calc litCodedWidth v = 5 ↔ litTable.codeLen v.toNat = 4 := by unfold litCodedWidth; omega
      _ ↔ v.toNat = (0x20 : Byte).toNat := hfour
      _ ↔ v = 0x20 := BitVec.toNat_inj
  · obtain ⟨⟨sym, x, h, l⟩, hparts⟩ := Option.isSome_iff_exists.mp hi
    exact encode_copy_length hd hparts

/-! ## The operands of a COPY -/

/-- Where the lengths of one symbol end, those of another begin, up to 519 (30_encoding.md R56). -/
theorem lenBase_continues {sym : Nat} (hs : sym < 16) (hle : lenBase sym + 2 ^ lenExtra sym ≤ 519) :
    ∃ next < 16, lenBase next = lenBase sym + 2 ^ lenExtra sym := by
  revert sym
  decide

/-- No length belongs to two symbols (30_encoding.md R56). -/
theorem lenBase_disjoint {s t : Nat} (hs : s < 16) (ht : t < 16) (hne : s ≠ t) :
    lenBase s + 2 ^ lenExtra s ≤ lenBase t ∨ lenBase t + 2 ^ lenExtra t ≤ lenBase s := by
  have hall : ∀ s < 16, ∀ t < 16, s ≠ t →
      lenBase s + 2 ^ lenExtra s ≤ lenBase t ∨ lenBase t + 2 ^ lenExtra t ≤ lenBase s := by decide
  exact hall s hs t ht hne

/-- Every length belongs to a symbol: from 2 on, the next length is the same symbol's or the first one of another. -/
theorem exists_lenBase {len : Nat} (hge : 2 ≤ len) (hle : len ≤ 519) :
    ∃ s < 16, lenBase s ≤ len ∧ len < lenBase s + 2 ^ lenExtra s := by
  induction len, hge using Nat.le_induction with
  | base => exact ⟨1, by decide⟩
  | succ len _ ih =>
    obtain ⟨s, hs, hbase, hlt⟩ := ih (by omega)
    by_cases hsame : len + 1 < lenBase s + 2 ^ lenExtra s
    · exact ⟨s, hs, by omega, hsame⟩
    · obtain ⟨next, hnext, heq⟩ := lenBase_continues hs (by omega)
      have := Nat.two_pow_pos (lenExtra next)
      exact ⟨next, hnext, by omega, by omega⟩

/-- Settles O8: the symbols' ranges of lengths cover 2 to 519 without a gap, and no two of them meet. -/
theorem lengthsTileOnce : Obligations.LengthsTileOnce := by
  intro len hge hle
  obtain ⟨s, hs, hbase, hlt⟩ := exists_lenBase hge hle
  refine ⟨s, len - lenBase s, hs, by omega, by unfold copyLength; omega, fun s' x' hs' hx' hlen => ?_⟩
  unfold copyLength at hlen
  have hsame : s' = s := by
    by_contra hne
    have := lenBase_disjoint hs' hs hne
    omega
  subst hsame
  exact ⟨rfl, by omega⟩

/-- The symbol chosen for `COPY len, dist` is one that has the length (30_encoding.md R65). -/
theorem lenSymbol_spec {len : Nat} (hge : 2 ≤ len) (hle : len ≤ 519) :
    lenSymbol len < 16 ∧ lenBase (lenSymbol len) ≤ len ∧
      len < lenBase (lenSymbol len) + 2 ^ lenExtra (lenSymbol len) := by
  obtain ⟨s, hs, hrange⟩ := exists_lenBase hge hle
  obtain ⟨t, ht⟩ : ∃ t, (List.range 16).find? (fun s => lenBase s ≤ len && len < lenBase s + 2 ^ lenExtra s) = some t :=
    Option.isSome_iff_exists.mp (List.find?_isSome.mpr ⟨s, List.mem_range.mpr hs, by simpa using hrange⟩)
  have hsym : lenSymbol len = t := by simp only [lenSymbol, ht, Option.getD_some]
  rw [hsym]
  exact ⟨List.mem_range.mp (List.mem_of_find?_eq_some ht), by simpa using List.find?_some ht⟩

/-- A distance is put together again from its high part and its k low bits (30_encoding.md R56, R65). -/
theorem copyDistance_split {k dist : Nat} (hdist : 1 ≤ dist) :
    copyDistance k ((dist - 1) >>> k) ((dist - 1) % 2 ^ k) = dist := by
  have := Nat.div_add_mod (dist - 1) (2 ^ k)
  rw [Nat.mul_comm] at this
  rw [copyDistance, Nat.shiftRight_eq_div_pow, Nat.shiftLeft_eq]
  omega

/-- A distance in the range of k low bits has a high part of 6 bits (30_encoding.md R54, R56). -/
theorem distance_high_lt {k dist : Nat} (hdist : 1 ≤ dist) (hfar : dist ≤ 2 ^ (6 + k)) : (dist - 1) >>> k < 2 ^ 6 := by
  rw [Nat.shiftRight_eq_div_pow, Nat.div_lt_iff_lt_mul (Nat.two_pow_pos k), ← pow_add]
  omega

/-- The COPY row of length symbol `sym`, extra value `x` and a distance in its range (30_encoding.md R54, R65). -/
theorem copyInstr_of_distance {sym x dist d k : Nat} (hs : sym < 16) (hx : x < 2 ^ lenExtra sym)
    (hk : k = lowBitCount (copyLength sym x) d) (hk6 : k ≤ 6) (hdist : 1 ≤ dist) (hfar : dist ≤ 2 ^ (6 + k)) :
    ∃ i, copyInstr sym x (BitVec.ofNat 6 ((dist - 1) >>> k)) (BitVec.ofNat 6 ((dist - 1) % 2 ^ k)) = some i ∧
      copyParts i = some (sym, x, (dist - 1) >>> k, (dist - 1) % 2 ^ k) := by
  have hlow : (dist - 1) % 2 ^ k < 2 ^ k := Nat.mod_lt _ (Nat.two_pow_pos k)
  have hlow6 : (dist - 1) % 2 ^ k < 2 ^ 6 := lt_of_lt_of_le hlow (Nat.pow_le_pow_right (by decide) hk6)
  have hlow4 (h1 : sym = 1) : (BitVec.ofNat 6 ((dist - 1) % 2 ^ k)).toNat < 2 ^ 2 := by
    rw [lowBitCount_sym _ hs hx, if_pos h1] at hk
    rw [toNat_ofNat_of_lt hlow6]
    exact lt_of_lt_of_eq hlow (congrArg (2 ^ ·) hk)
  obtain ⟨i, hi, hparts⟩ := copyInstr_parts (BitVec.ofNat 6 ((dist - 1) >>> k)) _ hs hx hlow4
  rw [toNat_ofNat_of_lt (distance_high_lt hdist hfar), toNat_ofNat_of_lt hlow6] at hparts
  exact ⟨i, hi, hparts⟩

/-- Settles O9: the length has a symbol, and the distance symbol and low bits are a division with remainder. -/
theorem copyNotationDenotesItsOperands : Obligations.CopyNotationDenotesItsOperands := by
  intro c len dist hd hge hle hdist hfar
  obtain ⟨hs, hbase, hlt⟩ := lenSymbol_spec hge (by omega)
  obtain ⟨-, hk6⟩ := lowBitCount_bounds hd len
  have hlen : copyLength (lenSymbol len) (len - lenBase (lenSymbol len)) = len := by unfold copyLength; omega
  obtain ⟨i, hi, hparts⟩ :=
    copyInstr_of_distance (x := len - lenBase (lenSymbol len)) hs (by omega) (by rw [hlen]) hk6 hdist hfar
  refine ⟨i, _, _, _, _, ?_, ?_, hparts, hlen, copyDistance_split hdist⟩
  · rw [copyForm, Nat.and_two_pow_sub_one_eq_mod]
    exact hi
  · rw [wellFormed_copyParts hparts, hlen]
    exact ⟨by omega, fun _ => hd, Nat.mod_lt _ (Nat.two_pow_pos _)⟩

/-! ## Single cases -/

/-- Settles O10: eight closed decodings. -/
theorem specWordsDecode : Obligations.SpecWordsDecode := by
  unfold Obligations.SpecWordsDecode
  decide +kernel

/-- Settles O20: a COPY row runs the copy path, which looks at the length value first and then at the number of low bits. -/
theorem copyFormsThatStartNoCopy : Obligations.CopyFormsThatStartNoCopy := by
  intro i sym x h l s hparts
  rw [exec_copyParts hparts]
  refine ⟨fun hend => congrArg Micro.toOutcome (copyToken_end hend), fun hne hk => ?_⟩
  simp only [copyToken]
  rw [if_neg (show copyLength sym x ≠ endLength from hne), if_pos hk, Micro.toOutcome_stuck]

end Sys2Proof.Machine
end

section
/-! PROOFS. The statement of 30_encoding.md on whole streams: a run over the bytes of legal forms and END ends with the bytes
that the forms denote (R65, 42_tokens.md R76 to R89, 70_reset_and_hazards.md R121). -/

namespace Sys2Proof.Machine

open Sys2Proof

/-! ## The stream as bytes of IN -/

theorem packedByte_getLsbD (pad : Bool) (bits : List Bool) (i : Nat) {j : Nat} (hj : j < 8) :
    (packedByte pad bits i).getLsbD j = bits.getD (8 * i + j) pad := by
  have hvalue : packedByte pad bits i =
      BitVec.ofNat 8 (bitsValue ((List.range 8).map fun j => bits.getD (8 * i + j) pad)) := by
    simp only [packedByte, bitsValue, List.foldr_map]
  rw [hvalue, BitVec.getLsbD_ofNat, testBit_bitsValue]
  simp [hj]

/-- IN holds a bit string where it holds the string's bytes, whatever its padding is and whatever follows (20_memory.md R42). -/
theorem stream_holds_packBytes {s : State} {pad : Bool} {bits : List Bool} (hcap : s.inLen.toNat ≤ s.cfg.inCap)
    (hlen : (packBytes pad bits).length ≤ s.inLen.toNat)
    (hin : ∀ a, (ha : a < (packBytes pad bits).length) → s.inByte a = (packBytes pad bits)[a]) :
    s.stream.holds 0 bits := by
  have hcount : (packBytes pad bits).length = (bits.length + 7) / 8 := by simp [packBytes]
  refine ⟨by simp only [State.stream]; omega, fun j hj => ?_⟩
  have hbyte : s.inByte (j / 8) = packedByte pad bits (j / 8) := by
    rw [hin _ (by omega)]
    simp [packBytes]
  have hbit := packedByte_getLsbD pad bits (j / 8) (Nat.mod_lt j (by decide))
  rw [Nat.div_add_mod, List.getD_eq_getElem _ _ hj] at hbit
  simp only [State.stream, Nat.zero_add]
  rw [if_pos (by omega), hbyte, hbit]

/-- The stream bits of a form (30_encoding.md R65). -/
def formBits (c : Context) (form : StreamForm) : List Bool := (form.tokens c).flatMap fun i => (encode c i).bits

/-- The capacities do not enter which tokens a form stands for (30_encoding.md R64). -/
theorem tokens_config (c : Context) (cfg : Config) (form : StreamForm) :
    form.tokens { c with cfg := cfg } = form.tokens c := by
  cases form <;> rfl

/-- A whole stream is its preamble's bits, the bits of its forms and those of END (30_encoding.md R49, R65). -/
theorem streamBytes_eq {pad : Bool} {f d : Nat} {i : Instr} (hi : preambleInstr f d = some i) {c : Context}
    (hmode : c.litMode = BitVec.ofNat 1 f) (hdict : c.dictBits = BitVec.ofNat 3 d) (forms : List StreamForm) :
    streamBytes pad f d (forms ++ [.finish]) =
      packBytes pad ((encode c i).bits ++ (forms.flatMap (formBits c) ++ (encode c .endMark).bits)) := by
  have hfinish : (StreamForm.finish.tokens c).flatMap (fun i => (encode c i).bits) = (encode c .endMark).bits :=
    List.append_nil _
  simp only [streamBytes, preambleForm, hi, ← hmode, ← hdict, List.flatMap_append, List.flatMap_assoc,
    tokens_config c Config.largest, encode_config c Config.largest, List.flatMap_singleton, hfinish, Option.toList]
  rfl

/-! ## What OUT shows -/

/-- OUT holds exactly the bytes `out` (10_state.md R23). -/
structure State.shows (s : State) (out : List Byte) : Prop where
  outLen_eq : s.outLen.toNat = out.length
  outByte_eq : ∀ a, (ha : a < out.length) → s.outByte a = out[a]

theorem Inv.hasRoom {s : State} (h : Inv s) (hlt : s.outLen.toNat < s.cfg.outCap) : s.hasRoom := by
  obtain ⟨-, -, -, hcap⟩ := h.bounds.legal
  exact ⟨hlt, by omega⟩

theorem emit_of_hasRoom {s : State} (h : s.hasRoom) (v : Byte) (site : Site) : emit v site s = .ok (s.emitted v) := by
  have hlt := h.lt_cap
  simp only [emit, append, fitting]
  rw [if_neg (by omega), if_pos hlt, if_pos h.fits]
  rfl

theorem State.shows.emitted {s : State} {out : List Byte} (h : s.shows out) (hroom : s.hasRoom) (v : Byte) :
    (s.emitted v).shows (out ++ [v]) where
  outLen_eq := by rw [emitted_outLen hroom, h.outLen_eq, List.length_append, List.length_singleton]
  outByte_eq a ha := by
    rw [State.emitted, appended_outByte, h.outLen_eq]
    split
    · next heq => simp [heq]
    · next hne =>
      have ha' : a < out.length := by
        rw [List.length_append, List.length_singleton] at ha
        omega
      rw [h.outByte_eq a ha', List.getElem_append_left ha']

/-! ## One step of a run -/

/-- A run in progress that nothing interrupts, over the source `src` under the choices `c`: the cursor stands at `p`, and OUT
holds the bytes `out`. -/
structure RunAt (c : Context) (src : BitSource) (p : Nat) (out : List Byte) (s : State) : Prop where
  inv : Inv s
  busy : s.runState = .busy
  agenda : s.agenda = []
  context : s.context = c
  stream : s.stream = src
  cursor : s.cursor = p
  shows : s.shows out

section
variable {c : Context} {src : BitSource} {p : Nat} {out : List Byte} {s : State}

/-- The step runs the token whose encoding stands at the cursor (42_tokens.md R79), and moves the cursor inside the input. -/
theorem RunAt.step_token {i : Instr} (h : RunAt c src p out s) (hp : s.phase = .token) (hi : instrKind i = .token)
    (hwf : wellFormed c i = true) (hbits : src.holds p (encode c i).bits) :
    step s = exec i s ∧ s.cursor + (encode c i).bits.length ≤ 8 * s.inLen.toNat := by
  obtain ⟨hinv, hb, hagenda, rfl, rfl, rfl, -⟩ := h
  refine ⟨?_, hbits.1⟩
  rw [step_nil hagenda, engineStep_token hb hp,
    tokenDecodesFromItsEncoding _ i _ _ hi hwf (stream_total hinv.bounds.inLen_le) hbits]
  rfl

theorem litForm_spec (c : Context) (v : Byte) :
    instrKind (litForm c v) = .token ∧ wellFormed c (litForm c v) = true ∧
      ∀ s, exec (litForm c v) s = (literalToken (encode c (litForm c v)).bits.length v s).toOutcome := by
  unfold litForm
  split
  · next hm =>
    rw [Laws.EncodingWidth.litRaw v c]
    exact ⟨rfl, by simp [wellFormed, hm], fun _ => rfl⟩
  · next hm =>
    rw [Laws.EncodingWidth.litCoded v c]
    exact ⟨rfl, by simp [wellFormed, (BitVec.eq_zero_or_eq_one c.litMode).resolve_left hm], fun _ => rfl⟩

/-- A literal with room in OUT appends its byte (42_tokens.md R80, R81). -/
theorem RunAt.literal {v : Byte} (h : RunAt c src p out s) (hp : s.phase = .token)
    (hbits : src.holds p (encode c (litForm c v)).bits) (hroom : out.length < c.cfg.outCap) :
    ∃ t, step s = .next t ∧ RunAt c src (p + (encode c (litForm c v)).bits.length) (out ++ [v]) t ∧ t.phase = .token := by
  obtain ⟨hkind, hwf, hexec⟩ := litForm_spec c v
  obtain ⟨hstep, hinside⟩ := h.step_token hp hkind hwf hbits
  obtain ⟨hinv, hb, hagenda, rfl, rfl, rfl, hshows⟩ := h
  have hcursor := cursor_lt_of_le hinside
  rw [hexec, literalToken_of hcursor] at hstep
  generalize s.cursor + (encode s.context (litForm s.context v)).bits.length = q at hstep hcursor ⊢
  obtain ⟨hlt, hfits⟩ := hinv.hasRoom (by rw [hshows.outLen_eq]; exact hroom)
  have hroom' : (s.movedTo q).hasRoom := ⟨hlt, hfits⟩
  rw [emit_of_hasRoom hroom', Micro.toOutcome_ok] at hstep
  have hmoved : (s.movedTo q).shows out := ⟨hshows.outLen_eq, hshows.outByte_eq⟩
  exact ⟨_, hstep, ⟨everyStepKeepsTheInvariant s _ hinv hstep, hb, hagenda, rfl, rfl, movedTo_cursor s q hcursor,
    hmoved.emitted hroom' v⟩, hp⟩

theorem copyStart_of {len dist : Nat} {s : State} (hdist : dist ≤ s.outLen.toNat) (hlen : len < 2 ^ 10)
    (hfits : dist < 2 ^ 13) :
    copyStart len dist s = .ok (s.copying (BitVec.ofNat 10 len) (BitVec.ofNat 13 dist)) := by
  simp only [copyStart, fitting]
  rw [if_neg (by omega), if_pos hlen, if_pos hfits]

/-- A well-formed COPY row starts its copy behind its own bits (42_tokens.md R82 to R84). -/
theorem exec_copy {i : Instr} {sym x h l k : Nat} (hparts : copyParts i = some (sym, x, h, l))
    (hwf : wellFormed s.context i = true) (hk : k = lowBitCount (copyLength sym x) s.dictBits.toNat)
    (hcursor : s.cursor + (encode s.context i).bits.length < 2 ^ 35) :
    exec i s = (copyStart (copyLength sym x) (copyDistance k h l)
      (s.movedTo (s.cursor + (encode s.context i).bits.length))).toOutcome := by
  obtain ⟨hne, -⟩ := (wellFormed_copyParts hparts).mp hwf
  have hwidth : (encode s.context i).bits.length = copyWidth sym h k := by
    rw [encode_copyParts hparts, Laws.copyBits_length, hk]
    rfl
  rw [hwidth, hk] at hcursor
  rw [hwidth, hk, exec_copyParts hparts, copyToken_of hne (lowBitCount_pos_of_wellFormed hparts hwf) hcursor]

/-- A COPY row whose distance is within the output leaves a copy in progress (42_tokens.md R84). -/
theorem RunAt.startCopy {i : Instr} {sym x h l k : Nat} (hrun : RunAt c src p out s) (hp : s.phase = .token)
    (hparts : copyParts i = some (sym, x, h, l)) (hwf : wellFormed c i = true) (hbits : src.holds p (encode c i).bits)
    (hk : k = lowBitCount (copyLength sym x) c.dictBits.toNat) (hdist : copyDistance k h l ≤ out.length) :
    ∃ t, step s = .next t ∧ RunAt c src (p + (encode c i).bits.length) out t ∧ t.phase = .copy ∧
      t.copyRem.toNat = copyLength sym x ∧ t.copyDist.toNat = copyDistance k h l := by
  obtain ⟨hsym, hx, hh, hl, -⟩ := copyParts_range hparts
  obtain ⟨-, hlen⟩ := copyLength_bounds hsym hx
  obtain ⟨hstep, hinside⟩ := hrun.step_token hp (instrKind_copyInstr (copyInstr_copyParts hparts)) hwf hbits
  obtain ⟨hinv, hb, hagenda, rfl, rfl, rfl, hshows⟩ := hrun
  obtain ⟨-, hk6⟩ := lowBitCount_bounds (hinv.dictAccepted (by simp [hp])) (copyLength sym x)
  have hdist13 : copyDistance k h l < 2 ^ 13 := copyDistance_lt (by omega) hh hl
  have hcursor := cursor_lt_of_le hinside
  rw [exec_copy hparts hwf hk hcursor] at hstep
  generalize s.cursor + (encode s.context i).bits.length = q at hstep hcursor ⊢
  rw [copyStart_of (by rw [movedTo_outLen, hshows.outLen_eq]; exact hdist) (by omega) hdist13, Micro.toOutcome_ok] at hstep
  exact ⟨_, hstep, ⟨everyStepKeepsTheInvariant s _ hinv hstep, hb, hagenda, rfl, rfl, movedTo_cursor s q hcursor,
    ⟨hshows.outLen_eq, hshows.outByte_eq⟩⟩, rfl, toNat_ofNat_of_lt (by omega), toNat_ofNat_of_lt hdist13⟩

/-- A step of the copy in progress appends the byte `COPY_DIST` back (42_tokens.md R85). -/
theorem RunAt.copyByte (h : RunAt c src p out s) (hp : s.phase = .copy) (hroom : out.length < c.cfg.outCap) :
    ∃ t, step s = .next t ∧ RunAt c src p (out ++ [out.getD (out.length - s.copyDist.toNat) 0]) t ∧
      t.copyRem.toNat = s.copyRem.toNat - 1 ∧ t.copyDist = s.copyDist ∧
      t.phase = if s.copyRem.toNat = 1 then .token else .copy := by
  obtain ⟨hinv, hb, hagenda, rfl, rfl, rfl, hshows⟩ := h
  obtain ⟨-, hrem, -, hdist, hback⟩ := hinv.copy.inCopy hp
  have hlen := hshows.outLen_eq
  have hroom' := hinv.hasRoom (by rw [hlen]; exact hroom)
  have hlt := hroom'.lt_cap
  have hsource : s.outByte (s.outLen.toNat - s.copyDist.toNat) = out.getD (out.length - s.copyDist.toNat) 0 := by
    rw [hlen, hshows.outByte_eq _ (by omega), List.getD_eq_getElem]
  have hstep : step s = .next ((s.emitted (out.getD (out.length - s.copyDist.toNat) 0)).copyLeft (s.copyRem - 1)) := by
    rw [step_nil hagenda, engineStep_copy hb hp, copyByteStep_of s hback (by omega), hsource, emit_of_hasRoom hroom',
      Micro.bind_ok, copyCountDown_of (show (s.emitted _).copyRem.toNat ≠ 0 from Nat.ne_of_gt hrem), Micro.toOutcome_ok]
    rfl
  have hleft : (s.copyRem - 1).toNat = s.copyRem.toNat - 1 := by bv_omega
  have hlast : s.copyRem - 1 = 0 ↔ s.copyRem.toNat = 1 := by bv_omega
  have hemitted := hshows.emitted hroom' (out.getD (out.length - s.copyDist.toNat) 0)
  refine ⟨_, hstep, ⟨everyStepKeepsTheInvariant s _ hinv hstep, hb, hagenda, rfl, rfl, rfl,
    ⟨hemitted.outLen_eq, hemitted.outByte_eq⟩⟩, hleft, rfl, ?_⟩
  simp only [copyLeft_phase, hlast]
  exact if_congr Iff.rfl rfl hp

/-- END ends the run, OUT as it is (42_tokens.md R86). -/
theorem RunAt.finish (h : RunAt c src p out s) (hp : s.phase = .token) (hbits : src.holds p (encode c .endMark).bits) :
    ∃ t, step s = .next t ∧ t.runState = .done ∧ t.shows out := by
  obtain ⟨hstep, hinside⟩ := h.step_token hp rfl rfl hbits
  rw [Laws.EncodingWidth.endMark c] at hinside
  have hcursor : s.cursor + endWidth < 2 ^ 35 := cursor_lt_of_le hinside
  refine ⟨(s.movedTo (s.cursor + endWidth)).finished, ?_, rfl, h.shows.outLen_eq, h.shows.outByte_eq⟩
  rw [hstep]
  change (endToken s).toOutcome = _
  rw [endToken, advance_of_lt hcursor, Micro.bind_ok, Micro.toOutcome_ok]

/-- The preamble makes the run's choices and tokens follow (42_tokens.md R78). -/
theorem RunAt.of_preamble {f d : Nat} {i : Instr} (hd4 : 4 ≤ d) (hd6 : d ≤ 6) (hi : preambleInstr f d = some i)
    (hinv : Inv s) (hb : s.runState = .busy) (hp : s.phase = .pre) (hagenda : s.agenda = []) (hout : s.outLen = 0)
    (hc : c = { litMode := BitVec.ofNat 1 f, dictBits := BitVec.ofNat 3 d, cfg := s.cfg })
    (hbits : s.stream.holds 0 (encode c i).bits) :
    ∃ t, step s = .next t ∧ RunAt c s.stream (encode c i).bits.length [] t ∧ t.phase = .token := by
  obtain ⟨hkind, hexec⟩ : instrKind i = .preamble ∧
      exec i s = (preambleToken (BitVec.ofNat 1 f) (BitVec.ofNat 3 d) s).toOutcome := by
    interval_cases d <;> cases hi <;> exact ⟨rfl, rfl⟩
  have hzero := hinv.preamble.beginsAtZero hb hp
  have hwidth : (encode c i).bits.length = 16 := by
    interval_cases d <;> cases hi <;> exact Laws.preambleBits_length _ _
  have hstep : step s = .next ((s.movedTo 16).accepted (BitVec.ofNat 1 f) (BitVec.ofNat 3 d)) := by
    rw [step_nil hagenda, engineStep_pre hb hp, hzero,
      preambleDecodesFromItsEncoding c i _ _ hkind (stream_total hinv.bounds.inLen_le) hbits]
    change exec i s = _
    rw [hexec, preambleToken, advance_of_lt (by rw [hzero]; decide), hzero]
    rfl
  rw [hwidth]
  exact ⟨_, hstep, ⟨everyStepKeepsTheInvariant s _ hinv hstep, hb, hagenda, hc.symm, rfl,
    movedTo_cursor s 16 (by decide), ⟨by simp [hout], nofun⟩⟩, rfl⟩

/-! ## From token to token -/

/-- The copy in progress takes one step per byte and leaves the bytes of R121. -/
theorem RunAt.copyBytes {n : Nat} (h : RunAt c src p out s) (hp : s.phase = .copy) (hrem : s.copyRem.toNat = n + 1)
    (hroom : out.length + (n + 1) ≤ c.cfg.outCap) :
    ∃ t, runsTo (n + 1) s t ∧ RunAt c src p (copyOut s.copyDist.toNat (n + 1) out) t ∧ t.phase = .token := by
  induction n generalizing s out with
  | zero =>
    obtain ⟨t, hstep, ht, -, -, hphase⟩ := h.copyByte hp (by omega)
    exact ⟨t, runsTo_one hstep, ht, by rw [hphase, if_pos hrem]⟩
  | succ n ih =>
    obtain ⟨t, hstep, ht, hremt, hdist, hphase⟩ := h.copyByte hp (by omega)
    rw [if_neg (by omega)] at hphase
    obtain ⟨u, hrun, hu, hphaseu⟩ := ih ht hphase (by omega) (by rw [List.length_append, List.length_singleton]; omega)
    rw [hdist] at hu
    exact ⟨u, runsTo_succ hstep hrun, hu, hphaseu⟩

/-- From `s` the run comes to where it reads a token at `p`, with the bytes `out` in OUT. -/
def State.comesTo (s : State) (c : Context) (src : BitSource) (p : Nat) (out : List Byte) : Prop :=
  ∃ n t, runsTo n s t ∧ RunAt c src p out t ∧ t.phase = .token

theorem RunAt.comesTo_self (h : RunAt c src p out s) (hp : s.phase = .token) : s.comesTo c src p out :=
  ⟨0, s, runsTo_zero s, h, hp⟩

theorem State.comesTo.trans {q : Nat} {out' : List Byte} (h : s.comesTo c src p out)
    (hnext : ∀ t, RunAt c src p out t → t.phase = .token → t.comesTo c src q out') : s.comesTo c src q out' := by
  obtain ⟨m, t, hrun, ht, hp⟩ := h
  obtain ⟨n, u, hrun', hu⟩ := hnext t ht hp
  exact ⟨m + n, u, runsTo_trans hrun hrun', hu⟩

end

theorem copyOut_length (dist n : Nat) (out : List Byte) : (copyOut dist n out).length = out.length + n := by
  induction n generalizing out with
  | zero => rfl
  | succ n ih =>
    rw [copyOut, ih, List.length_append, List.length_singleton]
    omega

/-- A copy from one byte back repeats the last byte, as FILL says (30_encoding.md R65). -/
theorem copyOut_one (v : Byte) (n : Nat) (out : List Byte) :
    copyOut 1 n (out ++ [v]) = out ++ List.replicate (n + 1) v := by
  induction n generalizing out with
  | zero => rfl
  | succ n ih =>
    have hlast : (out ++ [v]).getD ((out ++ [v]).length - 1) 0 = v := by simp
    rw [copyOut, hlast, ih, List.append_assoc, List.singleton_append, ← List.replicate_succ]

section
variable {c : Context} {src : BitSource} {p : Nat} {out : List Byte} {s : State}

/-- `LIT v` (30_encoding.md R65). -/
theorem RunAt.lit {v : Byte} (h : RunAt c src p out s) (hp : s.phase = .token)
    (hbits : src.holds p (formBits c (.lit v))) (hroom : out.length < c.cfg.outCap) :
    s.comesTo c src (p + (formBits c (.lit v)).length) (out ++ [v]) := by
  have hform : formBits c (.lit v) = (encode c (litForm c v)).bits := List.append_nil _
  rw [hform] at hbits ⊢
  obtain ⟨t, hstep, ht⟩ := h.literal hp hbits hroom
  exact ⟨1, t, runsTo_one hstep, ht⟩

/-- `COPY len, dist` is one token, whose copy gives the bytes of R121 (30_encoding.md R65). -/
theorem RunAt.copy {len dist : Nat} (h : RunAt c src p out s) (hp : s.phase = .token) (hlen2 : 2 ≤ len)
    (hlen : len ≤ 518) (hdist : 1 ≤ dist) (hfar : dist ≤ 2 ^ (6 + lowBitCount len c.dictBits.toNat))
    (hback : dist ≤ out.length) (hbits : src.holds p (formBits c (.copy len dist)))
    (hroom : out.length + len ≤ c.cfg.outCap) :
    s.comesTo c src (p + (formBits c (.copy len dist)).length) (copyOut dist len out) := by
  have hd : c.dictAccepted = true := h.context ▸ h.inv.dictAccepted (by simp [hp])
  obtain ⟨i, sym, x, hi, l, hform, hwf, hparts, rfl, rfl⟩ :=
    copyNotationDenotesItsOperands c len dist hd hlen2 hlen hdist hfar
  have hone : formBits c (.copy (copyLength sym x) (copyDistance (lowBitCount (copyLength sym x) c.dictBits.toNat) hi l)) =
      (encode c i).bits := by
    simp [formBits, StreamForm.tokens, hform]
  rw [hone] at hbits ⊢
  obtain ⟨t, hstep, ht, hphase, hrem, hdistt⟩ := h.startCopy hp hparts hwf hbits rfl hback
  obtain ⟨n, hn⟩ : ∃ n, copyLength sym x = n + 1 := ⟨copyLength sym x - 1, by omega⟩
  rw [hn] at hrem hroom
  obtain ⟨u, hrun, hu⟩ := ht.copyBytes hphase hrem hroom
  rw [hdistt, ← hn] at hu
  exact ⟨_, u, runsTo_succ hstep hrun, hu⟩

/-- A legal form is read as its tokens, which append the bytes that it denotes (30_encoding.md R65). -/
theorem RunAt.form {form : StreamForm} (h : RunAt c src p out s) (hp : s.phase = .token)
    (hlegal : form.legal c out = true) (hbits : src.holds p (formBits c form))
    (hroom : (form.apply out).length ≤ c.cfg.outCap) :
    s.comesTo c src (p + (formBits c form).length) (form.apply out) := by
  cases form with
  | lit v => exact h.lit hp hbits (by simpa [StreamForm.apply] using hroom)
  | copy len dist =>
    simp only [StreamForm.legal, decide_eq_true_eq] at hlegal
    obtain ⟨hlen2, hlen, hdist, hfar, hback⟩ := hlegal
    rw [StreamForm.apply, copyOut_length] at hroom
    exact h.copy hp hlen2 hlen hdist hfar hback hbits hroom
  | fill v n =>
    simp only [StreamForm.legal, decide_eq_true_eq] at hlegal
    simp only [StreamForm.apply, List.length_append, List.length_replicate] at hroom
    have hform : formBits c (.fill v n) = formBits c (.lit v) ++ formBits c (.copy (n - 1) 1) := by
      simp [formBits, StreamForm.tokens]
    have hout : out ++ List.replicate n v = copyOut 1 (n - 1) (out ++ [v]) := by
      rw [copyOut_one, Nat.sub_add_cancel (by omega)]
    rw [hform] at hbits ⊢
    obtain ⟨hlit, hcopy⟩ := BitSource.holds_append hbits
    rw [List.length_append, ← Nat.add_assoc, StreamForm.apply, hout]
    have hlength : (out ++ [v]).length = out.length + 1 := List.length_append
    exact (h.lit hp hlit (by omega)).trans fun t ht hpt =>
      ht.copy hpt (by omega) (by omega) le_rfl Nat.one_le_two_pow (by omega) hcopy (by omega)
  | finish => cases hlegal

end

theorem length_le_apply (out : List Byte) (form : StreamForm) : out.length ≤ (form.apply out).length := by
  cases form <;> simp [StreamForm.apply, copyOut_length]

theorem denote_cons {c : Context} {form : StreamForm} {rest : List StreamForm} {out final : List Byte}
    (h : denote c (form :: rest) out = some final) :
    form.legal c out = true ∧ denote c rest (form.apply out) = some final := by
  rw [denote] at h
  split at h
  · next hlegal => exact ⟨hlegal, h⟩
  · cases h

/-- What forms denote only grows (30_encoding.md R65). -/
theorem length_le_of_denote {c : Context} {forms : List StreamForm} {out final : List Byte}
    (h : denote c forms out = some final) : out.length ≤ final.length := by
  induction forms generalizing out with
  | nil =>
    cases h
    exact le_rfl
  | cons form rest ih =>
    obtain ⟨-, h⟩ := denote_cons h
    exact le_trans (length_le_apply out form) (ih h)

/-- Forms that are legal one after another are read one after another (30_encoding.md R65). -/
theorem RunAt.forms {c : Context} {src : BitSource} {p : Nat} {out final : List Byte} {s : State}
    {forms : List StreamForm} (h : RunAt c src p out s) (hp : s.phase = .token)
    (hdenote : denote c forms out = some final) (hbits : src.holds p (forms.flatMap (formBits c)))
    (hroom : final.length ≤ c.cfg.outCap) :
    s.comesTo c src (p + (forms.flatMap (formBits c)).length) final := by
  induction forms generalizing s p out with
  | nil =>
    cases hdenote
    exact h.comesTo_self hp
  | cons form rest ih =>
    obtain ⟨hlegal, hrest⟩ := denote_cons hdenote
    rw [List.flatMap_cons] at hbits ⊢
    obtain ⟨hform, hbits'⟩ := BitSource.holds_append hbits
    rw [List.length_append, ← Nat.add_assoc]
    exact (h.form hp hlegal hform (le_trans (length_le_of_denote hrest) hroom)).trans
      fun t ht hpt => ih ht hpt hrest hbits'

theorem exists_preambleInstr (f : Nat) {d : Nat} (hd4 : 4 ≤ d) (hd6 : d ≤ 6) : ∃ i, preambleInstr f d = some i := by
  interval_cases d <;> exact ⟨_, rfl⟩

/-- Settles O54: the preamble's step, the forms one by one, then END, over one string of bits that IN holds. -/
theorem decompressionGivesTheDenotedBytes : Obligations.DecompressionGivesTheDenotedBytes := by
  intro s pad f d forms out _ hd4 hd6 hdenote hinv hb hp hagenda hout hlen hin hroom
  obtain ⟨i, hi⟩ := exists_preambleInstr f hd4 hd6
  obtain ⟨c, hc⟩ : ∃ c : Context, c = { litMode := BitVec.ofNat 1 f, dictBits := BitVec.ofNat 3 d, cfg := s.cfg } :=
    ⟨_, rfl⟩
  have hcap : c.cfg = s.cfg := by rw [hc]
  have hbytes := streamBytes_eq (pad := pad) hi (c := c) (by rw [hc]) (by rw [hc]) forms
  simp only [hbytes] at hlen hin
  have hstream := stream_holds_packBytes hinv.bounds.inLen_le hlen hin
  rw [← hc] at hdenote
  obtain ⟨hpreamble, hrest⟩ := BitSource.holds_append hstream
  obtain ⟨hforms, hfinish⟩ := BitSource.holds_append hrest
  rw [Nat.zero_add] at hforms hfinish
  obtain ⟨t, hstep, ht, hpt⟩ := RunAt.of_preamble hd4 hd6 hi hinv hb hp hagenda hout hc hpreamble
  obtain ⟨n, u, hrun, hu, hpu⟩ := ht.forms hpt hdenote hforms (hcap ▸ hroom)
  obtain ⟨v, hlast, hdone, hshows⟩ := hu.finish hpu hfinish
  exact ⟨_, v, runsTo_succ hstep (runsTo_trans hrun (runsTo_one hlast)), hdone, hshows.outLen_eq, hshows.outByte_eq⟩

end Sys2Proof.Machine
end

section
/-! PROOFS. The statements of 40_bit_cursor.md: what PeekBits and ReadBits answer (R68, R69), and Remaining() (R67). -/

namespace Sys2Proof.Machine

open Sys2Proof

/-! ## What PeekBits answers -/

theorem peekBits_of_badWidth {n : Nat} (h : n = 0 ∨ 16 < n) (src : BitSource) (site : Site) (p : Nat) :
    peekBits src n site p = .stuck .badWidth :=
  if_pos h

section

variable {src : BitSource} {n p : Nat} (site : Site) (h1 : 1 ≤ n) (h16 : n ≤ 16)

include h1 h16

theorem peekBits_of_short (h : src.len < p + n) :
    peekBits src n site p = .error { kind := .truncatedInput, site := site, pos := p } := by
  rw [peekBits, if_neg (by omega), if_pos (by unfold remainingAt; omega)]

theorem peekBits_total (ht : src.total) (h : p + n ≤ src.len) :
    peekBits src n site p = .ok (bitsValue (src.take p n)) p := by
  rw [peekBits, if_neg (by omega), if_neg (by unfold remainingAt; omega), gatherBits_total ht h]

end

/-! ## The bits of the number read -/

/-- Bit `i` of the number read is the `i`-th bit from the cursor on (40_bit_cursor.md R68). -/
theorem BitSource.holds_testBit {src : BitSource} {p : Nat} {bits : List Bool} (h : src.holds p bits) {i : Nat}
    (hi : i < bits.length) : src.bit (p + i) = some ((bitsValue bits).testBit i) := by
  rw [testBit_bitsValue, List.getD_eq_getElem _ _ hi]
  exact h.2 i hi

/-- Settles O11: ReadBits answers as PeekBits does, whose three answers are those of the statement. -/
theorem readBitsReadsTheNextBits : Obligations.ReadBitsReadsTheNextBits := by
  intro src n site p ht
  refine ⟨fun hbad => ?_, fun h1 h16 hshort => ?_, fun h1 h16 hlen => ?_⟩
  · have hpeek := peekBits_of_badWidth hbad src site p
    exact ⟨by rw [readBits, hpeek, Read.bind_stuck], hpeek⟩
  · have hpeek := peekBits_of_short site h1 h16 hshort
    exact ⟨by rw [readBits, hpeek, Read.bind_error], hpeek⟩
  · have hpeek := peekBits_total site h1 h16 ht hlen
    have hlt := bitsValue_lt (src.take p n)
    rw [BitSource.take_length] at hlt
    exact ⟨_, by rw [readBits, hpeek, Read.bind_ok], hpeek, hlt,
      fun i hi => BitSource.holds_testBit (src.holds_take ht hlen) (by rwa [BitSource.take_length])⟩

/-! ## Remaining() -/

/-- Nothing is cut off by the subtraction of R67 while the cursor is inside the input. -/
theorem State.remaining_add_cursor {s : State} (h : s.cursor ≤ 8 * s.inLen.toNat) :
    s.remaining + s.cursor = 8 * s.inLen.toNat :=
  Nat.sub_add_cancel h

/-- Settles O12: in a run the invariant keeps the cursor inside the input (10_state.md R36 (a)). -/
theorem remainingIsTheUnreadBits : Obligations.RemainingIsTheUnreadBits := by
  intro s hinv hbusy
  have hcursor : s.cursor ≤ 8 * s.inLen.toNat := hinv.bounds.cursor_le hbusy
  exact State.remaining_add_cursor hcursor

end Sys2Proof.Machine
end

section
/-! PROOFS. The statement of 41_code_tables.md: the three codes are complete, so Decode with MAXLEN bits left finds exactly one
symbol (R71, R75). -/

namespace Sys2Proof.Machine

open Sys2Proof

/-! ## Exactly one code -/

section

variable {t : CodeTable} {n : Nat} (ht : t.Sound n) {src : BitSource} (hsrc : src.total) {p : Nat}

include ht hsrc

/-- Of two codes that stand at one position neither goes on behind the other (41_code_tables.md R75): Decode reads both. -/
theorem CodeTable.Sound.symbol_unique {sym other : Nat} (hsym : sym < n) (hother : other < n)
    (hbits : src.holds p (t.streamCode sym)) (hbits' : src.holds p (t.streamCode other)) : other = sym := by
  have hread := decodeSymbol_holds ht hsrc .literal hsym hbits
  rw [decodeSymbol_holds ht hsrc .literal hother hbits', Read.ok.injEq] at hread
  exact hread.1

/-- With MAXLEN bits left a lookup has its symbol: the input does not run out inside a code (41_code_tables.md R71). -/
theorem CodeTable.Sound.decodeSymbol_ok (site : Site) (hlen : p + t.maxLen ≤ src.len) :
    ∃ sym, sym < n ∧ decodeSymbol src t site p = .ok sym (p + t.codeLen sym) ∧ src.holds p (t.streamCode sym) := by
  obtain ⟨-, hshort⟩ | hfound := decodeSymbol_total ht hsrc site p
  · omega
  · exact hfound

end

/-- The tables of the ROM have 16, 64 and 256 symbols and complete codes (41_code_tables.md R72 to R75). -/
theorem romTable_sound {t : CodeTable} {n : Nat}
    (h : t = lenTable ∧ n = 16 ∨ t = distTable ∧ n = 64 ∨ t = litTable ∧ n = 256) : t.Sound n := by
  obtain ⟨rfl, rfl⟩ | ⟨rfl, rfl⟩ | ⟨rfl, rfl⟩ := h
  · exact lenTable_sound
  · exact distTable_sound
  · exact litTable_sound

/-- Settles O5: the code is complete, so Decode finds a symbol, and prefix-free, so no other symbol's code stands there. -/
theorem exactlyOneCodeMatches : Obligations.ExactlyOneCodeMatches := by
  intro t n htable src site p hsrc hlen
  have ht := romTable_sound htable
  obtain ⟨sym, hsym, hread, hbits⟩ := ht.decodeSymbol_ok hsrc site hlen
  exact ⟨sym, hsym, hread, hbits, fun other hother hbits' => ht.symbol_unique hsrc hsym hother hbits hbits'⟩

end Sys2Proof.Machine
end

section
/-! PROOFS. The statements of 42_tokens.md on one step: the meaning of each kind of token (R77 to R86), the step that runs what it
decoded (R76), the preamble step over the bytes of IN (R78), and the block outside a run (R88). -/

namespace Sys2Proof.Machine

open Sys2Proof

/-! ## Emit and the tokens -/

/-- OUT after a byte was emitted (42_tokens.md R77). -/
theorem emitted_outByte (s : State) (v : Byte) (a : Nat) :
    (s.emitted v).outByte a = if a = s.outLen.toNat then v else s.outByte a :=
  appended_outByte s s.outLen.toNat v _ a

/-- Settles O14: a full OUT raises the error, and one that is not full has room. -/
theorem emitAppendsOrOverflows : Obligations.EmitAppendsOrOverflows := by
  intro v site s hle ⟨_, _, _, hcap⟩
  refine ⟨fun hfull => emit_full hfull, fun hne => ?_⟩
  have hroom : s.hasRoom := ⟨by omega, by omega⟩
  exact ⟨s.emitted v, emit_of_hasRoom hroom v site, emitted_outLen hroom v, emitted_outByte s v, rfl⟩

theorem preambleToken_of {flag : BitVec 1} {dict : BitVec 3} {s : State} (hc : s.cursor + 16 < 2 ^ 35) :
    preambleToken flag dict s = .ok ((s.movedTo (s.cursor + 16)).accepted flag dict) := by
  have hmove : advance preambleWidth s = .ok (s.movedTo (s.cursor + 16)) := advance_of_lt hc
  rw [preambleToken, hmove, Micro.bind_ok]

/-- Settles O15: the three rows are one meaning with three dictionary sizes. -/
theorem preambleIsAccepted : Obligations.PreambleIsAccepted := by
  intro i f d s hi hc
  have hcursor := movedTo_cursor s _ hc
  obtain ⟨rfl, rfl⟩ | ⟨rfl, rfl⟩ | ⟨rfl, rfl⟩ := hi <;>
    exact ⟨_, congrArg Micro.toOutcome (preambleToken_of hc), hcursor, rfl⟩

/-- Settles O16: both literals are one meaning with two widths, and the cursor's move leaves OUT as it was. -/
theorem literalAppendsItsByte : Obligations.LiteralAppendsItsByte := by
  intro i v n s hi hc hlt hcap
  have hexec : exec i s = (literalToken n v s).toOutcome := by
    obtain ⟨rfl, rfl⟩ | ⟨rfl, rfl⟩ := hi <;> rfl
  have hroom : (s.movedTo (s.cursor + n)).hasRoom := ⟨hlt, by rw [movedTo_outLen]; omega⟩
  refine ⟨(s.movedTo (s.cursor + n)).emitted v, ?_, movedTo_cursor s _ hc, emitted_outLen hroom v, emitted_outByte _ v,
    rfl⟩
  rw [hexec, literalToken_of hc, emit_of_hasRoom hroom, Micro.toOutcome_ok]

theorem lowBitCount_le_seven (len : Nat) (dict : BitVec 3) : lowBitCount len dict.toNat ≤ 7 := by
  have := dict.isLt
  unfold lowBitCount
  split <;> omega

/-- Settles O18: the fields of a row are small enough for `COPY_REM` and `COPY_DIST`. -/
theorem copyStartsWithItsOperands : Obligations.CopyStartsWithItsOperands := by
  intro i sym x h l k s hparts hne hk hk1 hc hdist
  obtain ⟨hsym, hx, hh, hl, -⟩ := copyParts_range hparts
  obtain ⟨-, hlen⟩ := copyLength_bounds hsym hx
  have hlen10 : copyLength sym x < 2 ^ 10 := by omega
  have hdist13 : copyDistance k h l < 2 ^ 13 := copyDistance_lt (hk ▸ lowBitCount_le_seven _ _) hh hl
  refine ⟨(s.movedTo (s.cursor + copyWidth sym h k)).copying (BitVec.ofNat 10 (copyLength sym x))
    (BitVec.ofNat 13 (copyDistance k h l)), ?_, movedTo_cursor s _ hc, toNat_ofNat_of_lt hlen10, toNat_ofNat_of_lt hdist13,
    rfl⟩
  subst hk
  rw [exec_copyParts hparts, copyToken_of hne hk1 hc, copyStart_of (by rwa [movedTo_outLen]) hlen10 hdist13,
    Micro.toOutcome_ok]

theorem endToken_of {s : State} (hc : s.cursor + 16 < 2 ^ 35) :
    endToken s = .ok (s.movedTo (s.cursor + 16)).finished := by
  have hmove : advance endWidth s = .ok (s.movedTo (s.cursor + 16)) := advance_of_lt hc
  rw [endToken, hmove, Micro.bind_ok]

/-- Settles O21: the cursor moves, then `STATE` is written. -/
theorem endFinishesTheRun : Obligations.EndFinishesTheRun :=
  fun s hc => ⟨_, congrArg Micro.toOutcome (endToken_of hc), movedTo_cursor s _ hc, rfl⟩

/-! ## The copy in progress -/

/-- Settles O23: a copy in progress has its source below `OUT_LEN`, so the step is Emit of that byte and the count. -/
theorem copyByteStepAppendsOrOverflows : Obligations.CopyByteStepAppendsOrOverflows := by
  intro s hinv hb hp
  obtain ⟨-, hrem, -, hdist, hback⟩ := hinv.copy.inCopy hp
  have hle := hinv.bounds.outLen_le
  have hstep : engineStep s =
      ((emit (s.outByte (s.outLen.toNat - s.copyDist.toNat)) .copyEmit s).bind copyCountDown).toOutcome := by
    rw [engineStep_copy hb hp, copyByteStep_of s hback (by omega)]
  refine ⟨fun hlt => ?_, fun hfull => ?_⟩
  · generalize s.outByte (s.outLen.toNat - s.copyDist.toNat) = v at hstep ⊢
    have hroom := hinv.hasRoom hlt
    have hleft : (s.copyRem - 1).toNat = s.copyRem.toNat - 1 := by bv_omega
    have hlast : s.copyRem - 1 = 0 ↔ s.copyRem = 1 := by bv_omega
    refine ⟨(s.emitted v).copyLeft (s.copyRem - 1), ?_, emitted_outLen hroom v, hleft, emitted_outByte s v, ?_⟩
    · rw [hstep, emit_of_hasRoom hroom, Micro.bind_ok,
        copyCountDown_of (show (s.emitted v).copyRem.toNat ≠ 0 from Nat.ne_of_gt hrem), Micro.toOutcome_ok]
      rfl
    · rw [State.copyLeft]
      simp only [hlast]
      rw [show (s.emitted v).phase = .copy from hp]
      rfl
  · rw [hstep, emit_full hfull]
    rfl

/-! ## The step that runs what it decoded -/

theorem engineStep_of_decodeToken {s : State} {i : Instr} {q : Nat} (hb : s.runState = .busy) (hp : s.phase = .token)
    (hdec : decodeToken s.context s.stream s.cursor = .ok i q) : engineStep s = exec i s := by
  rw [engineStep_token hb hp, hdec]
  rfl

theorem engineStep_of_decodePreamble {s : State} {i : Instr} {q : Nat} (hb : s.runState = .busy) (hp : s.phase = .pre)
    (hdec : decodePreamble s.stream s.cursor = .ok i q) : engineStep s = exec i s := by
  rw [engineStep_pre hb hp, hdec]
  rfl

/-- Settles O37: the turns to come are no part of what is decoded. -/
theorem stepRunsTheDecodedToken : Obligations.StepRunsTheDecodedToken :=
  fun s _ _ hb hp hdec =>
    ⟨fun hagenda => (step_nil hagenda).trans (engineStep_of_decodeToken hb hp hdec), fun rest hagenda =>
      (step_engine hagenda).trans (engineStep_of_decodeToken (s := s.withAgenda rest) hb hp hdec)⟩

/-- Settles O38: the turns to come are no part of what is decoded. -/
theorem stepRunsTheDecodedPreamble : Obligations.StepRunsTheDecodedPreamble :=
  fun s _ _ hb hp hdec =>
    ⟨fun hagenda => (step_nil hagenda).trans (engineStep_of_decodePreamble hb hp hdec), fun rest hagenda =>
      (step_engine hagenda).trans (engineStep_of_decodePreamble (s := s.withAgenda rest) hb hp hdec)⟩

/-! ## The preamble step over the bytes of IN -/

section
variable {s : State} (hcap : s.inLen.toNat ≤ s.cfg.inCap)
include hcap

/-- Eight bits at a byte's first bit are the byte (20_memory.md R42). -/
theorem readBits_inByte {a : Nat} (site : Site) (ha : a < s.inLen.toNat) :
    readBits s.stream 8 site (8 * a) = .ok (s.inByte a).toNat (8 * a + 8) := by
  refine readBits_field site ⟨?_, fun j hj => ?_⟩ (s.inByte a).isLt (by decide) (by decide)
  · simp only [fieldBits_length, State.stream]
    omega
  · rw [fieldBits_length] at hj
    have hbyte : (8 * a + j) / 8 = a := by omega
    have hbit : (8 * a + j) % 8 = j := by omega
    simp only [State.stream, hbyte, hbit, fieldBits, List.getElem_map, List.getElem_range]
    rw [if_pos (by omega)]
    rfl

theorem readBits_beyond {a : Nat} (site : Site) (ha : s.inLen.toNat ≤ a) :
    readBits s.stream 8 site (8 * a) = .error { kind := .truncatedInput, site := site, pos := 8 * a } := by
  rw [readBits_total (stream_total hcap) 8 site _ (by decide) (by decide), if_pos (by simp only [State.stream]; omega)]

/-- The preamble's checks in their order, over the first two bytes of IN (42_tokens.md R78). -/
theorem decodePreamble_bytes :
    decodePreamble s.stream 0 =
      if s.inLen.toNat = 0 then .error { kind := .truncatedInput, site := .preambleFlag, pos := 0 }
      else if 1 < (s.inByte 0).toNat then
        .error { kind := .invalidCode, site := .preambleFlag, pos := 8, preFlag := some (s.inByte 0) }
      else if s.inLen.toNat = 1 then
        .error { kind := .truncatedInput, site := .preambleDict, pos := 8, preFlag := some (s.inByte 0) }
      else
        (preambleInstr (s.inByte 0).toNat (s.inByte 1).toNat).elim
          (.error { kind := .invalidCode, site := .preambleDict, pos := 16, preFlag := some (s.inByte 0),
                    preDict := some (s.inByte 1) })
          (.ok · 16) := by
  have hbyte (a : Nat) : BitVec.ofNat 8 (s.inByte a).toNat = s.inByte a := by simp
  unfold decodePreamble
  by_cases hnone : s.inLen.toNat = 0
  · rw [readBits_beyond (a := 0) hcap .preambleFlag (by omega), if_pos hnone]
  rw [readBits_inByte (a := 0) hcap .preambleFlag (by omega), if_neg hnone]
  dsimp only
  by_cases hflag : 1 < (s.inByte 0).toNat
  · rw [if_pos hflag, if_pos hflag, hbyte]
  rw [if_neg hflag, if_neg hflag, hbyte]
  by_cases hone : s.inLen.toNat = 1
  · rw [readBits_beyond (a := 1) hcap .preambleDict (by omega), if_pos hone]
  rw [readBits_inByte (a := 1) hcap .preambleDict (by omega), if_neg hone]
  dsimp only
  rw [hbyte]
  cases preambleInstr (s.inByte 0).toNat (s.inByte 1).toNat <;> rfl

end

theorem runDecoded_error (s : State) {e : StreamError} (hpos : e.pos < 2 ^ 35) :
    runDecoded s (.error e) = .next (s.raisedBy e) :=
  congrArg Micro.toOutcome (streamError_of_lt hpos)

theorem preambleInstr_some {f d : Nat} {i : Instr} (h : preambleInstr f d = some i) : 4 ≤ d ∧ d ≤ 6 := by
  unfold preambleInstr at h
  split at h <;> cases h <;> decide

theorem preambleInstr_none {f d : Nat} (h : preambleInstr f d = none) : d < 4 ∨ 6 < d := by
  by_contra hd
  obtain ⟨i, hi⟩ := exists_preambleInstr f (d := d) (by omega) (by omega)
  rw [h] at hi
  cases hi

/-- A legal preamble runs as the assignments of R78, from the two bytes that were read. -/
theorem exec_preambleInstr {f d : Nat} {i : Instr} {s : State} (hf : f ≤ 1) (hi : preambleInstr f d = some i)
    (hc : s.cursor + 16 < 2 ^ 35) :
    exec i s = .next { s.movedTo (s.cursor + 16) with
      preFlag := BitVec.ofNat 8 f, preDict := BitVec.ofNat 8 d, litMode := BitVec.ofNat 1 f,
      dictBits := BitVec.ofNat 3 d, preValid := 1, phase := .token } := by
  unfold preambleInstr at hi
  split at hi <;> cases hi <;> interval_cases f <;> exact congrArg Micro.toOutcome (preambleToken_of hc)

/-- Settles O42: each answer of the decoder over the two bytes is a branch of the statement. -/
theorem preambleStepInOrder : Obligations.PreambleStepInOrder := by
  intro s hinv hb hp
  have hzero := hinv.preamble.beginsAtZero hb hp
  have hmoved : s.movedTo 0 = s := by rw [← hzero, movedTo_cursor_self]
  rw [engineStep_pre hb hp, hzero, decodePreamble_bytes hinv.bounds.inLen_le]
  by_cases hnone : s.inLen.toNat = 0
  · have hbyte : s.curByte = 0 := congrArg State.curByte hmoved.symm
    have hbit : s.curBit = 0 := congrArg State.curBit hmoved.symm
    rw [if_pos hnone, if_pos hnone, runDecoded_error s (by simp), ← movedTo_errored, hmoved, State.errored, hbyte, hbit]
    rfl
  rw [if_neg hnone, if_neg hnone]
  by_cases hflag : 1 < (s.inByte 0).toNat
  · rw [if_pos hflag, if_pos hflag, runDecoded_error s (by simp)]
    dsimp only [State.raisedBy]
    rfl
  rw [if_neg hflag, if_neg hflag]
  by_cases hone : s.inLen.toNat = 1
  · rw [if_pos hone, if_pos hone, runDecoded_error s (by simp)]
    dsimp only [State.raisedBy]
    rfl
  rw [if_neg hone, if_neg hone]
  cases hinstr : preambleInstr (s.inByte 0).toNat (s.inByte 1).toNat with
  | none =>
    rw [if_pos (preambleInstr_none hinstr), Option.elim_none, runDecoded_error s (by simp)]
    dsimp only [State.raisedBy]
    rfl
  | some i =>
    have hd := preambleInstr_some hinstr
    rw [if_neg (by omega), Option.elim_some]
    change exec i s = _
    rw [exec_preambleInstr (by omega) hinstr (by rw [hzero]; decide), hzero]
    simp only [BitVec.ofNat_toNat, BitVec.setWidth_eq]
    rfl

/-! ## Outside a run -/

theorem writeRegister_runState {off : Nat} {v : Word} (h : ¬ (off = 0 ∧ v.getLsbD 0 = true)) (s : State) :
    (writeRegister off v s).runState = s.runState := by
  unfold writeRegister
  split
  · rw [if_neg fun hbit => h ⟨rfl, hbit⟩]
  · split <;> rfl
  · split <;> rfl
  · rfl

/-- A host operation that changes the run state when no run is in progress is a START (43_host_commands.md R93, R94). -/
theorem HostDecoded.start_of_changed {r : HostRequest} {i : Instr} {s t : State} (hi : HostDecoded r i)
    (h : exec i s = .next t) (hne : t.runState ≠ s.runState) :
    r.space = .reg ∧ r.write = true ∧ r.bytes = 4 ∧ r.addr = 0 ∧ r.data.getLsbD 0 = true ∧ t.runState = .busy := by
  cases hi with
  | start hspace hbytes hwrite haddr hbit =>
    cases h
    refine ⟨hspace, hwrite, hbytes, haddr, hbit, ?_⟩
    rw [if_pos hbit, startRun] at hne ⊢
    split at hne
    · exact absurd rfl hne
    · next hb => rw [if_neg hb]; rfl
  | regWrite hspace hbytes hwrite haddr hstart =>
    obtain ⟨-, rfl⟩ := guarded_next h
    exact absurd (writeRegister_runState hstart s) hne
  | inWrite =>
    obtain ⟨-, rfl⟩ := guarded_next h
    refine absurd ?_ hne
    split <;> rfl
  | regRead | inRead | outRead =>
    obtain ⟨-, rfl⟩ := guarded_next h
    exact absurd rfl hne

/-- Settles O41: the engine's move is no move, and of the other turns only START and reset write `STATE`. -/
theorem stoppedUntilStartOrReset : Obligations.StoppedUntilStartOrReset := by
  intro s hb
  have hengine (turns : List Turn) : engineStep (s.withAgenda turns) = .next (s.withAgenda turns) := engineStep_stopped hb
  refine ⟨fun hagenda => (step_nil hagenda).trans (hengine s.agenda), fun rest hagenda =>
    (step_engine hagenda).trans (hengine rest), fun t ht hne => ?_⟩
  match hagenda : s.agenda with
  | [] =>
    rw [step_nil hagenda, engineStep_stopped hb] at ht
    cases ht
    exact absurd rfl hne
  | .engine :: rest =>
    rw [step_engine hagenda, hengine] at ht
    cases ht
    exact absurd rfl hne
  | .host r :: rest =>
    rw [step_host hagenda] at ht
    obtain ⟨i, hi, hexec⟩ := hostTurn_next ht
    exact .inr ⟨r, rest, rfl, hi.start_of_changed hexec hne⟩
  | .reset :: rest =>
    rw [step_reset hagenda] at ht
    cases ht
    exact .inl ⟨rest, rfl, rfl⟩

end Sys2Proof.Machine
end

section
/-! PROOFS. The statement of 42_tokens.md that the engine's step is the spec's pseudocode (R76 to R86 over R69 and R71): each
read of the decoder is a read of the pseudocode, whose state is the one before the step with its cursor moved. -/

namespace Sys2Proof.Machine

open Sys2Proof

/-! ## A read of the decoder as a read of the pseudocode -/

/-- Go on from what the decoder read as the pseudocode does: the cursor of `s` moves to where the read ended, and an error is
raised where it failed (60_exceptions.md R106). -/
def Read.thenRun {α : Type} (r : Read α) (s : State) (k : α → State → Micro) : Micro :=
  match r with
  | .ok a q => k a (s.movedTo q)
  | .error e => .raised (s.raisedBy e)
  | .stuck f => .stuck f

section
variable {α : Type} (s : State) (k : α → State → Micro)

@[simp] theorem thenRun_ok (a : α) (q : Nat) : (Read.ok a q).thenRun s k = k a (s.movedTo q) := rfl
@[simp] theorem thenRun_error (e : StreamError) : (Read.error e : Read α).thenRun s k = .raised (s.raisedBy e) := rfl
@[simp] theorem thenRun_stuck (f : Fault) : (Read.stuck f : Read α).thenRun s k = .stuck f := rfl

end

/-- Two reads one after the other are run one after the other. -/
theorem thenRun_bind {α β : Type} {r : Read α} {m : α → Nat → Read β} {s : State} {k : β → State → Micro}
    {f : α → State → Micro} (h : ∀ a q, r = .ok a q → (m a q).thenRun s k = f a (s.movedTo q)) :
    (r.bind m).thenRun s k = r.thenRun s f := by
  cases r with
  | ok a q => exact h a q rfl
  | error e => rfl
  | stuck f => rfl

section
variable {s : State} {p : Nat} (hp : p ≤ s.stream.len)
include hp

theorem stream_pos_lt : p < 2 ^ 35 := cursor_lt_of_le hp

theorem movedTo_remaining : (s.movedTo p).remaining = remainingAt s.stream p := by
  rw [State.remaining, movedTo_stream, movedTo_cursor s p (stream_pos_lt hp)]

/-- ReadBits on the state is ReadBits on its stream (40_bit_cursor.md R69). -/
theorem pseudoReadBits_movedTo (n : Nat) (site : Site) (k : Nat → State → Micro) :
    pseudoReadBits n site (s.movedTo p) k = (readBits s.stream n site p).thenRun s k := by
  have hcursor := movedTo_cursor s p (stream_pos_lt hp)
  rw [pseudoReadBits, readBits, peekBits, movedTo_remaining hp, hcursor, movedTo_stream]
  split
  · rfl
  split
  · rfl
  next hshort =>
  have hlt : p + n < 2 ^ 35 := stream_pos_lt (s := s) (by unfold remainingAt at hshort; omega)
  cases gatherBits s.stream n p with
  | error f => rfl
  | ok v => rw [setCursor_of_lt hlt]; rfl

/-- Decode on the state is Decode on its stream (41_code_tables.md R71). -/
theorem pseudoDecode_movedTo {t : CodeTable} {n : Nat} (ht : t.Sound n) (site : Site) (k : Nat → State → Micro) :
    pseudoDecode t site (s.movedTo p) k = (decodeSymbol s.stream t site p).thenRun s k := by
  have hcursor := movedTo_cursor s p (stream_pos_lt hp)
  have h1 := ht.maxLen_pos
  have h16 := ht.maxLen_le
  rw [pseudoDecode, decodeSymbol, movedTo_remaining hp, hcursor, movedTo_stream]
  split
  · rfl
  next hsome =>
  dsimp only
  rw [peekBits, if_neg (by omega), if_neg (by omega)]
  cases gatherBits s.stream (min t.maxLen (remainingAt s.stream p)) p with
  | error f => rfl
  | ok w =>
    dsimp only [Read.bind_ok]
    cases hmatch : matchCode t.symbols (min t.maxLen (remainingAt s.stream p)) w t.counts 1 0 0 0 with
    | found sym m =>
      obtain ⟨-, hm⟩ := matchCode_le _ _ _ _ _ _ _ _ _ _ hmatch
      have hlt : p + m < 2 ^ 35 := stream_pos_lt (s := s) (by unfold remainingAt at hm hsome; omega)
      dsimp only
      rw [setCursor_of_lt hlt]
      rfl
    | short => rfl
    | miss => rfl

end

/-! ## A token -/

/-- What a token does once the cursor is past it (42_tokens.md R80, R81, R84, R86). -/
def tokenEffect (i : Instr) (s : State) : Micro :=
  match i, copyParts i with
  | _, some (sym, x, h, l) =>
    copyStart (copyLength sym x) (copyDistance (lowBitCount (copyLength sym x) s.dictBits.toNat) h l) s
  | .litRaw v, _ => emit v .literalEmit s
  | .litCoded v, _ => emit v .literalEmit s
  | _, _ => .ok s.finished

theorem tokenEffect_copyParts {i : Instr} {sym x h l : Nat} (hi : copyParts i = some (sym, x, h, l)) (s : State) :
    tokenEffect i s =
      copyStart (copyLength sym x) (copyDistance (lowBitCount (copyLength sym x) s.dictBits.toNat) h l) s := by
  simp only [tokenEffect, hi]

/-- A token that was read runs as the move of the cursor past it and its effect there (log 20). -/
theorem TokenRead.exec_eq {s : State} {i : Instr} {q : Nat} (hd : s.context.dictAccepted = true)
    (h : TokenRead s.context s.stream s.cursor (.ok i q)) : exec i s = (tokenEffect i (s.movedTo q)).toOutcome := by
  cases h with
  | litRaw v _ hlen => exact congrArg Micro.toOutcome (literalToken_of (cursor_lt_of_le hlen))
  | litCoded v _ hlen => exact congrArg Micro.toOutcome (literalToken_of (cursor_lt_of_le hlen))
  | endMark hlen => exact congrArg Micro.toOutcome (endToken_of (cursor_lt_of_le hlen))
  | copy i sym x h l k hparts hne hk _ hlen =>
    obtain ⟨hk2, -⟩ := lowBitCount_bounds hd (copyLength sym x)
    subst hk
    rw [exec_copyParts hparts, copyToken_of hne (le_trans (by decide) hk2) (cursor_lt_of_le hlen),
      tokenEffect_copyParts hparts]
    rfl

/-- The engine's token step is the decoder's read run to its end. -/
theorem Inv.runDecoded_token {s : State} (h : Inv s) (hb : s.runState = .busy) (hp : s.phase = .token) :
    runDecoded s (decodeToken s.context s.stream s.cursor) =
      ((decodeToken s.context s.stream s.cursor).thenRun s tokenEffect).toOutcome := by
  have hread := h.tokenRead hb hp
  cases hdec : decodeToken s.context s.stream s.cursor with
  | ok i q =>
    rw [hdec] at hread
    exact hread.exec_eq (h.dictAccepted (by simp [hp]))
  | error e =>
    rw [hdec] at hread
    obtain ⟨-, hle, -⟩ := hread.error_bounds
    exact runDecoded_error s (cursor_lt_of_le hle)
  | stuck f => rfl

/-- The fields that a COPY token's reads gave are those of a COPY row (30_encoding.md R54). -/
theorem copyInstr_of_fields {sym x d l k : Nat} (hs : sym < 16) (hx : x < 2 ^ lenExtra sym) (hd : d < 2 ^ 6)
    (hl6 : l < 2 ^ 6) (hl : l < 2 ^ lowBitCount (copyLength sym x) k) :
    ∃ i, copyInstr sym x (BitVec.ofNat 6 d) (BitVec.ofNat 6 l) = some i ∧ copyParts i = some (sym, x, d, l) := by
  have hl4 (hsym : sym = 1) : (BitVec.ofNat 6 l).toNat < 4 := by
    rw [lowBitCount_sym _ hs hx, if_pos hsym] at hl
    rwa [toNat_ofNat_of_lt hl6]
  obtain ⟨i, hi, hparts⟩ := copyInstr_parts (BitVec.ofNat 6 d) (BitVec.ofNat 6 l) hs hx hl4
  rw [toNat_ofNat_of_lt hd, toNat_ofNat_of_lt hl6] at hparts
  exact ⟨i, hi, hparts⟩

/-! ## The token's parts -/

section
variable {s : State} {p : Nat} (ht : s.stream.total) (hp : p ≤ s.stream.len)
include hp

theorem decodeLiteral_thenRun :
    (decodeLiteral s.context s.stream p).thenRun s tokenEffect =
      if s.litMode = 0 then pseudoLitRaw (s.movedTo p) else pseudoLitCoded (s.movedTo p) := by
  unfold decodeLiteral
  by_cases hm : s.litMode = 0
  · rw [if_pos hm, if_pos (show s.context.litMode = 0 from hm), pseudoLitRaw, pseudoReadBits_movedTo hp]
    exact thenRun_bind fun _ _ _ => rfl
  · rw [if_neg hm, if_neg (show ¬ s.context.litMode = 0 from hm), pseudoLitCoded,
      pseudoDecode_movedTo hp litTable_sound]
    exact thenRun_bind fun _ _ _ => rfl

include ht

/-- The distance fields, whose copy starts behind them (42_tokens.md R83, R84). -/
theorem decodeDistance_thenRun {sym x : Nat} (hd : s.context.dictAccepted = true) (hs : sym < 16)
    (hx : x < 2 ^ lenExtra sym) :
    (decodeDistance s.context s.stream sym x p).thenRun s tokenEffect =
      pseudoCopyDistance (copyLength sym x) (s.movedTo p) := by
  obtain ⟨hk2, hk6⟩ := lowBitCount_bounds hd (copyLength sym x)
  rw [pseudoCopyDistance, pseudoDecode_movedTo hp distTable_sound]
  refine thenRun_bind fun d q hcode => ?_
  obtain ⟨rfl, hd64, hbits⟩ := decodeSymbol_eq_ok distTable_sound ht hcode
  rw [pseudoReadBits_movedTo (by simpa using hbits.1)]
  refine thenRun_bind fun l q hlow => ?_
  obtain ⟨rfl, hl, -⟩ := readBits_eq_ok ht (by omega) (by omega) hlow
  have hl64 : l < 2 ^ 6 := lt_of_lt_of_le hl (Nat.pow_le_pow_right (by decide) hk6)
  obtain ⟨i, hi, hparts⟩ := copyInstr_of_fields hs hx hd64 hl64 hl
  rw [if_neg (by omega), hi, thenRun_ok, tokenEffect_copyParts hparts]
  rfl

/-- The copy path: the length, then END or a distance (42_tokens.md R82, R86). -/
theorem decodeCopyPath_thenRun (hd : s.context.dictAccepted = true) :
    (decodeCopyPath s.context s.stream p).thenRun s tokenEffect = pseudoCopyPath (s.movedTo p) := by
  rw [pseudoCopyPath, pseudoDecode_movedTo hp lenTable_sound]
  refine thenRun_bind fun sym q hcode => ?_
  obtain ⟨rfl, hs, hbits⟩ := decodeSymbol_eq_ok lenTable_sound ht hcode
  have hq : p + lenTable.codeLen sym ≤ s.stream.len := by simpa using hbits.1
  have hknown {x r : Nat} (hread : readExtra s.stream sym (p + lenTable.codeLen sym) = .ok x r) :
      (if copyLength sym x = endLength then .ok .endMark r else decodeDistance s.context s.stream sym x r).thenRun s
          tokenEffect = pseudoLengthKnown (copyLength sym x) (s.movedTo r) := by
    obtain ⟨rfl, hx, hextra⟩ := readExtra_eq_ok ht hs hq hread
    unfold pseudoLengthKnown
    by_cases hend : copyLength sym x = 519
    · rw [if_pos hend, if_pos (show copyLength sym x = endLength from hend)]
      rfl
    · rw [if_neg hend, if_neg (show ¬ copyLength sym x = endLength from hend)]
      exact decodeDistance_thenRun ht (by simpa using hextra.1) hd hs hx
  by_cases hnone : lenExtra sym = 0
  · have hread : readExtra s.stream sym (p + lenTable.codeLen sym) = .ok 0 (p + lenTable.codeLen sym) := if_pos hnone
    rw [hread, Read.bind_ok, hknown hread, if_pos hnone]
    rfl
  · have hread : readExtra s.stream sym = readBits s.stream (lenExtra sym) .lengthExtra :=
      funext fun _ => if_neg hnone
    rw [if_neg hnone, pseudoReadBits_movedTo hq, ← hread]
    exact thenRun_bind fun x r hx => hknown hx

theorem decodeToken_thenRun (hd : s.context.dictAccepted = true) :
    (decodeToken s.context s.stream p).thenRun s tokenEffect = pseudoTokenStep (s.movedTo p) := by
  rw [pseudoTokenStep, pseudoReadBits_movedTo hp]
  refine thenRun_bind fun ctl q hread => ?_
  obtain ⟨rfl, -, hbits⟩ := readBits_eq_ok ht (by decide) (by decide) hread
  have hq : p + 1 ≤ s.stream.len := by simpa using hbits.1
  by_cases hctl : ctl = 0
  · rw [if_pos hctl, if_pos hctl, decodeLiteral_thenRun hq]
    rfl
  · rw [if_neg hctl, if_neg hctl, decodeCopyPath_thenRun ht hq hd]

end

/-! ## The preamble -/

/-- The preamble, byte by byte (42_tokens.md R78). -/
theorem runDecoded_preamble {s : State} (ht : s.stream.total) (hzero : s.cursor = 0) :
    runDecoded s (decodePreamble s.stream s.cursor) = (pseudoPreambleStep s).toOutcome := by
  rw [hzero]
  unfold decodePreamble
  conv => rhs; rw [← movedTo_cursor_self s, hzero, pseudoPreambleStep, pseudoReadBits_movedTo (Nat.zero_le _)]
  obtain ⟨hflag, -⟩ | ⟨f, hflag, -, hlen, -⟩ := readBits_cases ht .preambleFlag 0 (n := 8) (by decide) (by decide)
  · rw [hflag]
    exact runDecoded_error s (by simp)
  rw [hflag, thenRun_ok]
  dsimp only
  by_cases hf : 1 < f
  · rw [if_pos hf, if_pos hf]
    exact runDecoded_error s (by simp)
  have hcommute : (s.movedTo (0 + 8)).withPreFlag (BitVec.ofNat 8 f) = (s.withPreFlag (BitVec.ofNat 8 f)).movedTo 8 := rfl
  rw [if_neg hf, if_neg hf, hcommute, pseudoReadBits_movedTo (by simpa using hlen), withPreFlag_stream]
  obtain ⟨hdict, -⟩ | ⟨d, hdict, -, hlen', -⟩ := readBits_cases ht .preambleDict (0 + 8) (n := 8) (by decide) (by decide)
  · rw [hdict]
    exact runDecoded_error s (by simp)
  rw [hdict, thenRun_ok]
  dsimp only
  cases hinstr : preambleInstr f d with
  | none =>
    rw [if_pos (preambleInstr_none hinstr)]
    exact runDecoded_error s (by simp)
  | some i =>
    have hd := preambleInstr_some hinstr
    rw [if_neg (by omega)]
    change exec i s = _
    rw [exec_preambleInstr (by omega) hinstr (by rw [hzero]; decide), hzero]
    rfl

/-- Settles O47: in each phase both sides make the same reads, the decoder before the token runs, the pseudocode on the
way. -/
theorem engineStepIsThePseudocode : Obligations.EngineStepIsThePseudocode := by
  intro s h hb
  have ht := stream_total h.bounds.inLen_le
  cases hp : s.phase with
  | pre =>
    rw [engineStep_pre hb hp, runDecoded_preamble ht (h.preamble.beginsAtZero hb hp), pseudoEngineStep, hp]
  | token =>
    have hread := decodeToken_thenRun ht (h.bounds.cursor_le hb) (h.dictAccepted (by simp [hp]))
    rw [engineStep_token hb hp, h.runDecoded_token hb hp, hread, movedTo_cursor_self, pseudoEngineStep, hp]
  | copy =>
    rw [engineStep_copy hb hp, pseudoEngineStep, hp]

end Sys2Proof.Machine
end

section
/-! PROOFS. The statement of 42_tokens.md that every run ends (R89). -/

namespace Sys2Proof.Machine

open Sys2Proof

/-! ## A step of the engine goes on -/

/-- A piece of a step that the model does not stop: it goes on, or raises an error of the block (60_exceptions.md R109). -/
def Micro.goesOn (m : Micro) : Prop := ∃ t, m.toOutcome = .next t

theorem emit_goesOn {s : State} (v : Byte) (site : Site) (hle : s.outLen.toNat ≤ s.cfg.outCap) (hlegal : s.cfg.legal) :
    (emit v site s).goesOn := by
  obtain ⟨hfull, hroom⟩ := emitAppendsOrOverflows v site s hle hlegal
  by_cases h : s.outLen.toNat = s.cfg.outCap
  · exact ⟨_, congrArg Micro.toOutcome (hfull h)⟩
  · obtain ⟨t, ht, -⟩ := hroom h
    exact ⟨t, congrArg Micro.toOutcome ht⟩

theorem copyStart_goesOn {len dist : Nat} (s : State) (hlen : len < 2 ^ 10) (hdist : dist < 2 ^ 13) :
    (copyStart len dist s).goesOn := by
  by_cases hfar : s.outLen.toNat < dist
  · exact ⟨_, congrArg Micro.toOutcome (if_pos hfar)⟩
  · exact ⟨_, congrArg Micro.toOutcome (copyStart_of (by omega) hlen hdist)⟩

/-- What was read as a token does not stop the model, wherever the cursor stands by then. -/
theorem TokenRead.tokenEffect_goesOn {c : Context} {src : BitSource} {p q : Nat} {i : Instr} {s : State}
    (h : TokenRead c src p (.ok i q)) (hle : s.outLen.toNat ≤ s.cfg.outCap) (hlegal : s.cfg.legal) :
    (tokenEffect i s).goesOn := by
  cases h with
  | litRaw v | litCoded v => exact emit_goesOn v .literalEmit hle hlegal
  | endMark => exact ⟨_, rfl⟩
  | copy i sym x h l k hparts =>
    obtain ⟨hsym, hx, hh, hl, -⟩ := copyParts_range hparts
    obtain ⟨-, hlen⟩ := copyLength_bounds hsym hx
    rw [tokenEffect_copyParts hparts]
    exact copyStart_goesOn s (by omega) (copyDistance_lt (lowBitCount_le_seven _ _) hh hl)

theorem Inv.engineStep_pre_next {s : State} (h : Inv s) (hb : s.runState = .busy) (hp : s.phase = .pre) :
    ∃ t, engineStep s = .next t := by
  obtain ⟨i, q, hdec, hlen⟩ | ⟨e, hdec, -, hlen⟩ :=
    decodePreamble_cases (stream_total h.bounds.inLen_le) (h.bounds.cursor_le hb)
  · obtain ⟨flag, dict, hexec⟩ := exec_preamble (instrKind_decodePreamble hdec) s
    rw [engineStep_of_decodePreamble hb hp hdec, hexec, preambleToken_of (cursor_lt_of_le hlen)]
    exact ⟨_, rfl⟩
  · rw [engineStep_pre hb hp, hdec]
    exact ⟨_, runDecoded_error s (cursor_lt_of_le hlen)⟩

theorem Inv.engineStep_token_next {s : State} (h : Inv s) (hb : s.runState = .busy) (hp : s.phase = .token) :
    ∃ t, engineStep s = .next t := by
  have hread := h.tokenRead hb hp
  rw [engineStep_token hb hp, h.runDecoded_token hb hp]
  generalize decodeToken s.context s.stream s.cursor = r at hread ⊢
  cases r with
  | ok i q => exact hread.tokenEffect_goesOn h.bounds.outLen_le h.bounds.legal
  | error e => exact ⟨_, rfl⟩
  | stuck f => cases hread

theorem Inv.engineStep_copy_next {s : State} (h : Inv s) (hb : s.runState = .busy) (hp : s.phase = .copy) :
    ∃ t, engineStep s = .next t := by
  obtain ⟨hroom, hfull⟩ := copyByteStepAppendsOrOverflows s h hb hp
  obtain hlt | heq := Nat.lt_or_eq_of_le h.bounds.outLen_le
  · obtain ⟨t, ht, -⟩ := hroom hlt
    exact ⟨t, ht⟩
  · exact ⟨_, hfull heq⟩

/-- No engine step of a state of the invariant stops the model (60_exceptions.md R109). -/
theorem Inv.engineStep_next {s : State} (h : Inv s) : ∃ t, engineStep s = .next t := by
  by_cases hb : s.runState = .busy
  · cases hp : s.phase with
    | pre => exact h.engineStep_pre_next hb hp
    | token => exact h.engineStep_token_next hb hp
    | copy => exact h.engineStep_copy_next hb hp
  · exact ⟨s, engineStep_stopped hb⟩

/-! ## Every run ends -/

/-- A bound on the steps of the run that are left: a bit that is not yet read begins at most a token and its 518 copy bytes. -/
def State.stepsLeft (s : State) : Nat :=
  if s.runState = .busy then 1 + (519 * (8 * s.inLen.toNat - s.cursor) + s.copyRem.toNat) else 0

theorem stepsLeft_busy {s : State} (hb : s.runState = .busy) :
    s.stepsLeft = 1 + (519 * (8 * s.inLen.toNat - s.cursor) + s.copyRem.toNat) := if_pos hb

theorem stepsLeft_stopped {s : State} (hb : s.runState ≠ .busy) : s.stepsLeft = 0 := if_neg hb

theorem stepsLeft_lt_of {s t : State} (hb : s.runState = .busy) (hlen : t.inLen = s.inLen)
    (h : 519 * (8 * s.inLen.toNat - t.cursor) + t.copyRem.toNat <
      519 * (8 * s.inLen.toNat - s.cursor) + s.copyRem.toNat) : t.stepsLeft < s.stepsLeft := by
  rw [stepsLeft_busy hb, State.stepsLeft, hlen]
  split <;> omega

/-- A read pays for what follows it, and a copy byte for itself (42_tokens.md R89). -/
theorem EngineMove.stepsLeft_lt {s t : State} (hmove : EngineMove s t) (h : Inv s) (hb : s.runState = .busy) :
    t.stepsLeft < s.stepsLeft := by
  have hpos : 0 < s.stepsLeft := by
    rw [stepsLeft_busy hb]
    omega
  have hmoved {n : Nat} (hle : s.cursor + n ≤ 8 * s.inLen.toNat) : (s.movedTo (s.cursor + n)).cursor = s.cursor + n :=
    movedTo_cursor s _ (cursor_lt_of_le hle)
  cases hmove with
  | stopped hstop => exact absurd hb hstop
  | raised e => rwa [stepsLeft_stopped (by simp [State.raisedBy])]
  | finished n => rwa [stepsLeft_stopped (by simp)]
  | accepted flag dict _ _ _ hlen =>
    have hle := hlen h
    refine stepsLeft_lt_of hb rfl ?_
    rw [accepted_cursor, hmoved hle, accepted_copyRem, movedTo_copyRem]
    omega
  | literal n v _ _ hfits _ =>
    obtain ⟨hge, -, hle⟩ := hfits h
    refine stepsLeft_lt_of hb rfl ?_
    rw [State.emitted, appended_cursor, hmoved hle, appended_copyRem, movedTo_copyRem]
    omega
  | copying n len dist _ _ hfits _ hlen =>
    obtain ⟨hge, -, hle⟩ := hfits h
    have hlen518 := hlen h
    refine stepsLeft_lt_of hb rfl ?_
    rw [copying_cursor, hmoved hle, copying_copyRem, BitVec.toNat_ofNat]
    omega
  | copied v _ _ _ hrem =>
    have hlt : (BitVec.ofNat 10 (s.copyRem.toNat - 1)).toNat < s.copyRem.toNat := by
      rw [BitVec.toNat_ofNat]
      omega
    exact stepsLeft_lt_of hb rfl (Nat.add_lt_add_left hlt _)

theorem EngineMove.runState_ne_idle {s t : State} (hmove : EngineMove s t) (hs : s.runState ≠ .idle) :
    t.runState ≠ .idle := by
  cases hmove with
  | stopped | accepted | literal | copying | copied => exact hs
  | raised | finished => nofun

/-- The measure falls with every step, so it bounds their number. -/
theorem Inv.run_ends {s : State} (h : Inv s) (hagenda : s.agenda = []) (hidle : s.runState ≠ .idle) :
    ∃ n t, n ≤ s.stepsLeft ∧ runsTo n s t ∧ (t.runState = .done ∨ t.runState = .error) := by
  induction hm : s.stepsLeft using Nat.strong_induction_on generalizing s with
  | _ m ih =>
    by_cases hb : s.runState = .busy
    · obtain ⟨u, hu⟩ := h.engineStep_next
      have hmove := engineStep_move hu
      have hlt := hmove.stepsLeft_lt h hb
      obtain ⟨-, -, -, -, hsame, -⟩ := engineAppendsAndNothingElse s u hu
      obtain ⟨n, t, hn, hrun, hend⟩ :=
        ih _ (hm ▸ hlt) (hmove.inv h) (hsame.trans hagenda) (hmove.runState_ne_idle hidle) rfl
      exact ⟨n + 1, t, by omega, runsTo_succ ((step_nil hagenda).trans hu) hrun, hend⟩
    · refine ⟨0, s, Nat.zero_le _, runsTo_zero s, ?_⟩
      cases hrun : s.runState with
      | idle => exact absurd hrun hidle
      | busy => exact absurd hrun hb
      | done => exact .inl rfl
      | error => exact .inr rfl

/-- Settles O52: at the preamble the measure is the statement's bound. -/
theorem everyRunEnds : Obligations.EveryRunEnds := by
  intro s h hb hp hagenda
  have hbound : s.stepsLeft = 1 + 519 * 8 * s.inLen.toNat := by
    rw [stepsLeft_busy hb, h.preamble.beginsAtZero hb hp, h.copy.noCopy (by simp [hp])]
    simp
    omega
  rw [← hbound]
  exact h.run_ends hagenda (by simp [hb])

end Sys2Proof.Machine
end

section
/-! PROOFS. The statement of 42_tokens.md that a run depends on its input alone (R89): the pseudocode, piece by piece, on two
states that no step may tell apart. -/

namespace Sys2Proof.Machine

open Sys2Proof

/-! ## Two states that no step may tell apart -/

/-- The bits below `8 * IN_LEN` are the same bits, and at or beyond it there are none (40_bit_cursor.md R66). -/
theorem SameRun.bitAt_eq {s t : State} (h : SameRun s t) (hs : s.inLen.toNat ≤ s.cfg.inCap)
    (ht : t.inLen.toNat ≤ t.cfg.inCap) (p : Nat) : bitAt s.stream p = bitAt t.stream p := by
  have hlen : s.stream.len = t.stream.len := congrArg (fun n : BitVec 32 => 8 * n.toNat) h.inLen
  unfold bitAt
  by_cases hp : p < s.stream.len
  · have hbyte : p / 8 < s.inLen.toNat := by
      simp only [State.stream] at hp
      omega
    have hbyte' : p / 8 < t.inLen.toNat := h.inLen ▸ hbyte
    rw [if_pos hp, if_pos (hlen ▸ hp)]
    simp only [State.stream]
    rw [if_pos (by omega), if_pos (by omega), h.input _ hbyte]
  · rw [if_neg hp, if_neg (hlen ▸ hp)]

theorem gatherBits_congr {src src' : BitSource} (h : ∀ p, bitAt src p = bitAt src' p) (n p : Nat) :
    gatherBits src n p = gatherBits src' n p := by
  induction n generalizing p with
  | zero => rfl
  | succ n ih => rw [gatherBits, gatherBits, h, ih]

/-- Two such states, with what the engine reads of their inputs (20_memory.md R38): the free bytes and capacities of IN do not
enter it. -/
structure Twins (s t : State) : Prop extends SameRun s t where
  gather : ∀ n p, gatherBits s.stream n p = gatherBits t.stream n p

theorem SameRun.twins {s t : State} (h : SameRun s t) (hs : Inv s) (ht : Inv t) : Twins s t :=
  { h with gather := gatherBits_congr (h.bitAt_eq hs.bounds.inLen_le ht.bounds.inLen_le) }

/-- The observation is a function of what such states share (00_scope.md R10). -/
theorem SameRun.observe_eq {s t : State} (h : SameRun s t) : s.observe = t.observe := by
  have hout : (List.range s.outLen.toNat).map s.outByte = (List.range s.outLen.toNat).map t.outByte :=
    List.map_congr_left fun a ha => h.output a (List.mem_range.mp ha)
  simp only [State.observe, hout]
  rw [h.runState, h.errCode, h.errDetail, h.errPos, h.errBit, h.outLen, h.curByte, h.curBit]

namespace Twins
variable {s t : State} (h : Twins s t)
include h

theorem cursor_eq : s.cursor = t.cursor := by
  rw [State.cursor, State.cursor, h.curByte, h.curBit]

theorem remaining_eq : s.remaining = t.remaining := by
  have hlen : s.stream.len = t.stream.len := congrArg (fun n : BitVec 32 => 8 * n.toNat) h.inLen
  rw [State.remaining, State.remaining, remainingAt, remainingAt, hlen, h.cursor_eq]

/-! ## The updates of the state -/

theorem movedTo (p : Nat) : Twins (s.movedTo p) (t.movedTo p) := { h with curByte := rfl, curBit := rfl }

theorem errored (kind : ErrKind) (site : Site) : Twins (s.errored kind site) (t.errored kind site) :=
  { h with runState := rfl, errCode := rfl, errDetail := rfl, errPos := h.curByte, errBit := h.curBit }

theorem withPreFlag (f : Byte) : Twins (s.withPreFlag f) (t.withPreFlag f) := { h with preFlag := rfl }

theorem withPreDict (d : Byte) : Twins (s.withPreDict d) (t.withPreDict d) := { h with preDict := rfl }

theorem chosen (mode : BitVec 1) (dict : BitVec 3) :
    Twins { s with litMode := mode, dictBits := dict, preValid := 1, phase := .token }
      { t with litMode := mode, dictBits := dict, preValid := 1, phase := .token } :=
  { h with litMode := rfl, dictBits := rfl, preValid := rfl, phase := rfl }

theorem finished : Twins s.finished t.finished := { h with runState := rfl }

theorem copying (rem : BitVec 10) (dist : BitVec 13) : Twins (s.copying rem dist) (t.copying rem dist) :=
  { h with copyRem := rfl, copyDist := rfl, phase := rfl }

theorem copyLeft (rem : BitVec 10) : Twins (s.copyLeft rem) (t.copyLeft rem) :=
  { h with copyRem := rfl, phase := by rw [copyLeft_phase, copyLeft_phase, h.phase] }

theorem emitted (hroom : s.hasRoom) (v : Byte) : Twins (s.emitted v) (t.emitted v) :=
  { h with
    outLen := by simp only [State.emitted, appended_outLen, h.outLen]
    output := fun a ha => by
      rw [emitted_outLen hroom] at ha
      rw [emitted_outByte, emitted_outByte, ← h.outLen]
      split
      · rfl
      · exact h.output a (by omega) }

end Twins

/-! ## The pieces of a step -/

/-- Two results of a piece of a step that nothing tells apart. -/
inductive Micro.Twins : Micro → Micro → Prop where
  | ok {s t : State} : Machine.Twins s t → Twins (.ok s) (.ok t)
  | raised {s t : State} : Machine.Twins s t → Twins (.raised s) (.raised t)
  | stuck (f : Fault) : Twins (.stuck f) (.stuck f)

theorem Micro.Twins.bind {m m' : Micro} {k : State → Micro} (h : m.Twins m')
    (hk : ∀ u u', Machine.Twins u u' → (k u).Twins (k u')) : (m.bind k).Twins (m'.bind k) := by
  cases h with
  | ok h => exact hk _ _ h
  | raised h => exact .raised h
  | stuck f => exact .stuck f

theorem Micro.Twins.next {m m' : Micro} {s' : State} (h : m.Twins m') (hm : m.toOutcome = .next s') :
    ∃ t', m'.toOutcome = .next t' ∧ Machine.Twins s' t' := by
  cases h with
  | ok h | raised h =>
    cases hm
    exact ⟨_, rfl, h⟩
  | stuck f => cases hm

/-- The same check decides the same way on both sides. -/
theorem Micro.Twins.ite {c : Prop} [Decidable c] {m m' n n' : Micro} (hm : c → m.Twins m') (hn : ¬ c → n.Twins n') :
    (if c then m else n).Twins (if c then m' else n') := by
  split
  · next hc => exact hm hc
  · next hc => exact hn hc

section
variable {s t : State} (h : Twins s t)
include h

theorem setCursor_twins (p : Nat) : (setCursor p s).Twins (setCursor p t) :=
  .ite (fun _ => .ok (h.movedTo p)) fun _ => .stuck _

theorem emit_twins (v : Byte) (site : Site) : (emit v site s).Twins (emit v site t) := by
  by_cases hroom : s.hasRoom
  · have hroom' : t.hasRoom :=
      ⟨by rw [← h.outLen, ← h.outCap]; exact hroom.lt_cap, by rw [← h.outLen]; exact hroom.fits⟩
    rw [emit_of_hasRoom hroom, emit_of_hasRoom hroom']
    exact .ok (h.emitted hroom v)
  · simp only [emit, append, fitting, ← h.outLen, ← h.outCap]
    exact .ite (fun _ => .raised (h.errored _ _)) fun _ =>
      .ite (fun hlt => .ite (fun hfits => absurd ⟨hlt, hfits⟩ hroom) fun _ => .stuck _) fun _ => .stuck _

theorem copyStart_twins (len dist : Nat) : (copyStart len dist s).Twins (copyStart len dist t) := by
  simp only [copyStart, fitting, ← h.outLen]
  exact .ite (fun _ => .raised (h.errored _ _)) fun _ =>
    .ite (fun _ => .ite (fun _ => .ok (h.copying _ _)) fun _ => .stuck _) fun _ => .stuck _

theorem copyCountDown_twins : (copyCountDown s).Twins (copyCountDown t) := by
  simp only [copyCountDown, ← h.copyRem]
  exact .ite (fun _ => .stuck _) fun _ => .ok (h.copyLeft _)

/-- The source of a copy byte is below `OUT_LEN`, where both have the same bytes (42_tokens.md R85). -/
theorem copyByteStep_twins (hdist : 1 ≤ s.copyDist.toNat) (hback : s.copyDist.toNat ≤ s.outLen.toNat) :
    (copyByteStep s).Twins (copyByteStep t) := by
  have hsource := h.output (s.outLen.toNat - s.copyDist.toNat) (by omega)
  simp only [copyByteStep, readBack, ← h.outLen, ← h.copyDist, ← h.outCap, ← hsource]
  exact .ite (fun _ => .stuck _) fun _ => (emit_twins h _ _).bind fun _ _ hu => copyCountDown_twins hu

theorem pseudoReadBits_twins (n : Nat) (site : Site) {k : Nat → State → Micro}
    (hk : ∀ v u u', Twins u u' → (k v u).Twins (k v u')) :
    (pseudoReadBits n site s k).Twins (pseudoReadBits n site t k) := by
  simp only [pseudoReadBits, h.remaining_eq, h.cursor_eq, h.gather]
  refine .ite (fun _ => .stuck _) fun _ => .ite (fun _ => .raised (h.errored _ _)) fun _ => ?_
  split
  · exact .stuck _
  · exact (setCursor_twins h _).bind (hk _)

theorem pseudoDecode_twins (c : CodeTable) (site : Site) {k : Nat → State → Micro}
    (hk : ∀ v u u', Twins u u' → (k v u).Twins (k v u')) :
    (pseudoDecode c site s k).Twins (pseudoDecode c site t k) := by
  simp only [pseudoDecode, h.remaining_eq, h.cursor_eq, h.gather]
  refine .ite (fun _ => .raised (h.errored _ _)) fun _ => ?_
  split
  · exact .stuck _
  split
  · exact (setCursor_twins h _).bind (hk _)
  · exact .raised (h.errored _ _)
  · exact .raised (h.errored _ _)

/-! ## The steps -/

theorem pseudoPreambleStep_twins : (pseudoPreambleStep s).Twins (pseudoPreambleStep t) :=
  pseudoReadBits_twins h _ _ fun f _ _ hu =>
    have hflag := hu.withPreFlag (BitVec.ofNat 8 f)
    .ite (fun _ => .raised (hflag.errored _ _)) fun _ =>
      pseudoReadBits_twins hflag _ _ fun d _ _ hv =>
        have hdict := hv.withPreDict (BitVec.ofNat 8 d)
        .ite (fun _ => .raised (hdict.errored _ _)) fun _ => .ok (hdict.chosen _ _)

theorem pseudoLitRaw_twins : (pseudoLitRaw s).Twins (pseudoLitRaw t) :=
  pseudoReadBits_twins h _ _ fun _ _ _ hu => emit_twins hu _ _

theorem pseudoLitCoded_twins : (pseudoLitCoded s).Twins (pseudoLitCoded t) :=
  pseudoDecode_twins h _ _ fun _ _ _ hu => emit_twins hu _ _

theorem pseudoCopyDistance_twins (len : Nat) : (pseudoCopyDistance len s).Twins (pseudoCopyDistance len t) := by
  simp only [pseudoCopyDistance, h.dictBits]
  exact pseudoDecode_twins h _ _ fun _ _ _ hu => pseudoReadBits_twins hu _ _ fun _ _ _ hv => copyStart_twins hv _ _

theorem pseudoLengthKnown_twins (len : Nat) : (pseudoLengthKnown len s).Twins (pseudoLengthKnown len t) :=
  .ite (fun _ => .ok h.finished) fun _ => pseudoCopyDistance_twins h len

theorem pseudoCopyPath_twins : (pseudoCopyPath s).Twins (pseudoCopyPath t) :=
  pseudoDecode_twins h _ _ fun _ _ _ hu =>
    .ite (fun _ => pseudoLengthKnown_twins hu _) fun _ =>
      pseudoReadBits_twins hu _ _ fun _ _ _ hv => pseudoLengthKnown_twins hv _

theorem pseudoTokenStep_twins : (pseudoTokenStep s).Twins (pseudoTokenStep t) :=
  pseudoReadBits_twins h _ _ fun _ u u' hu =>
    .ite (fun _ => by
      rw [hu.litMode]
      exact .ite (fun _ => pseudoLitRaw_twins hu) fun _ => pseudoLitCoded_twins hu) fun _ => pseudoCopyPath_twins hu

theorem pseudoEngineStep_twins (hinv : Inv s) : (pseudoEngineStep s).Twins (pseudoEngineStep t) := by
  unfold pseudoEngineStep
  rw [← h.phase]
  cases hp : s.phase with
  | pre => exact pseudoPreambleStep_twins h
  | token => exact pseudoTokenStep_twins h
  | copy =>
    obtain ⟨-, -, -, hdist, hback⟩ := hinv.copy.inCopy hp
    exact copyByteStep_twins h hdist hback

end

/-- Settles O53: each piece of the pseudocode takes such states to such states, and the engine's step is the pseudocode. -/
theorem runDependsOnTheInputAlone : Obligations.RunDependsOnTheInputAlone := by
  intro s t s' hs ht hsame hagenda hagenda' hstep
  rw [step_nil hagenda] at hstep
  rw [step_nil hagenda']
  by_cases hb : s.runState = .busy
  · rw [engineStepIsThePseudocode s hs hb] at hstep
    rw [engineStepIsThePseudocode t ht (hsame.runState ▸ hb)]
    obtain ⟨t', ht', htwins⟩ := (pseudoEngineStep_twins (hsame.twins hs ht) hs).next hstep
    exact ⟨t', ht', htwins.toSameRun, htwins.observe_eq⟩
  · rw [engineStep_stopped hb] at hstep
    cases hstep
    exact ⟨t, engineStep_stopped (hsame.runState ▸ hb), hsame, hsame.observe_eq⟩

end Sys2Proof.Machine
end

section
/-! PROOFS. The statements of 43_host_commands.md: the requests that are operations and what each operation decodes to (R91, R98),
and what the operations do (R92 to R97). -/

namespace Sys2Proof.Machine

open Sys2Proof

/-! ## Which requests are operations -/

/-- The decoder reads each operation from its request: the converse of `decodeHost_ok`. -/
theorem HostDecoded.decodeHost_eq {r : HostRequest} {i : Instr} (h : HostDecoded r i) : decodeHost r = .ok i := by
  cases h with
  | start hspace hbytes hwrite haddr hbit => simp [decodeHost, decodeRegRequest, hspace, hbytes, hwrite, haddr, hbit]
  | regWrite hspace hbytes hwrite haddr hstart =>
    simp only [decodeHost, decodeRegRequest, hspace, hbytes, hwrite, haddr, if_neg hstart, ne_eq, not_true_eq_false,
      if_false, if_true]
  | regRead hspace hbytes hwrite haddr => simp [decodeHost, decodeRegRequest, hspace, hbytes, hwrite, haddr]
  | inWrite hspace hbytes hwrite | inRead hspace hbytes hwrite | outRead hspace hbytes hwrite =>
    simp [decodeHost, hspace, hbytes, hwrite]

/-- A well-formed host operation is encoded as a request for it (43_host_commands.md R91; log 10, log 19). -/
theorem encode_host {c : Context} {i : Instr} (hkind : instrKind i = .host) (hwf : wellFormed c i = true) :
    ∃ r, encode c i = .host r ∧ HostDecoded r i := by
  cases i with
  | start v => exact ⟨_, rfl, .start rfl rfl rfl rfl hwf⟩
  | regRead off => exact ⟨_, rfl, .regRead rfl rfl rfl (eq_of_beq hwf)⟩
  | regWrite off v =>
    obtain ⟨haligned, hstart⟩ : off % 4 = 0 ∧ ¬ (off = 0 ∧ v.getLsbD 0 = true) := by
      simpa [wellFormed, imp_iff_not_or] using hwf
    exact ⟨_, rfl, .regWrite rfl rfl rfl haligned hstart⟩
  | inWrite a b =>
    have hbyte : (b.setWidth 32).setWidth 8 = b := BitVec.setWidth_setWidth_of_le b (by decide) |>.trans b.setWidth_eq
    refine ⟨_, rfl, ?_⟩
    conv_rhs => rw [← hbyte]
    exact .inWrite rfl rfl rfl
  | inRead a => exact ⟨_, rfl, .inRead rfl rfl rfl⟩
  | outRead a => exact ⟨_, rfl, .outRead rfl rfl rfl⟩
  | _ => cases hkind

/-- Settles O4: the encoding is the operation's request, and the decoder reads each operation from its request. -/
theorem hostOperationDecodesFromItsRequest : Obligations.HostOperationDecodesFromItsRequest := by
  intro c i hkind hwf
  obtain ⟨r, hencode, hdecoded⟩ := encode_host hkind hwf
  exact ⟨r, hencode, hdecoded.decodeHost_eq⟩

/-- The accesses that are operations of a block with parameters `c` (43_host_commands.md R91, R98; log 10). -/
def IsOperation (c : Config) (r : HostRequest) : Prop :=
  match r.space with
  | .reg => r.bytes = 4 ∧ r.addr % 4 = 0
  | .input => r.bytes = 1 ∧ r.addr < c.inCap
  | .output => r.write = false ∧ r.bytes = 1 ∧ r.addr < c.outCap
  | .rom => False

theorem not_isOperation_iff (c : Config) (r : HostRequest) :
    ¬ IsOperation c r ↔
      (r.space = .reg ∧ (r.bytes ≠ 4 ∨ r.addr % 4 ≠ 0)) ∨ (r.space = .input ∧ (r.bytes ≠ 1 ∨ c.inCap ≤ r.addr)) ∨
        (r.space = .output ∧ (r.write = true ∨ r.bytes ≠ 1 ∨ c.outCap ≤ r.addr)) ∨ r.space = .rom := by
  cases hspace : r.space <;> simp [IsOperation, hspace, imp_iff_not_or]

/-- The decoder refuses no operation. -/
theorem IsOperation.exists_hostDecoded {c : Config} {r : HostRequest} (h : IsOperation c r) : ∃ i, HostDecoded r i := by
  unfold IsOperation at h
  split at h
  next hspace =>
    obtain ⟨hbytes, haddr⟩ := h
    cases hwrite : r.write with
    | false => exact ⟨_, .regRead hspace hbytes hwrite haddr⟩
    | true =>
      by_cases hstart : r.addr = 0 ∧ r.data.getLsbD 0 = true
      · exact ⟨_, .start hspace hbytes hwrite hstart.1 hstart.2⟩
      · exact ⟨_, .regWrite hspace hbytes hwrite haddr hstart⟩
  next hspace =>
    cases hwrite : r.write with
    | false => exact ⟨_, .inRead hspace h.1 hwrite⟩
    | true => exact ⟨_, .inWrite hspace h.1 hwrite⟩
  next hspace =>
    obtain ⟨hwrite, hbytes, -⟩ := h
    exact ⟨_, .outRead hspace hbytes hwrite⟩
  next => exact h.elim

/-! ## Which operations are refused -/

/-- The outcome is a next state where `c` holds and a refusal where it does not. -/
def AnswersIff (c : Prop) (o : StepResult) : Prop :=
  (c → ∃ t, o = .next t) ∧ (¬ c → ∃ e, o = .refused e)

theorem answersIff_guarded {c d : Prop} [Decidable d] (hiff : c ↔ d) (t : State) (e : Refusal) :
    AnswersIff c (if d then .next t else .refused e) :=
  ⟨fun h => ⟨t, if_pos (hiff.mp h)⟩, fun h => ⟨e, if_neg (mt hiff.mpr h)⟩⟩

theorem AnswersIff.refused_iff {c : Prop} {o : StepResult} (h : AnswersIff c o) : (∃ e, o = .refused e) ↔ ¬ c := by
  refine ⟨fun ⟨e, he⟩ hc => ?_, h.2⟩
  obtain ⟨t, ht⟩ := h.1 hc
  cases he.symm.trans ht

theorem AnswersIff.ne_fault {c : Prop} {o : StepResult} (h : AnswersIff c o) (f : Fault) : o ≠ .fault f := by
  by_cases hc : c
  · obtain ⟨t, rfl⟩ := h.1 hc
    nofun
  · obtain ⟨e, rfl⟩ := h.2 hc
    nofun

/-- A decoded operation checks only its address, and only where that makes its request no operation (43_host_commands.md
R98). -/
theorem HostDecoded.exec_answersIff {r : HostRequest} {i : Instr} (h : HostDecoded r i) (s : State) :
    AnswersIff (IsOperation s.cfg r) (exec i s) := by
  cases h with
  | start hspace hbytes _ haddr =>
    have hop : IsOperation s.cfg r := by simp [IsOperation, hspace, hbytes, haddr]
    exact ⟨fun _ => ⟨_, rfl⟩, fun hnot => absurd hop hnot⟩
  | regWrite hspace hbytes | regRead hspace hbytes =>
    have hiff : IsOperation s.cfg r ↔ r.addr % 4 = 0 := by simp [IsOperation, hspace, hbytes]
    exact answersIff_guarded hiff _ _
  | inWrite hspace hbytes | inRead hspace hbytes =>
    have hiff : IsOperation s.cfg r ↔ r.addr < s.cfg.inCap := by simp [IsOperation, hspace, hbytes]
    exact answersIff_guarded hiff _ _
  | outRead hspace hbytes hwrite =>
    have hiff : IsOperation s.cfg r ↔ r.addr < s.cfg.outCap := by simp [IsOperation, hspace, hbytes, hwrite]
    exact answersIff_guarded hiff _ _

theorem hostTurn_answersIff (r : HostRequest) (s : State) : AnswersIff (IsOperation s.cfg r) (hostTurn r s) := by
  cases hdecode : decodeHost r with
  | ok i => exact hostTurn_of_decodeHost hdecode s ▸ (decodeHost_ok hdecode).exec_answersIff s
  | error e =>
    refine ⟨fun hop => ?_, fun _ => ⟨e, by simp only [hostTurn, hdecode]⟩⟩
    obtain ⟨i, hi⟩ := hop.exists_hostDecoded
    cases hdecode.symm.trans hi.decodeHost_eq

/-- Settles O32: the host's turn answers exactly the operations, refuses every other request, and never faults. -/
theorem refusedHostAccesses : Obligations.RefusedHostAccesses := by
  intro r rest s hagenda
  have hanswers := hostTurn_answersIff r (s.withAgenda rest)
  rw [← step_host hagenda] at hanswers
  exact ⟨hanswers.refused_iff.trans (not_isOperation_iff s.cfg r), hanswers.ne_fault⟩

/-! ## START -/

theorem startRun_of_busy {s : State} (hb : s.runState = .busy) : startRun s = s := if_pos hb

theorem startRun_of_stopped {s : State} (hb : s.runState ≠ .busy) : startRun s = s.started := if_neg hb

theorem exec_start_of_set {v : Word} (hv : v.getLsbD 0 = true) (s : State) :
    exec (.start v) s = .next ((startRun s).answered .nothing) := by
  calc exec (.start v) s = .next ((if v.getLsbD 0 then startRun s else s).answered .nothing) := rfl
    _ = .next ((startRun s).answered .nothing) := by rw [if_pos hv]

theorem exec_start_of_clear {v : Word} (hv : v.getLsbD 0 = false) (s : State) :
    exec (.start v) s = .next (s.answered .nothing) := by
  calc exec (.start v) s = .next ((if v.getLsbD 0 then startRun s else s).answered .nothing) := rfl
    _ = .next (s.answered .nothing) := by rw [if_neg (by rw [hv]; nofun)]

/-- A write to CTRL is the START operation's own effect, whatever its bit 0 is (43_host_commands.md R93, R94; log 19). -/
theorem exec_regWrite_ctrl (v : Word) (s : State) : exec (.regWrite 0x00 v) s = exec (.start v) s := rfl

/-- Settles O25: START answers `startRun`, which is `started` outside a run and drops the request during one. -/
theorem startBeginsARun : Obligations.StartBeginsARun := by
  refine fun v s => ⟨fun _ => exec_regWrite_ctrl v s, fun hv hb => ?_, fun hv hb => ?_, fun hv => exec_start_of_clear hv s⟩
  · rw [exec_start_of_set hv, startRun_of_stopped hb]
    rfl
  · rw [exec_start_of_set hv, startRun_of_busy hb]
    rfl

/-! ## The registers -/

theorem preambleWord_toNat (s : State) : s.preambleWord.toNat = s.preFlag.toNat + s.preDict.toNat * 2 ^ 8 :=
  toNat_or_field (k := 8) (BitVec.toNat_setWidth_of_le (by decide)) s.preDict s.preFlag.isLt (by decide)

/-- Settles O28: an aligned read answers the register's value, and each register's value is that of its fields. -/
theorem registerReads : Obligations.RegisterReads := by
  refine fun off s => ⟨fun ha => ⟨s.regValue off, if_pos ha, ?_⟩, fun ha => if_neg ha⟩
  have zeroExtended {w : Nat} (x : BitVec w) (hw : w ≤ 32) : (x.setWidth 32).toNat = x.toNat :=
    BitVec.toNat_setWidth_of_le hw
  unfold State.regValue
  split
  case h_1 => exact statusWord_toNat s
  case h_8 => exact preambleWord_toNat s
  case h_4 | h_7 | h_9 | h_10 | h_11 => exact zeroExtended _ (by decide)
  case h_12 => simp_all
  all_goals rfl

theorem exec_regWrite_of_aligned {off : Nat} (ha : off % 4 = 0) (v : Word) (s : State) :
    exec (.regWrite off v) s = .next ((writeRegister off v s).answered .nothing) := if_pos ha

/-- What a register write that is no START can do: write `IN_LEN`, write `DICT_HINT`, or nothing (43_host_commands.md R93). -/
theorem writeRegister_cases {off : Nat} {v : Word} (hstart : ¬ (off = 0x00 ∧ v.getLsbD 0 = true)) (s : State) :
    (off = 0x08 ∧ s.runState ≠ .busy ∧
        writeRegister off v s = s.withInLen (BitVec.ofNat 32 (min v.toNat s.cfg.inCap))) ∨
      (off = 0x2C ∧ s.runState ≠ .busy ∧ writeRegister off v s = s.withDictHint (v.setWidth 8)) ∨
      (¬ (off = 0x08 ∧ s.runState ≠ .busy) ∧ ¬ (off = 0x2C ∧ s.runState ≠ .busy) ∧ writeRegister off v s = s) := by
  unfold writeRegister
  split
  · have hclear : ¬ v.getLsbD 0 = true := fun hv => hstart ⟨rfl, hv⟩
    exact .inr (.inr ⟨by simp, by simp, if_neg hclear⟩)
  · by_cases hb : s.runState = .busy
    · exact .inr (.inr ⟨by simp [hb], by simp, if_pos hb⟩)
    · exact .inl ⟨rfl, hb, if_neg hb⟩
  · by_cases hb : s.runState = .busy
    · exact .inr (.inr ⟨by simp, by simp [hb], if_pos hb⟩)
    · exact .inr (.inl ⟨rfl, hb, if_neg hb⟩)
  · next hinLen hhint => exact .inr (.inr ⟨fun h => hinLen h.1, fun h => hhint h.1, rfl⟩)

/-- Settles O29: a write to CTRL with bit 0 set is START; the other writes are the three cases of `writeRegister_cases`. -/
theorem registerWrites : Obligations.RegisterWrites := by
  refine fun off v s => ⟨fun ha => ?_, fun ha => if_neg ha⟩
  split
  next hstart =>
    obtain ⟨rfl, -⟩ := hstart
    exact exec_regWrite_ctrl v s
  next hstart =>
    refine ⟨_, exec_regWrite_of_aligned ha v s, ?_⟩
    obtain ⟨rfl, hb, heq⟩ | ⟨rfl, hb, heq⟩ | ⟨hinLen, hhint, heq⟩ := writeRegister_cases hstart s
    · have hfits : min v.toNat s.cfg.inCap < 2 ^ 32 := lt_of_le_of_lt (min_le_left _ _) v.isLt
      rw [heq, if_pos ⟨rfl, hb⟩, if_neg (by simp)]
      exact ⟨Nat.mod_eq_of_lt hfits, rfl, rfl⟩
    · rw [heq, if_neg (by simp), if_pos ⟨rfl, hb⟩]
      exact ⟨rfl, BitVec.toNat_setWidth 8 v, rfl⟩
    · rw [heq, if_neg hinLen, if_neg hhint]
      exact ⟨rfl, rfl, rfl⟩

/-! ## The buffers -/

theorem exec_inWrite_of_lt {a : Nat} {s : State} (ha : a < s.cfg.inCap) (b : Byte) :
    exec (.inWrite a b) s = .next ((if s.runState = .busy then s else s.withInByte a b).answered .nothing) := if_pos ha

/-- Settles O30: within IN the byte is stored outside a run and dropped during one. -/
theorem inWriteStoresOneByte : Obligations.InWriteStoresOneByte := by
  refine fun a b s => ⟨fun ha hb => ?_, fun ha hb => ?_, fun ha => if_neg (not_lt.mpr ha)⟩
  · rw [exec_inWrite_of_lt ha, if_neg hb]
    exact ⟨_, rfl, withInByte_inByte s a b, rfl⟩
  · rw [exec_inWrite_of_lt ha, if_pos hb]
    rfl

/-- Settles O31: each read checks its address against the capacity and leaves its result, whatever the run state. -/
theorem bufferReadsReturnTheByte : Obligations.BufferReadsReturnTheByte :=
  fun _ _ => ⟨fun ha => if_pos ha, fun ha => if_neg (not_lt.mpr ha), fun ha => if_pos ha,
    fun ha => if_neg (not_lt.mpr ha)⟩

end Sys2Proof.Machine
end

section
/-! PROOFS. The statements of 60_exceptions.md: what an error leaves (R101 to R106), the sites of an input that runs out inside a
token (R105), and that the model itself never stops (R109). -/

namespace Sys2Proof.Machine

open Sys2Proof

/-! ## The errors of a token that was read -/

/-- Error entry behind a token that ends at `q`: the cursor and the error registers say so (60_exceptions.md R106). -/
theorem errored_past {s : State} {q : Nat} (hq : q < 2 ^ 35) (kind : ErrKind) (site : Site) :
    ∃ t, (Micro.raised ((s.movedTo q).errored kind site)).toOutcome = .next t ∧ t.cursor = q ∧
      t = { s with curByte := t.curByte, curBit := t.curBit, runState := .error, errCode := kind.code,
                   errDetail := site.code, errPos := t.curByte, errBit := t.curBit } :=
  ⟨_, rfl, movedTo_cursor s q hq, rfl⟩

/-- Both literals are one meaning with two widths (42_tokens.md R80, R81). -/
theorem exec_literal {i : Instr} {v : Byte} {n : Nat}
    (hi : i = .litRaw v ∧ n = 9 ∨ i = .litCoded v ∧ n = 1 + litTable.codeLen v.toNat) (s : State) :
    exec i s = (literalToken n v s).toOutcome := by
  obtain ⟨rfl, rfl⟩ | ⟨rfl, rfl⟩ := hi <;> rfl

/-- Settles O17: the cursor moves first and leaves OUT as full as it was, so Emit raises its error behind the token. -/
theorem literalIntoFullOutputIsAnError : Obligations.LiteralIntoFullOutputIsAnError := by
  intro i v n s hi hc hfull
  have hemit : emit v .literalEmit (s.movedTo (s.cursor + n)) = .raised _ := emit_full hfull
  rw [exec_literal hi, literalToken_of hc, hemit]
  exact errored_past hc .outputOverflow .literalEmit

/-- Settles O19: the cursor moves first, and CopyStart checks the distance before it writes a register. -/
theorem copyBeyondTheOutputIsAnError : Obligations.CopyBeyondTheOutputIsAnError := by
  intro i sym x h l k s hparts hne hk hk1 hc hfar
  subst hk
  rw [exec_copyParts hparts, copyToken_of hne hk1 hc, copyStart, if_pos (by rwa [movedTo_outLen])]
  exact errored_past hc .distanceOutOfRange .distanceCheck

/-! ## Where the input runs out -/

/-- The error of a read at `p` that the input is too short for (60_exceptions.md R101). -/
def truncatedAt (site : Site) (p : Nat) : StreamError := { kind := .truncatedInput, site := site, pos := p }

theorem Read.bind_eq_error {α β : Type} {r : Read α} {k : α → Nat → Read β} {e : StreamError}
    (h : r.bind k = .error e) : r = .error e ∨ ∃ a p, r = .ok a p ∧ k a p = .error e := by
  cases r with
  | ok a p => exact .inr ⟨a, p, rfl, h⟩
  | error e' =>
    cases h
    exact .inl rfl
  | stuck f => cases h

section

variable {src : BitSource} {e : StreamError} {p : Nat} (ht : src.total)

include ht

theorem readBits_eq_error {n : Nat} {site : Site} (h0 : n ≠ 0) (h16 : n ≤ 16)
    (h : readBits src n site p = .error e) : e = truncatedAt site p ∧ src.len < p + n := by
  obtain ⟨herr, hshort⟩ | ⟨v, hok, -⟩ := readBits_cases ht site p h0 h16
  · rw [herr] at h
    cases h
    exact ⟨rfl, by omega⟩
  · rw [hok] at h
    cases h

theorem decodeSymbol_eq_error {t : CodeTable} {n : Nat} (hsound : t.Sound n) {site : Site}
    (h : decodeSymbol src t site p = .error e) : e = truncatedAt site p := by
  obtain ⟨herr, -⟩ | ⟨sym, -, hok, -⟩ := decodeSymbol_total hsound ht site p
  · rw [herr] at h
    cases h
    rfl
  · rw [hok] at h
    cases h

theorem readExtra_eq_error {sym : Nat} (hs : sym < 16) (hp : p ≤ src.len) (h : readExtra src sym p = .error e) :
    e = truncatedAt .lengthExtra p ∧ src.len < p + lenExtra sym := by
  obtain ⟨herr, hshort⟩ | ⟨x, hok, -⟩ := readExtra_cases ht p hs hp
  · rw [herr] at h
    cases h
    exact ⟨rfl, hshort⟩
  · rw [hok] at h
    cases h

/-- Either literal has one read behind its control bit (42_tokens.md R80, R81). -/
theorem decodeLiteral_eq_error {c : Context} (h : decodeLiteral c src p = .error e) : e = truncatedAt .literal p := by
  unfold decodeLiteral at h
  split at h
  · obtain h | ⟨v, q, -, h⟩ := Read.bind_eq_error h
    · exact (readBits_eq_error ht (by decide) (by decide) h).1
    · cases h
  · obtain h | ⟨v, q, -, h⟩ := Read.bind_eq_error h
    · exact decodeSymbol_eq_error ht litTable_sound h
    · cases h

/-- The two reads of a distance (42_tokens.md R83); with both of them done there is a COPY row. -/
theorem decodeDistance_eq_error {c : Context} {sym x : Nat} (hd : c.dictAccepted = true) (hs : sym < 16)
    (hx : x < 2 ^ lenExtra sym) (h : decodeDistance c src sym x p = .error e) :
    e = truncatedAt .distanceCode p ∨
      ∃ d, d < 64 ∧ src.holds p (distTable.streamCode d) ∧ e = truncatedAt .distanceLow (p + distTable.codeLen d) ∧
        src.len < p + distTable.codeLen d + (if sym = 1 then 2 else c.dictBits.toNat) := by
  obtain ⟨hk2, hk6⟩ := lowBitCount_bounds hd (copyLength sym x)
  obtain h | ⟨d, q, hcode, h⟩ := Read.bind_eq_error h
  · exact .inl (decodeSymbol_eq_error ht distTable_sound h)
  obtain ⟨rfl, hd64, hbits⟩ := decodeSymbol_eq_ok distTable_sound ht hcode
  obtain h | ⟨l, q, hlow, h⟩ := Read.bind_eq_error h
  · obtain ⟨he, hshort⟩ := readBits_eq_error ht (by omega) (by omega) h
    rw [lowBitCount_sym _ hs hx] at hshort
    exact .inr ⟨d, hd64, hbits, he, hshort⟩
  · obtain ⟨rfl, hl, -⟩ := readBits_eq_ok ht (by omega) (by omega) hlow
    have hl64 : l < 2 ^ 6 := lt_of_lt_of_le hl (Nat.pow_le_pow_right (by decide) hk6)
    obtain ⟨i, hi, -⟩ := copyInstr_of_fields hs hx hd64 hl64 hl
    rw [if_neg (by omega), hi] at h
    cases h

/-- The reads of the copy path up to the distance (42_tokens.md R82). -/
theorem decodeCopyPath_eq_error {c : Context} (h : decodeCopyPath c src p = .error e) :
    e = truncatedAt .lengthCode p ∨
      ∃ sym, sym < 16 ∧ src.holds p (lenTable.streamCode sym) ∧
        (e = truncatedAt .lengthExtra (p + lenTable.codeLen sym) ∧
            src.len < p + lenTable.codeLen sym + lenExtra sym ∨
          ∃ x, x < 2 ^ lenExtra sym ∧
            decodeDistance c src sym x (p + lenTable.codeLen sym + lenExtra sym) = .error e) := by
  obtain h | ⟨sym, q, hcode, h⟩ := Read.bind_eq_error h
  · exact .inl (decodeSymbol_eq_error ht lenTable_sound h)
  obtain ⟨rfl, hs, hbits⟩ := decodeSymbol_eq_ok lenTable_sound ht hcode
  have hq : p + lenTable.codeLen sym ≤ src.len := by simpa using hbits.1
  refine .inr ⟨sym, hs, hbits, ?_⟩
  obtain h | ⟨x, r, hextra, h⟩ := Read.bind_eq_error h
  · exact .inl (readExtra_eq_error ht hs hq h)
  obtain ⟨rfl, hx, -⟩ := readExtra_eq_ok ht hs hq hextra
  split at h
  · cases h
  · exact .inr ⟨x, hx, h⟩

/-- The control bit at the end of the input, or the path that it chose (42_tokens.md R79). -/
theorem decodeToken_eq_error {c : Context} (hp : p ≤ src.len) (h : decodeToken c src p = .error e) :
    e = truncatedAt .controlBit p ∧ p = src.len ∨
      src.holds p [false] ∧ decodeLiteral c src (p + 1) = .error e ∨
      src.holds p [true] ∧ decodeCopyPath c src (p + 1) = .error e := by
  obtain h | ⟨ctl, q, hread, h⟩ := Read.bind_eq_error h
  · obtain ⟨he, hshort⟩ := readBits_eq_error ht (by decide) (by decide) h
    exact .inl ⟨he, by omega⟩
  obtain ⟨rfl, hctl, hbit⟩ := readBits_eq_ok ht (by decide) (by decide) hread
  obtain rfl | rfl : ctl = 0 ∨ ctl = 1 := by omega
  · exact .inr (.inl ⟨hbit, h⟩)
  · exact .inr (.inr ⟨hbit, h⟩)

end

/-- Settles O43: each failing read names its site and stands behind the reads before it, which found their bits. -/
theorem truncationSites : Obligations.TruncationSites := by
  intro c src p e hd ht hp h
  obtain ⟨rfl, hend⟩ | ⟨hbit, h⟩ | ⟨hbit, h⟩ := decodeToken_eq_error ht hp h
  · exact ⟨rfl, rfl, rfl, .inl ⟨rfl, rfl, hend⟩⟩
  · obtain rfl := decodeLiteral_eq_error ht h
    exact ⟨rfl, rfl, rfl, .inr (.inl ⟨rfl, hbit, rfl⟩)⟩
  obtain rfl | ⟨sym, hs, hcode, hrest⟩ := decodeCopyPath_eq_error ht h
  · exact ⟨rfl, rfl, rfl, .inr (.inr (.inl ⟨rfl, hbit, rfl⟩))⟩
  have hlength : src.holds p (true :: lenTable.streamCode sym) := holds_append_of hbit hcode
  obtain ⟨rfl, hshort⟩ | ⟨x, hx, h⟩ := hrest
  · exact ⟨rfl, rfl, rfl, .inr (.inr (.inr ⟨sym, hs, hlength, .inl ⟨rfl, rfl, hshort⟩⟩))⟩
  obtain rfl | ⟨d, hd64, hdist, rfl, hshort⟩ := decodeDistance_eq_error ht hd hs hx h
  · exact ⟨rfl, rfl, rfl, .inr (.inr (.inr ⟨sym, hs, hlength, .inr (.inl ⟨rfl, rfl⟩)⟩))⟩
  · exact ⟨rfl, rfl, rfl,
      .inr (.inr (.inr ⟨sym, hs, hlength, .inr (.inr ⟨d, hd64, hdist, rfl, rfl, hshort⟩)⟩))⟩

/-- Settles O44: the invariant lets reading fail only by TruncatedInput inside the input, where error entry puts the cursor. -/
theorem truncatedTokenEntersTheError : Obligations.TruncatedTokenEntersTheError := by
  intro s e hinv hb hp hdec
  have hread := hinv.tokenRead hb hp
  rw [hdec] at hread
  cases hread with
  | truncated site q _ hlen _ =>
    have hq : q < 2 ^ 35 := cursor_lt_of_le hlen
    rw [engineStep_token hb hp, hdec, runDecoded_error s hq, ← movedTo_errored]
    exact errored_past hq .truncatedInput site

/-! ## The model never stops -/

/-- Settles O50: by whose turn it is. The engine goes on under the invariant, a reset always does, and the host's turn answers
or refuses its request. -/
theorem noStepFaults : Obligations.NoStepFaults := by
  intro s hinv
  cases hagenda : s.agenda with
  | nil =>
    rw [step_nil hagenda]
    exact .inl hinv.engineStep_next
  | cons turn rest =>
    cases turn with
    | engine =>
      rw [step_engine hagenda]
      exact .inl (hinv.withAgenda rest).engineStep_next
    | host r =>
      obtain ⟨hanswers, hrefuses⟩ := hostTurn_answersIff r (s.withAgenda rest)
      rw [step_host hagenda]
      by_cases hop : IsOperation s.cfg r
      · exact .inl (hanswers hop)
      · obtain ⟨refusal, href⟩ := hrefuses hop
        exact .inr ⟨r, rest, refusal, rfl, href⟩
    | reset => exact .inl ⟨_, step_reset hagenda⟩

end Sys2Proof.Machine
end

section
/-! PROOFS. The statements of 70_reset_and_hazards.md: the reset event (R116, R118), the host's sequence for one block (R119),
and what overlaps a run or a copy (R121, R122). -/

namespace Sys2Proof.Machine

open Sys2Proof

/-! ## The copy that reads its own output -/

/-- The step from `s` to `t` copied one byte (42_tokens.md R85). -/
structure CopiesByte (s t : State) : Prop where
  step_eq : step s = .next t
  outLen_eq : t.outLen.toNat = s.outLen.toNat + 1
  copyRem_eq : t.copyRem.toNat = s.copyRem.toNat - 1
  outByte_eq : ∀ a, t.outByte a =
    if a = s.outLen.toNat then s.outByte (s.outLen.toNat - s.copyDist.toNat) else s.outByte a
  frame : t = { s with outLen := t.outLen, outMem := t.outMem, copyRem := t.copyRem,
                       phase := if s.copyRem = 1 then .token else .copy }

/-- A copy left alone, with room in OUT, copies one byte: what O23 says of the engine's step. -/
theorem Inv.copiesByte {s : State} (h : Inv s) (hb : s.runState = .busy) (hp : s.phase = .copy) (hagenda : s.agenda = [])
    (hroom : s.outLen.toNat < s.cfg.outCap) : ∃ t, CopiesByte s t := by
  obtain ⟨t, hstep, hlen, hrem, hbytes, hframe⟩ := (copyByteStepAppendsOrOverflows s h hb hp).1 hroom
  exact ⟨t, (step_nil hagenda).trans hstep, hlen, hrem, hbytes, hframe⟩

/-- `n` steps from `s` to `t` were the last `n` bytes of a copy: R121's law for the bytes they appended, and the frame. -/
structure CopiesLast (n : Nat) (s t : State) : Prop where
  runs : runsTo n s t
  outLen_eq : t.outLen.toNat = s.outLen.toNat + n
  repeats : ∀ i, i < n → t.outByte (s.outLen.toNat + i) = t.outByte (s.outLen.toNat + i - s.copyDist.toNat)
  others : ∀ a, a < s.outLen.toNat ∨ s.outLen.toNat + n ≤ a → t.outByte a = s.outByte a
  frame : t = { s with outLen := t.outLen, outMem := t.outMem, copyRem := 0, phase := .token }

/-- A copy with no byte left is over. -/
theorem CopiesLast.none_left {s : State} (hp : s.phase = .token) (hrem : s.copyRem = 0) : CopiesLast 0 s s where
  runs := runsTo_zero s
  outLen_eq := rfl
  repeats := nofun
  others _ _ := rfl
  frame := by rw [← hp, ← hrem]

/-- A copied byte stands below `OUT_LEN` from its own step on, so the rest of the copy leaves it and its source as they are. -/
theorem CopiesLast.cons {n : Nat} {s t u : State} (hbyte : CopiesByte s t) (hrest : CopiesLast n t u)
    (hdist : 1 ≤ s.copyDist.toNat) (hback : s.copyDist.toNat ≤ s.outLen.toNat) : CopiesLast (n + 1) s u := by
  obtain ⟨hstep, hlen, -, hbytes, hframe⟩ := hbyte
  obtain ⟨hruns, hulen, hrepeats, hothers, huframe⟩ := hrest
  have hsame : t.copyDist = s.copyDist := by rw [hframe]
  rw [hlen] at hulen hrepeats hothers
  rw [hsame] at hrepeats
  have hkept (a : Nat) (ha : a < s.outLen.toNat) : u.outByte a = s.outByte a := by
    rw [hothers a (.inl (by omega)), hbytes, if_neg (by omega)]
  refine ⟨runsTo_succ hstep hruns, by omega, fun i hi => ?_, fun a ha => ?_, ?_⟩
  · cases i with
    | zero =>
      calc u.outByte s.outLen.toNat = t.outByte s.outLen.toNat := hothers _ (.inl (by omega))
        _ = s.outByte (s.outLen.toNat - s.copyDist.toNat) := by rw [hbytes, if_pos rfl]
        _ = u.outByte (s.outLen.toNat - s.copyDist.toNat) := (hkept _ (by omega)).symm
    | succ i =>
      have hlater := hrepeats i (by omega)
      rwa [Nat.add_assoc, Nat.add_comm 1 i] at hlater
  · obtain hbelow | habove := ha
    · exact hkept a hbelow
    · rw [hothers a (.inr (by omega)), hbytes, if_neg (by omega)]
  · calc u = { t with outLen := u.outLen, outMem := u.outMem, copyRem := 0, phase := .token } := huframe
      _ = { s with outLen := u.outLen, outMem := u.outMem, copyRem := 0, phase := .token } := by rw [hframe]

/-- A copy left alone, with room for its bytes, copies the ones it has left (42_tokens.md R85). -/
theorem Inv.copiesLast {n : Nat} {s : State} (h : Inv s) (hb : s.runState = .busy) (hagenda : s.agenda = [])
    (hp : s.phase = if n = 0 then .token else .copy) (hrem : s.copyRem.toNat = n)
    (hroom : s.outLen.toNat + n ≤ s.cfg.outCap) : ∃ t, CopiesLast n s t := by
  induction n generalizing s with
  | zero => exact ⟨s, .none_left hp (BitVec.eq_of_toNat_eq hrem)⟩
  | succ n ih =>
    have hcopy : s.phase = .copy := hp
    obtain ⟨-, -, -, hdist, hback⟩ := h.copy.inCopy hcopy
    obtain ⟨t, hbyte⟩ := h.copiesByte hb hcopy hagenda (by omega)
    have ⟨hstep, hlen, hremt, _, hframe⟩ := hbyte
    have hlast : s.copyRem = 1 ↔ n = 0 := by bv_omega
    rw [if_congr hlast rfl rfl] at hframe
    have hcap : t.cfg = s.cfg := by rw [hframe]
    obtain ⟨u, hu⟩ := ih (everyStepKeepsTheInvariant s t h hstep) (by rw [hframe]; exact hb)
      (by rw [hframe]; exact hagenda) (by rw [hframe]) (by omega) (by rw [hcap]; omega)
    exact ⟨u, CopiesLast.cons hbyte hu hdist hback⟩

/-- Settles O24, by induction on the bytes left to copy: each step's byte and its source stay as they are to the end. -/
theorem copyRepeatsWhatItWrites : Obligations.CopyRepeatsWhatItWrites := by
  intro s hinv hb hp hagenda hroom
  obtain ⟨-, hrem, -⟩ := hinv.copy.inCopy hp
  obtain ⟨t, ht⟩ := hinv.copiesLast hb hagenda (by rw [if_neg (by omega), hp]) rfl hroom
  exact ⟨t, ht.runs, ht.outLen_eq, ht.repeats, ht.others, ht.frame⟩

/-! ## Host writes during a run -/

theorem writeRegister_of_busy {off : Nat} {v : Word} {s : State} (hstart : ¬ (off = 0x00 ∧ v.getLsbD 0 = true))
    (hb : s.runState = .busy) : writeRegister off v s = s := by
  obtain ⟨-, hstopped, -⟩ | ⟨-, hstopped, -⟩ | ⟨-, -, hsame⟩ := writeRegister_cases hstart s
  · exact absurd hb hstopped
  · exact absurd hb hstopped
  · exact hsame

/-- The three writes are dropped while `STATE` is BUSY; the other operations are reads (43_host_commands.md R93 to R95). -/
theorem HostDecoded.write_dropped {r : HostRequest} {i : Instr} {s : State} (hi : HostDecoded r i) (hw : r.write = true)
    (hb : s.runState = .busy) (hin : r.space = .input → r.addr < s.cfg.inCap) :
    exec i s = .next (s.answered .nothing) := by
  cases hi with
  | start _ _ _ _ hbit => rw [exec_start_of_set hbit, startRun_of_busy hb]
  | regWrite _ _ _ haddr hstart => rw [exec_regWrite_of_aligned haddr, writeRegister_of_busy hstart hb]
  | inWrite hspace => rw [exec_inWrite_of_lt (hin hspace), if_pos hb]
  | regRead _ _ hread | inRead _ _ hread | outRead _ _ hread => exact absurd hw (by simp [hread])

/-- Settles O33: the turn is used up first, and the run state it does not touch drops the write. -/
theorem writesDuringARunAreDropped : Obligations.WritesDuringARunAreDropped := by
  intro r rest i s hb hagenda hw hdecode hin
  calc step s = exec i (s.withAgenda rest) := stepRunsTheHostOperation s r rest i hagenda hdecode
    _ = .next ((s.withAgenda rest).answered .nothing) := (decodeHost_ok hdecode).write_dropped hw hb hin

/-! ## The boot sequence -/

theorem step_hostDecoded {r : HostRequest} {i : Instr} {s : State} {turns : List Turn} (hi : HostDecoded r i)
    (hagenda : s.agenda = .host r :: turns) : step s = exec i (s.withAgenda turns) :=
  stepRunsTheHostOperation s r turns i hagenda hi.decodeHost_eq

theorem hostDecoded_inWriteRequest (a : Nat) (b : Byte) : HostDecoded (inWriteRequest a b) (.inWrite a b) := by
  have hbyte : (b.setWidth 32).setWidth 8 = b := BitVec.setWidth_setWidth_of_le b (by decide) |>.trans b.setWidth_eq
  have hdecoded : HostDecoded (inWriteRequest a b) (.inWrite a ((b.setWidth 32).setWidth 8)) := .inWrite rfl rfl rfl
  rwa [hbyte] at hdecoded

theorem step_inWrite {s : State} {a : Nat} {b : Byte} {turns : List Turn} (hb : s.runState ≠ .busy) (ha : a < s.cfg.inCap)
    (hagenda : s.agenda = .host (inWriteRequest a b) :: turns) :
    step s = .next (((s.withAgenda turns).withInByte a b).answered .nothing) := by
  rw [step_hostDecoded (hostDecoded_inWriteRequest a b) hagenda, exec_inWrite_of_lt (s := s.withAgenda turns) ha,
    withAgenda_runState, if_neg hb]

/-- Step 1 of R119 outside a run: the block stands in IN from address `a` on, and the rest of the state is kept. -/
theorem loadTurns_run {block : List Byte} {a : Nat} {turns : List Turn} {s : State} (hb : s.runState ≠ .busy)
    (hfits : a + block.length ≤ s.cfg.inCap) (hagenda : s.agenda = loadTurns a block ++ turns) :
    ∃ t, runsTo block.length s t ∧
      (∀ x, t.inByte x = if a ≤ x then (block[x - a]?).getD (s.inByte x) else s.inByte x) ∧
      t = { s with inMem := t.inMem, agenda := turns, hostResult := t.hostResult } := by
  induction block generalizing a s with
  | nil => exact ⟨s, runsTo_zero s, by simp, by rw [← show s.agenda = turns from hagenda]⟩
  | cons b rest ih =>
    rw [List.length_cons] at hfits
    have hstep := step_inWrite hb (by omega) hagenda
    obtain ⟨t, hrun, hbytes, hframe⟩ := ih
      (s := ((s.withAgenda (loadTurns (a + 1) rest ++ turns)).withInByte a b).answered .nothing) hb
      (show a + 1 + rest.length ≤ s.cfg.inCap by omega) rfl
    refine ⟨t, runsTo_succ hstep hrun, fun x => ?_, hframe⟩
    rw [hbytes x, answered_inByte, withInByte_inByte, withAgenda_inByte]
    obtain hlt | rfl | hgt := Nat.lt_trichotomy x a
    · rw [if_neg (by omega), if_neg (by omega), if_neg (by omega)]
    · simp
    · rw [if_pos (by omega), if_neg (by omega), if_pos (by omega), show x - a = x - (a + 1) + 1 by omega,
        List.getElem?_cons_succ]

/-- Step 2 of R119 outside a run, with a length that IN can hold (43_host_commands.md R93). -/
theorem step_inLen {s : State} {v : Word} {turns : List Turn} (hb : s.runState ≠ .busy) (hv : v.toNat ≤ s.cfg.inCap)
    (hagenda : s.agenda = .host (regWriteRequest 0x08 v) :: turns) :
    step s = .next (((s.withAgenda turns).withInLen v).answered .nothing) := by
  have hlen : BitVec.ofNat 32 (min v.toNat s.cfg.inCap) = v := by rw [min_eq_left hv, BitVec.ofNat_toNat, BitVec.setWidth_eq]
  have hwrite : writeRegister 0x08 v (s.withAgenda turns) =
      (s.withAgenda turns).withInLen (BitVec.ofNat 32 (min v.toNat s.cfg.inCap)) := if_neg hb
  have hdecoded : HostDecoded (regWriteRequest 0x08 v) (.regWrite 0x08 v) :=
    .regWrite rfl rfl rfl (show 0x08 % 4 = 0 from rfl) nofun
  rw [step_hostDecoded hdecoded hagenda, exec_regWrite_of_aligned rfl, hwrite, hlen]

/-- Step 4 of R119 outside a run (43_host_commands.md R94). -/
theorem step_start {s : State} {turns : List Turn} (hb : s.runState ≠ .busy)
    (hagenda : s.agenda = .host (regWriteRequest 0x00 1) :: turns) :
    step s = .next ((s.withAgenda turns).started.answered .nothing) := by
  have hdecoded : HostDecoded (regWriteRequest 0x00 1) (.start 1) := .start rfl rfl rfl rfl rfl
  rw [step_hostDecoded hdecoded hagenda, exec_start_of_set rfl, startRun_of_stopped (s := s.withAgenda turns) hb]

/-- Settles O35: the bytes one by one, then the length, which IN can hold, then START. -/
theorem bootSequenceLoadsTheBlock : Obligations.BootSequenceLoadsTheBlock := by
  intro block s hb hfits hlegal hagenda
  obtain ⟨-, hcap, -, -⟩ := hlegal
  have hlen : (BitVec.ofNat 32 block.length).toNat = block.length := toNat_ofNat_of_lt (by omega)
  obtain ⟨t, hload, hbytes, hframe⟩ := loadTurns_run hb (by omega) hagenda
  have htcap : t.cfg = s.cfg := by rw [hframe]
  have htb : t.runState ≠ .busy := by rw [hframe]; exact hb
  have hinLen := step_inLen htb (by rw [hlen, htcap]; exact hfits) (show t.agenda = _ by rw [hframe])
  have hstart := step_start (turns := [])
    (s := ((t.withAgenda [.host (regWriteRequest 0x00 1)]).withInLen (BitVec.ofNat 32 block.length)).answered .nothing)
    htb rfl
  refine ⟨_, runsTo_trans hload (runsTo_succ hinLen (runsTo_one hstart)), rfl, rfl, rfl, rfl, rfl, rfl, rfl, rfl, hlen,
    fun a => ?_, ?_, ?_, htcap, ?_⟩
  · simpa using hbytes a
  · show t.outMem = s.outMem
    rw [hframe]
  · show t.dictHint = s.dictHint
    rw [hframe]
  · show t.resetEpoch = s.resetEpoch
    rw [hframe]

/-! ## Unwritten bytes and the reset event -/

theorem inByte_of_unwritten {s : State} {a : Nat} (h : Memory.written? s.inMem a = none) :
    s.inByte a = Config.inResetByte s.resetEpoch a := by
  rw [State.inByte, h, Option.getD_none]

/-- The stream's bits are those of the bytes of IN, bit 0 first (20_memory.md R42). -/
theorem stream_bit_inByte {s : State} {a j : Nat} (ha : a < s.cfg.inCap) (hj : j < 8) :
    s.stream.bit (8 * a + j) = some ((s.inByte a).getLsbD j) := by
  have hbyte : (8 * a + j) / 8 = a := by omega
  have hbit : (8 * a + j) % 8 = j := by omega
  simp only [State.stream, hbyte, hbit, if_pos ha]

/-- Settles O13: InRead and the stream both take the byte from `inByte`. -/
theorem unwrittenInputReadsTheSame : Obligations.UnwrittenInputReadsTheSame := by
  intro s a ha hnone
  obtain ⟨hread, -⟩ := bufferReadsReturnTheByte a s
  rw [← inByte_of_unwritten hnone]
  exact ⟨hread ha, fun j hj => stream_bit_inByte ha hj⟩

/-- Settles O40: the turn is used up first, and reset keeps of the state the parameters and the turns left. -/
theorem resetEventClearsEveryRegister : Obligations.ResetEventClearsEveryRegister :=
  fun _ _ hagenda => step_reset hagenda

end Sys2Proof.Machine
end
